-- ==== Sys2Proof/Word.lean ====
section
/-! DEFINITION. The word types of the engine (00_scope.md R11) and the mathematical modulo (40_ringmath_addsub.md R120). -/

namespace Sys2Proof

/-- A BMEM byte: 8 bits (R11). -/
abbrev Byte := BitVec 8

/-- A host word, a command word, a control register: 32 bits (R11). -/
abbrev Word := BitVec 32

/-- The number of a polynomial register, 0 to 7 (R21). -/
abbrev Reg := Fin 8

/-- A stored coefficient: an integer 0 to 3328 (R11, R21, R23). R23: "A model may carry the invariant in the type of a
coefficient (`Fin 3329`)". DEDUCED, safe: log 12. -/
abbrev Coeff := Fin 3329

/-- The contents of a polynomial register: 256 coefficients, coefficient 0 first (R21). -/
abbrev Coeffs := Vector Coeff 256

/-- A sequence of 256 unreduced values, as the packer handles them (R150, R151). -/
abbrev Values := Vector Nat 256

end Sys2Proof
end

