-- ==== Sys2Proof/Syntax.lean ====
section
/-! DEFINITION. The twelve commands of command set MKE-1, one constructor per row of the opcode table
(30_encoding.md R92 to R96). Every operand is an unsigned integer taken from its field (R97). -/

namespace Sys2Proof

/-- The domain annotation `N` of `ENCODE` and `DECODE` (R93): 0 is standard form, 1 is NTT form. -/
inductive Domain where
  | std
  | ntt
  deriving DecidableEq, Repr

/-- A command (30_encoding.md R96, R112); the destination is written first, as in R112, except that the packer
commands name their register first. -/
inductive Instr where
  /-- `PADD pd, pa, pb` (R130) -/
  | padd (pd pa pb : Reg)
  /-- `PSUB pd, pa, pb`: pa minus pb (R131) -/
  | psub (pd pa pb : Reg)
  /-- `NTT pd, pa` (R185) -/
  | ntt (pd pa : Reg)
  /-- `INTT pd, pa` (R186) -/
  | intt (pd pa : Reg)
  /-- `PWMUL pd, pa, pb` (R204) -/
  | pwmul (pd pa pb : Reg)
  /-- `ENCODE [addr], ps, d, N` (R153) -/
  | encode (ps : Reg) (d : Nat) (dom : Domain) (addr : Nat)
  /-- `DECODE pd, [addr], d, N` (R154) -/
  | decode (pd : Reg) (d : Nat) (dom : Domain) (addr : Nat)
  /-- `SERIALIZE [addr], ps, d` (R155) -/
  | serialize (ps : Reg) (d : Nat) (addr : Nat)
  /-- `DESERIALIZE pd, [addr], d` (R156) -/
  | deserialize (pd : Reg) (d : Nat) (addr : Nat)
  /-- `SAMPLECBD pd, [addr], len, n` (R171) -/
  | samplecbd (pd : Reg) (n len addr : Nat)
  /-- `SAMPLEU pd, [addr], len` (R211) -/
  | sampleu (pd : Reg) (len addr : Nat)
  /-- `ZEROIZE` (R220) -/
  | zeroize
  deriving DecidableEq, Repr

end Sys2Proof
end

