-- ==== Sys2Proof/WellFormed.lean ====
section
/-! DEFINITION. Which commands have a command word: the ranges of the fields (30_encoding.md R93 to R95) and the extra
legality conditions of the opcode map (R96). -/

namespace Sys2Proof

/-- `addr` fits the 11-bit field (R93, R94, R95). -/
abbrev addrFits (addr : Nat) : Prop := addr < 2048

/-- `d` is a legal packing width: 1 to 12; "0, 13, 14, 15 are illegal" (R93). -/
abbrev widthLegal (d : Nat) : Prop := 1 ≤ d ∧ d ≤ 12

/-- `n` is a legal binomial parameter: 1 to 7; "0 is illegal" (R95). -/
abbrev binomialLegal (n : Nat) : Prop := 1 ≤ n ∧ n ≤ 7

/-- The command has a command word: every field in range and the condition of R96 met. -/
def Instr.WellFormed : Instr → Bool
  | .padd _ _ _ => true
  | .psub _ _ _ => true
  | .ntt _ _ => true
  | .intt _ _ => true
  | .pwmul _ _ _ => true
  | .encode _ d _ addr => decide (widthLegal d ∧ addrFits addr)
  | .decode _ d _ addr => decide (widthLegal d ∧ addrFits addr)
  | .serialize _ d addr => decide (widthLegal d ∧ addrFits addr)
  | .deserialize _ d addr => decide (widthLegal d ∧ addrFits addr)
  | .samplecbd _ n len addr => decide (binomialLegal n ∧ len < 512 ∧ addrFits addr)
  | .sampleu _ len addr => decide (len < 4096 ∧ addrFits addr)
  | .zeroize => true

end Sys2Proof
end

