-- ==== Sys2Proof/Decode.lean ====
section
/-! DEFINITION. The decoder of 30_encoding.md R98, total on 32-bit words and rejecting by name (R99), the encoder of
R91 to R97 after it, the opcode map of R96 as data, and the host's entry decodeTableWord. -/

namespace Sys2Proof

/-- `w[hi:lo]`: "the unsigned integer formed by bits hi down to lo inclusive" (00_scope.md R9). -/
def field (w : Word) (hi lo : Nat) : Nat := (w.toNat >>> lo) % 2 ^ (hi + 1 - lo)

/-- The 3-bit register field whose lowest bit is `lo` (R91, R92). -/
def regField (w : Word) (lo : Nat) : Reg := Fin.ofNat 8 (field w (lo + 2) lo)

/-- Bit 19 read as the annotation `N` (R93). -/
def domainField (w : Word) : Domain := if field w 19 19 = 0 then .std else .ntt

/-- Why a word is illegal: the cases (a) to (g) of R99. The engine raises IllegalCommand for each alike; the names are
the model's own (log 14). -/
inductive Illegal where
  /-- (a) opcode 0, 6, 7 or 14 to 30 -/
  | unassignedOpcode
  /-- (b) a reserved field is not 0 -/
  | reservedNotZero
  /-- (c) `pb` is not 0 in `NTT` or `INTT` -/
  | secondSourceNotZero
  /-- (d) `N` is 1 in `SERIALIZE` or `DESERIALIZE` -/
  | domainBitSet
  /-- (e) `d` is 0 or greater than 12 -/
  | widthOutOfRange
  /-- (f) `n` is 0 in `SAMPLECBD` -/
  | binomialParameterZero
  /-- (g) a bit of [26:0] is 1 in `ZEROIZE` -/
  | zeroizeBitsSet
  deriving DecidableEq, Repr

/-- "a total function from 32-bit words to either a command with its operands or `illegal`" (R98). -/
inductive Decoded where
  | command (i : Instr)
  | illegal (why : Illegal)
  deriving DecidableEq, Repr

/-- Format R with three registers (R92, R98 opcodes 1, 2, 5). -/
def decodeThreeRegs (w : Word) (make : Reg → Reg → Reg → Instr) : Decoded :=
  if field w 17 0 ≠ 0 then .illegal .reservedNotZero
  else .command (make (regField w 24) (regField w 21) (regField w 18))

/-- Format R with one source: `pb` and the reserved bits must be 0 (R92, R98 opcodes 3, 4). -/
def decodeTwoRegs (w : Word) (make : Reg → Reg → Instr) : Decoded :=
  if field w 17 0 ≠ 0 then .illegal .reservedNotZero
  else if field w 20 18 ≠ 0 then .illegal .secondSourceNotZero
  else .command (make (regField w 24) (regField w 21))

/-- Format M with the annotation `N` (R93, R98 opcodes 8, 9). -/
def decodePack (w : Word) (make : Reg → Nat → Domain → Nat → Instr) : Decoded :=
  if field w 18 11 ≠ 0 then .illegal .reservedNotZero
  else if field w 23 20 = 0 ∨ field w 23 20 > 12 then .illegal .widthOutOfRange
  else .command (make (regField w 24) (field w 23 20) (domainField w) (field w 10 0))

/-- Format M with `N` = 0 (R93, R98 opcodes 10, 11). -/
def decodePackStd (w : Word) (make : Reg → Nat → Nat → Instr) : Decoded :=
  if field w 18 11 ≠ 0 then .illegal .reservedNotZero
  else if field w 19 19 ≠ 0 then .illegal .domainBitSet
  else if field w 23 20 = 0 ∨ field w 23 20 > 12 then .illegal .widthOutOfRange
  else .command (make (regField w 24) (field w 23 20) (field w 10 0))

/-- Format B (R95, R98 opcode 12). -/
def decodeBinomial (w : Word) (make : Reg → Nat → Nat → Nat → Instr) : Decoded :=
  if field w 11 11 ≠ 0 then .illegal .reservedNotZero
  else if field w 23 21 = 0 then .illegal .binomialParameterZero
  else .command (make (regField w 24) (field w 23 21) (field w 20 12) (field w 10 0))

/-- Format U (R94, R98 opcode 13). -/
def decodeUniform (w : Word) (make : Reg → Nat → Nat → Instr) : Decoded :=
  if field w 11 11 ≠ 0 then .illegal .reservedNotZero
  else .command (make (regField w 24) (field w 23 12) (field w 10 0))

/-- Format Z (R91, R98 opcode 31). -/
def decodeBare (w : Word) (i : Instr) : Decoded :=
  if field w 26 0 ≠ 0 then .illegal .zeroizeBitsSet else .command i

/-- `Decode(w)` of R98. "Decoding reads no state." -/
def decode (w : Word) : Decoded :=
  match field w 31 27 with
  | 1 => decodeThreeRegs w .padd
  | 2 => decodeThreeRegs w .psub
  | 3 => decodeTwoRegs w .ntt
  | 4 => decodeTwoRegs w .intt
  | 5 => decodeThreeRegs w .pwmul
  | 8 => decodePack w .encode
  | 9 => decodePack w .decode
  | 10 => decodePackStd w .serialize
  | 11 => decodePackStd w .deserialize
  | 12 => decodeBinomial w .samplecbd
  | 13 => decodeUniform w .sampleu
  | 31 => decodeBare w .zeroize
  | _ => .illegal .unassignedOpcode

/-! ### The encoder -/

/-- The opcode of R96. -/
def Instr.opcode : Instr → Nat
  | .padd _ _ _ => 1
  | .psub _ _ _ => 2
  | .ntt _ _ => 3
  | .intt _ _ => 4
  | .pwmul _ _ _ => 5
  | .encode _ _ _ _ => 8
  | .decode _ _ _ _ => 9
  | .serialize _ _ _ => 10
  | .deserialize _ _ _ => 11
  | .samplecbd _ _ _ _ => 12
  | .sampleu _ _ _ => 13
  | .zeroize => 31

/-- The value of the bit `N` (R93). -/
def Domain.bit : Domain → Nat
  | .std => 0
  | .ntt => 1

/-- The fields below the opcode, each at its place in the diagrams of R91 to R95. -/
def Instr.operandBits : Instr → Nat
  | .padd pd pa pb => pd.val * 2 ^ 24 + pa.val * 2 ^ 21 + pb.val * 2 ^ 18
  | .psub pd pa pb => pd.val * 2 ^ 24 + pa.val * 2 ^ 21 + pb.val * 2 ^ 18
  | .ntt pd pa => pd.val * 2 ^ 24 + pa.val * 2 ^ 21
  | .intt pd pa => pd.val * 2 ^ 24 + pa.val * 2 ^ 21
  | .pwmul pd pa pb => pd.val * 2 ^ 24 + pa.val * 2 ^ 21 + pb.val * 2 ^ 18
  | .encode ps d dom addr => ps.val * 2 ^ 24 + d * 2 ^ 20 + dom.bit * 2 ^ 19 + addr
  | .decode pd d dom addr => pd.val * 2 ^ 24 + d * 2 ^ 20 + dom.bit * 2 ^ 19 + addr
  | .serialize ps d addr => ps.val * 2 ^ 24 + d * 2 ^ 20 + addr
  | .deserialize pd d addr => pd.val * 2 ^ 24 + d * 2 ^ 20 + addr
  | .samplecbd pd n len addr => pd.val * 2 ^ 24 + n * 2 ^ 21 + len * 2 ^ 12 + addr
  | .sampleu pd len addr => pd.val * 2 ^ 24 + len * 2 ^ 12 + addr
  | .zeroize => 0

/-- The command word of a well-formed command (R91 to R97). -/
def encode (i : Instr) : Word := BitVec.ofNat 32 (i.opcode * 2 ^ 27 + i.operandBits)

/-! ### The opcode map as data (R96) -/

/-- One row of the opcode map: "a word w selects the row when `(w and mask) = match`" (R96). -/
structure OpcodeRow where
  mnemonic : String
  pattern : Word
  mask : Word
  deriving DecidableEq, Repr

/-- The twelve rows of R96. -/
def opcodeMap : List OpcodeRow :=
  [ ⟨"PADD", 0x08000000, 0xF803FFFF⟩,
    ⟨"PSUB", 0x10000000, 0xF803FFFF⟩,
    ⟨"NTT", 0x18000000, 0xF81FFFFF⟩,
    ⟨"INTT", 0x20000000, 0xF81FFFFF⟩,
    ⟨"PWMUL", 0x28000000, 0xF803FFFF⟩,
    ⟨"ENCODE", 0x40000000, 0xF807F800⟩,
    ⟨"DECODE", 0x48000000, 0xF807F800⟩,
    ⟨"SERIALIZE", 0x50000000, 0xF80FF800⟩,
    ⟨"DESERIALIZE", 0x58000000, 0xF80FF800⟩,
    ⟨"SAMPLECBD", 0x60000000, 0xF8000800⟩,
    ⟨"SAMPLEU", 0x68000000, 0xF8000800⟩,
    ⟨"ZEROIZE", 0xF8000000, 0xFFFFFFFF⟩ ]

/-- The mnemonic of a command (R96). -/
def Instr.mnemonic : Instr → String
  | .padd _ _ _ => "PADD"
  | .psub _ _ _ => "PSUB"
  | .ntt _ _ => "NTT"
  | .intt _ _ => "INTT"
  | .pwmul _ _ _ => "PWMUL"
  | .encode _ _ _ _ => "ENCODE"
  | .decode _ _ _ _ => "DECODE"
  | .serialize _ _ _ => "SERIALIZE"
  | .deserialize _ _ _ => "DESERIALIZE"
  | .samplecbd _ _ _ _ => "SAMPLECBD"
  | .sampleu _ _ _ => "SAMPLEU"
  | .zeroize => "ZEROIZE"

/-- The word selects the row. -/
abbrev OpcodeRow.selects (r : OpcodeRow) (w : Word) : Prop := w &&& r.mask = r.pattern

/-- The extra legality condition of R96, by opcode: `1 <= d <= 12` for format M, `n >= 1` for `SAMPLECBD`. -/
def extraCondition (w : Word) : Bool :=
  if 8 ≤ field w 31 27 ∧ field w 31 27 ≤ 11 then decide (widthLegal (field w 23 20))
  else if field w 31 27 = 12 then decide (1 ≤ field w 23 21)
  else true

/-! ### The host's entry -/

/-- The table's word as a command word: one 32-bit word, whatever number of low bits the table gives (R90). -/
def tableWord (nbits w : Nat) : Word := BitVec.ofNat 32 (w % 2 ^ nbits)

/-- The command the decoder reads from a row's word (the host's fixed name). -/
def decodeTableWord (nbits w : Nat) : Option Instr :=
  match decode (tableWord nbits w) with
  | .command i => some i
  | .illegal _ => none

end Sys2Proof
end

