-- ==== Sys2Proof/Config.lean ====
section
/-! DEFINITION. What the engine's spec leaves to a configuration (00_scope.md R7) and the one free value (70 R309). -/

namespace Sys2Proof

/-- The configuration of an engine. R7: `ZETA[0..127]` is a "parameter with default"; `GAMMA` is computed from it
(R203) and is no second parameter. The default is `defaultConfig`, the one in use `engineConfig`, both in Machine/Tables.lean. -/
structure Config where
  /-- the zeta table, 128 entries (R183) -/
  zeta : Vector Coeff 128
  deriving DecidableEq, Repr

/-- The word that a host read of the BMEM window returns while `BUSY = 1`. R309: "returns an UNSPECIFIED 32-bit value
(any value; not necessarily the old or the new contents, not necessarily the same on two reads)". A FREE VALUE: no
body, so nothing can be proved of it; its argument counts the reads, so two reads need not agree. Safe: log 4. -/
opaque Config.freeWord : Nat → Word

end Sys2Proof
end

