-- ==== Sys2Proof/Machine/State.lean ====
section
/-! DEFINITION. The state of the engine (10_state.md R20), the events that drive it (00_scope.md R12), its reset value
(R42), and the reasons a step can stop. -/

namespace Sys2Proof.Machine

/-- The domain tag of a polynomial register (R22). Encoding 3 is "never produced" and has no constructor. -/
inductive Tag where
  /-- nothing has written the register since reset or `ZEROIZE` -/
  | empty
  /-- standard (coefficient) form -/
  | std
  /-- NTT (evaluation) form -/
  | ntt
  deriving DecidableEq, Repr

/-- BMEM (R27) as the list of its bytes that are not 0, addresses strictly rising; a byte not listed is 0, its reset
content (R42). -/
abbrev Memory := List Host.Cell

/-- The size of a host access. The interface has 32-bit accesses only (20_memory.md R61); the other two are the narrow
accesses whose response R62 defines. -/
inductive AccessSize where
  | byte
  | half
  | word
  deriving DecidableEq, Repr

/-- A host access at byte offset `off` of the window: `HostRead(off)` and `HostWrite(off, w)` of 00_scope.md R10. -/
inductive Access where
  | read (size : AccessSize) (off : Nat)
  | write (size : AccessSize) (off : Nat) (data : Word)
  deriving DecidableEq, Repr

/-- What can happen next (R12, R300): a host access, the engine's step, or the reset input. -/
inductive Event where
  /-- the host makes one access -/
  | host (a : Access)
  /-- the engine takes its step, if it is enabled (46_system.md R226) -/
  | engine
  /-- the reset input is asserted (70_reset_and_hazards.md R300) -/
  | reset
  deriving DecidableEq, Repr

/-- A fault of the engine (60_exceptions.md R272) with the detail it records. It does NOT stop the model: R271 gives
its whole effect, `takeFault`. Code 3 is never raised by the engine and has no constructor. -/
inductive CommandFault where
  /-- code 1: `len` is not 64n -/
  | invalidLength (len : Nat)
  /-- code 2: the lowest index whose value does not fit, and the value -/
  | coefficientOutOfRange (index value : Nat)
  /-- code 4: how many coefficients were accepted -/
  | streamExhausted (accepted : Nat)
  /-- code 8 -/
  | illegalCommand
  /-- code 9 -/
  | domainMismatch
  /-- code 10: the first source register that is `EMPTY` -/
  | emptyOperand (r : Reg)
  /-- code 11 -/
  | addressRange
  deriving DecidableEq, Repr

/-- Why the MODEL stops with a fault. -/
inductive Fault where
  /-- Raised by `step` alone, when `BUSY = 1` and no word is pending. R29 and R222 set the two together, so no run
  reaches such a state. Safe: the model stops where the spec says nothing (log 6). -/
  | noPendingCommand
  deriving DecidableEq, Repr

/-- Why the MODEL gives no meaning. -/
inductive Refusal where
  /-- Raised by an arm of `exec` whose command has no meaning yet; no arm does. Safe. -/
  | notModelled (mnemonic : String)
  deriving DecidableEq, Repr

/-- The architectural state of R20, field for field, and after it three fields of the model's own. -/
structure State where
  /-- `P[0..7]` (R21, R23) -/
  p : Vector Coeffs 8
  /-- `T[0..7]` (R22) -/
  t : Vector Tag 8
  /-- `BMEM[0..2047]` (R27) -/
  bmem : Memory
  /-- `CTRL.IE` (R34) -/
  ie : Bool
  /-- `STATUS.BUSY` (R35) -/
  busy : Bool
  /-- `STATUS.DONE` (R35) -/
  done : Bool
  /-- `STATUS.ERR` (R35) -/
  err : Bool
  /-- `STATUS.OVR` (R35) -/
  ovr : Bool
  /-- `STATUS.ECODE` (R35) -/
  ecode : BitVec 4
  /-- `RESULT` (R37) -/
  result : Word
  /-- `ERRINFO` (R38) -/
  errInfo : Word
  /-- `LASTCMD` (R40) -/
  lastCmd : Word
  /-- `PENDING` (R29): the command word latched by an accepted `CMD` write, or none (R42) -/
  pending : Option Word
  /-- MODEL: the events still to come, the next one first (log 1) -/
  schedule : List Event
  /-- MODEL: the word the last host read returned (log 3) -/
  readData : Word
  /-- MODEL: how many free values have been used (log 4) -/
  freeCount : Nat
  deriving DecidableEq, Repr

/-- The state right after reset: the table of R42. The last three fields are the model's own, DESIGN CHOICE (log 1, 3,
4): nothing scheduled, nothing read, no free value used. -/
def State.reset : State where
  p := Vector.replicate 8 (Vector.replicate 256 0)
  t := Vector.replicate 8 .empty
  bmem := []
  ie := false
  busy := false
  done := false
  err := false
  ovr := false
  ecode := 0
  result := 0
  errInfo := 0
  lastCmd := 0
  pending := none
  schedule := []
  readData := 0
  freeCount := 0

end Sys2Proof.Machine
end

