-- ==== Sys2Proof/Machine/Flags.lean ====
section
/-! DEFINITION. Codes and views of the status bits: fault codes and details (60_exceptions.md R272, 10_state.md R38), the
words of STATUS, CTRL and TAGS (R34, R35, R39), and the interrupt output (R43). The engine has no arithmetic flags (R31). -/

namespace Sys2Proof.Machine

/-- The code of a fault, `STATUS.ECODE` (R272). -/
def CommandFault.code : CommandFault → BitVec 4
  | .invalidLength _ => 1
  | .coefficientOutOfRange _ _ => 2
  | .streamExhausted _ => 4
  | .illegalCommand => 8
  | .domainMismatch => 9
  | .emptyOperand _ => 10
  | .addressRange => 11

/-- The codes that R272 assigns to faults the engine raises. -/
def engineCodes : List (BitVec 4) := [1, 2, 4, 8, 9, 10, 11]

/-- The contents of `ERRINFO` (R38): [8:0] = len; [7:0] = index and [27:16] = value; [8:0] = accepted; [2:0] =
register; 0 for the others. -/
def CommandFault.info : CommandFault → Word
  | .invalidLength len => BitVec.ofNat 32 (len % 2 ^ 9)
  | .coefficientOutOfRange index value => BitVec.ofNat 32 (value % 2 ^ 12 * 2 ^ 16 + index % 2 ^ 8)
  | .streamExhausted accepted => BitVec.ofNat 32 (accepted % 2 ^ 9)
  | .illegalCommand => 0
  | .domainMismatch => 0
  | .emptyOperand r => BitVec.ofNat 32 r.val
  | .addressRange => 0

/-- The encoding of a tag in `TAGS` (R22). -/
def Tag.code : Tag → Nat
  | .empty => 0
  | .std => 1
  | .ntt => 2

/-- A one-bit field as a number. -/
def bit (b : Bool) : Nat := if b then 1 else 0

/-- `STATUS` as the host reads it (R35): BUSY [0], DONE [1], ERR [2], OVR [3], ECODE [11:8], the rest 0. -/
def statusWord (s : State) : Word :=
  BitVec.ofNat 32 (bit s.busy + bit s.done * 2 + bit s.err * 4 + bit s.ovr * 8 + s.ecode.toNat * 2 ^ 8)

/-- `CTRL` as the host reads it (R34): IE [0]; CLR reads 0; the rest 0. -/
def ctrlWord (s : State) : Word := BitVec.ofNat 32 (bit s.ie)

/-- `TAGS` as the host reads it (R39): bits [2r+1 : 2r] are the encoding of `T[r]`; [31:16] are 0. -/
def tagsWord (s : State) : Word :=
  BitVec.ofNat 32 (((List.finRange 8).map fun r : Reg => s.t[r].code * 4 ^ r.val).sum)

/-- The interrupt output, "a pure function of state" (R43, 60_exceptions.md R278). -/
def irq (s : State) : Bool := s.ie && (s.done || s.err)

end Sys2Proof.Machine
end

