-- ==== Sys2Proof/Machine/Ops.lean ====
section
/-! DEFINITION. The named operations over registers, tags and BMEM (00_scope.md R10), the end of a command (46_system.md
R226), fault entry (60_exceptions.md R271) and the way out of the error state (R276), and the reset event (R300). -/

namespace Sys2Proof.Machine

/-! ### Polynomial registers and tags -/

/-- `P[r]` (R10). -/
def State.coeffs (s : State) (r : Reg) : Coeffs := s.p[r]

/-- `T[r]` (R10). -/
def State.tag (s : State) (r : Reg) : Tag := s.t[r]

/-- `P[r] <- v` and `T[r] <- t` in one step: "a command that writes a register sets its tag in the same step" (R22). -/
def State.setReg (s : State) (r : Reg) (v : Coeffs) (tag : Tag) : State :=
  { s with p := s.p.set r v, t := s.t.set r tag }

/-- Element `i` of a sequence of coefficients; no rule reads an index of 256 or more, where this is 0. -/
def coeffAt (x : Coeffs) (i : Nat) : Coeff := if h : i < 256 then x[i] else 0

/-- `x[i] <- c` on a sequence of coefficients; no rule writes an index of 256 or more, where this changes nothing. -/
def putCoeff (x : Coeffs) (i : Nat) (c : Coeff) : Coeffs := x.setIfInBounds i c

/-! ### BMEM -/

/-- The canonical form of BMEM: addresses strictly rising and below 2048, no listed byte 0. -/
abbrev Memory.wf (m : Memory) : Prop :=
  m.Pairwise (fun x y => x.1 < y.1) ∧ ∀ c ∈ m, c.1 < 2048 ∧ c.2 ≠ 0

/-- What an unlisted address reads as: 0, the reset content of every BMEM byte (R42). -/
abbrev unlistedByte : Byte := 0

/-- One byte of BMEM. -/
def Memory.read (m : Memory) (a : Nat) : Byte :=
  match m with
  | [] => unlistedByte
  | (k, b) :: rest => if k = a then b else Memory.read rest a

/-- `BMEM[a] <- v`, keeping the canonical form: writing what an unlisted address reads as removes the entry. -/
def Memory.write (m : Memory) (a : Nat) (v : Byte) : Memory :=
  match m with
  | [] => if v = unlistedByte then [] else [(a, v)]
  | (k, b) :: rest =>
    if a < k then
      if v = unlistedByte then (k, b) :: rest else (a, v) :: (k, b) :: rest
    else if a = k then
      if v = unlistedByte then rest else (a, v) :: rest
    else (k, b) :: Memory.write rest a v

/-- `MemRead(addr, n)`: "the n bytes `BMEM[addr], BMEM[addr+1], ..., BMEM[addr+n-1]` ... lowest address first" (R10). -/
def Memory.readBytes (m : Memory) (addr n : Nat) : List Byte := (List.range n).map fun k => m.read (addr + k)

/-- `MemWrite(addr, n, v)`: "store the n-byte sequence v ..., v[0] at the lowest address" (R10). -/
def Memory.writeBytes (m : Memory) (addr : Nat) (v : List Byte) : Memory :=
  match v with
  | [] => m
  | b :: rest => Memory.writeBytes (m.write addr b) (addr + 1) rest

/-- `MemWrite` on the state. -/
def State.storeBytes (s : State) (addr : Nat) (v : List Byte) : State :=
  { s with bmem := s.bmem.writeBytes addr v }

/-- All data storage cleared: every coefficient 0, every tag `EMPTY`, every BMEM byte 0 (R220). -/
def State.clearData (s : State) : State :=
  { s with
    p := Vector.replicate 8 (Vector.replicate 256 0)
    t := Vector.replicate 8 .empty
    bmem := [] }

/-! ### The end of a command -/

/-- A command that completes with `result` (R226, R228): RESULT, DONE and BUSY, and the word is pending no more (R29). -/
def completed (result : Word) (s : State) : State :=
  { s with result := result, done := true, busy := false, pending := none }

/-- Fault entry, "the whole effect of the engine step for that command" (R271). The registers, tags and BMEM of `s`
are those before the command (R279). -/
def takeFault (f : CommandFault) (s : State) : State :=
  { s with
    result := 0
    errInfo := f.info
    ecode := f.code
    err := true
    busy := false
    pending := none }

/-- The command completes: a next state. -/
def complete (result : Word) (s : State) : Host.Outcome State Fault Refusal := .next (completed result s)

/-- `raise F(info)` (R10, R271): a next state. -/
def raise (f : CommandFault) (s : State) : Host.Outcome State Fault Refusal := .next (takeFault f s)

/-- Leaving the error state: the `CLR` action (10_state.md R34, 60_exceptions.md R276). -/
def clearStatus (s : State) : State :=
  { s with done := false, err := false, ovr := false, ecode := 0, errInfo := 0 }

/-! ### Events -/

/-- The reset event: "every piece of state takes the value of the table in `10_state.md` rule R42" (R300). The model's
own fields, which are not the engine's state, are kept (log 9). -/
def resetEngine (s : State) : State :=
  { State.reset with schedule := s.schedule, readData := s.readData, freeCount := s.freeCount }

end Sys2Proof.Machine
end

