-- ==== Sys2Proof/Machine/RingMath.lean ====
section
/-! DEFINITION. The scalar functions of 40_ringmath_addsub.md: Mod, ModQ, Compress, Decompress, BitsToBytes,
BytesToBits. All arithmetic is on mathematical integers and every reduction is written (00_scope.md R9, R128). -/

namespace Sys2Proof.Machine

/-- The coefficient modulus q = 3329 (00_scope.md R7). -/
def q : Nat := 3329

/-- `Mod(x, m)`: "true mathematical modulo, always non-negative result" (R120). -/
def mod (x : Int) (m : Nat) : Nat := (x % (m : Int)).toNat

/-- `ModQ(x) = Mod(x, 3329)`, "narrowed to the coefficient integer type" (R121). -/
def modQ (x : Int) : Coeff := Fin.ofNat 3329 (mod x q)

/-- `Compress(x, d)` (R122). -/
def compress (x d : Nat) : Nat := (2 * x * 2 ^ d + 3329) / (2 * 3329) % 2 ^ d

/-- `Decompress(y, d)` (R123). -/
def decompress (y d : Nat) : Nat := (2 * y * 3329 + 2 ^ d) / 2 ^ (d + 1)

/-- The byte whose bit `j` is `b[8m + j]` (R125). -/
def byteOfBits (b : List Bool) (m : Nat) : Byte :=
  BitVec.ofNat 8 (((List.range 8).map fun j => bit (b.getD (8 * m + j) false) * 2 ^ j).sum)

/-- `BitsToBytes(b)` (R125). -/
def bitsToBytes (b : List Bool) : List Byte := (List.range (b.length / 8)).map (byteOfBits b)

/-- `BytesToBits(B)` (R126): `b[i] = (B[floor(i/8)] >> (i mod 8)) and 1`. -/
def bytesToBits (bytes : List Byte) : List Bool :=
  (List.range (8 * bytes.length)).map fun i => (bytes.getD (i / 8) 0).getLsbD (i % 8)

/-- The number of 1 bits among `b[first .. first + n - 1]`. -/
def countBits (b : List Bool) (first n : Nat) : Nat :=
  ((List.range n).map fun k => bit (b.getD (first + k) false)).sum

end Sys2Proof.Machine
end

