-- ==== Sys2Proof/Machine/Operands.lean ====
section
/-! DEFINITION. The operand forms: the BMEM range of a command (20_memory.md R72, 41_packer.md R158), the length of an
object (R93, R95, R157), the tag a domain annotation stands for (R24), and values read as coefficients and back. -/

namespace Sys2Proof.Machine

/-- The size of `BMEM` in bytes (R7, R27). -/
def bmemSize : Nat := 2048

/-- The range check of R72, on unbounded integers. -/
abbrev inBuffer (addr len : Nat) : Prop := addr + len ≤ bmemSize

/-- The bytes of a packer object: "exactly 32·d bytes" (R93, R157). -/
def objectBytes (d : Nat) : Nat := 32 * d

/-- The bytes the binomial sampler needs: 64n (R95, R170). -/
def seedBytes (n : Nat) : Nat := 64 * n

/-- The bound `m(d)` of a d-bit field: 2^d for d < 12, 3329 for d = 12 (R150). -/
def fieldBound (d : Nat) : Nat := if d = 12 then q else 2 ^ d

/-- The tag that the annotation `N` requires of a source or gives a destination (R24, R153, R154). -/
def domainTag : Domain → Tag
  | .std => .std
  | .ntt => .ntt

/-- The coefficients of a register as plain values. -/
def valuesOf (x : Coeffs) : Values := x.map fun c => c.val

/-- Values stored as coefficients. Every rule that stores values gives them below 3329 (R23), so `ModQ` changes none. -/
def coeffsOf (v : Values) : Coeffs := v.map fun n => modQ (n : Nat)

/-- The smallest index whose value does not fit `d` bits, if there is one (R153, R155). -/
def firstUnfit (f : Values) (d : Nat) : Option (Fin 256) :=
  (List.finRange 256).find? fun i => decide (fieldBound d ≤ f[i])

end Sys2Proof.Machine
end

