-- ==== Sys2Proof/Machine/AddSub.lean ====
section
/-! DEFINITION. The modular adder/subtractor: PADD and PSUB (40_ringmath_addsub.md R130, R131). -/

namespace Sys2Proof.Machine

/-- Coefficient-wise `ModQ(a[i] + b[i])` (R130). -/
def addCoeffs (a b : Coeffs) : Coeffs := Vector.ofFn fun i => modQ ((a[i].val : Int) + b[i].val)

/-- Coefficient-wise `ModQ(a[i] - b[i])` (R131). -/
def subCoeffs (a b : Coeffs) : Coeffs := Vector.ofFn fun i => modQ ((a[i].val : Int) - b[i].val)

/-- `PADD pd, pa, pb` (R130). -/
def execPadd (pd pa pb : Reg) (s : State) : Host.Outcome State Fault Refusal :=
  if s.tag pa = .empty then raise (.emptyOperand pa) s
  else if s.tag pb = .empty then raise (.emptyOperand pb) s
  else if s.tag pa ≠ s.tag pb then raise .domainMismatch s
  else complete 0 (s.setReg pd (addCoeffs (s.coeffs pa) (s.coeffs pb)) (s.tag pa))

/-- `PSUB pd, pa, pb` (R131). -/
def execPsub (pd pa pb : Reg) (s : State) : Host.Outcome State Fault Refusal :=
  if s.tag pa = .empty then raise (.emptyOperand pa) s
  else if s.tag pb = .empty then raise (.emptyOperand pb) s
  else if s.tag pa ≠ .std ∨ s.tag pb ≠ .std then raise .domainMismatch s
  else complete 0 (s.setReg pd (subCoeffs (s.coeffs pa) (s.coeffs pb)) .std)

end Sys2Proof.Machine
end

