-- ==== Sys2Proof/Machine/Binomial.lean ====
section
/-! DEFINITION. The centred-binomial sampler: SAMPLECBD (42_cbd_sampler.md). -/

namespace Sys2Proof.Machine

/-- `SamplePolyCbd(B, n)` on a byte sequence of 64n bytes (R170). -/
def samplePolyCbd (bytes : List Byte) (n : Nat) : Coeffs :=
  Vector.ofFn fun i =>
    modQ ((countBits (bytesToBits bytes) (2 * i.val * n) n : Int) - countBits (bytesToBits bytes) (2 * i.val * n + n) n)

/-- `SAMPLECBD pd, [addr], len, n` (R171). -/
def execSamplecbd (pd : Reg) (n len addr : Nat) (s : State) : Host.Outcome State Fault Refusal :=
  if len ≠ seedBytes n then raise (.invalidLength len) s
  else if ¬ inBuffer addr (seedBytes n) then raise .addressRange s
  else complete 0 (s.setReg pd (samplePolyCbd (s.bmem.readBytes addr (seedBytes n)) n) .std)

end Sys2Proof.Machine
end

