-- ==== Sys2Proof/Machine/Tables.lean ====
section
/-! DEFINITION. The zeta table (43_ntt.md R183) and the gamma table computed from it (44_pwmul.md R202). -/

namespace Sys2Proof.Machine

/-- Row by row, the table of R183. -/
def zetaRows : List (List Nat) :=
  [ [1, 1729, 2580, 3289, 2642, 630, 1897, 848],
    [1062, 1919, 193, 797, 2786, 3260, 569, 1746],
    [296, 2447, 1339, 1476, 3046, 56, 2240, 1333],
    [1426, 2094, 535, 2882, 2393, 2879, 1974, 821],
    [289, 331, 3253, 1756, 1197, 2304, 2277, 2055],
    [650, 1977, 2513, 632, 2865, 33, 1320, 1915],
    [2319, 1435, 807, 452, 1438, 2868, 1534, 2402],
    [2647, 2617, 1481, 648, 2474, 3110, 1227, 910],
    [17, 2761, 583, 2649, 1637, 723, 2288, 1100],
    [1409, 2662, 3281, 233, 756, 2156, 3015, 3050],
    [1703, 1651, 2789, 1789, 1847, 952, 1461, 2687],
    [939, 2308, 2437, 2388, 733, 2337, 268, 641],
    [1584, 2298, 2037, 3220, 375, 2549, 2090, 1645],
    [1063, 319, 2773, 757, 2099, 561, 2466, 2594],
    [2804, 1092, 403, 1026, 1143, 2150, 2775, 886],
    [1722, 1212, 1874, 1029, 2110, 2935, 885, 2154] ]

/-- The configuration with the default table of R183. The values are the spec's "from general knowledge, not in
source" (93 G1). UNVERIFIED, unsafe: log 5. -/
def defaultConfig : Config where
  zeta := Vector.ofFn fun i => modQ ((zetaRows.getD (i.val / 8) []).getD (i.val % 8) 0 : Nat)

/-- The configuration of this engine: the default (R7, R183). -/
def engineConfig : Config := defaultConfig

/-- `ZETA[i]` of a configuration; no rule reads an index of 128 or more, where this is 0. -/
def zetaAt (c : Config) (i : Nat) : Coeff := if h : i < 128 then c.zeta[i] else 0

/-- `GAMMA[2g] = ZETA[64 + g]`, `GAMMA[2g+1] = ModQ(-ZETA[64 + g])` (R202). -/
def gammaAt (c : Config) (i : Nat) : Coeff :=
  if i % 2 = 0 then zetaAt c (64 + i / 2) else modQ (-(zetaAt c (64 + i / 2)).val)

end Sys2Proof.Machine
end

