-- ==== Sys2Proof/Machine/Multiplier.lean ====
section
/-! DEFINITION. The modular polynomial multiplier: PWMUL (44_pwmul.md). -/

namespace Sys2Proof.Machine

/-- `BaseMul(a0, a1, b0, b1, γ)` (R200): one reduction of each sum, on mathematical integers. -/
def baseMul (a0 a1 b0 b1 gamma : Coeff) : Coeff × Coeff :=
  (modQ ((a0.val : Int) * b0.val + (a1.val : Int) * b1.val * gamma.val),
   modQ ((a0.val : Int) * b1.val + (a1.val : Int) * b0.val))

/-- The product of pair `i` of two NTT-form sequences (R201). -/
def pairProduct (c : Config) (a b : Coeffs) (i : Nat) : Coeff × Coeff :=
  baseMul (coeffAt a (2 * i)) (coeffAt a (2 * i + 1)) (coeffAt b (2 * i)) (coeffAt b (2 * i + 1)) (gammaAt c i)

/-- `Multiply(a, b)`: elements 2i and 2i+1 are the product of pair i (R201). -/
def multiply (c : Config) (a b : Coeffs) : Coeffs :=
  Vector.ofFn fun k =>
    if k.val % 2 = 0 then (pairProduct c a b (k.val / 2)).1 else (pairProduct c a b (k.val / 2)).2

/-- `PWMUL pd, pa, pb` (R204). -/
def execPwmul (pd pa pb : Reg) (s : State) : Host.Outcome State Fault Refusal :=
  if s.tag pa = .empty then raise (.emptyOperand pa) s
  else if s.tag pb = .empty then raise (.emptyOperand pb) s
  else if s.tag pa ≠ .ntt ∨ s.tag pb ≠ .ntt then raise .domainMismatch s
  else complete 0 (s.setReg pd (multiply engineConfig (s.coeffs pa) (s.coeffs pb)) .ntt)

end Sys2Proof.Machine
end

