-- ==== Sys2Proof/Machine/Packer.lean ====
section
/-! DEFINITION. The compressor/decompressor and bit packer: ENCODE, DECODE, SERIALIZE, DESERIALIZE (41_packer.md). -/

namespace Sys2Proof.Machine

/-- The bits of `ByteEncode(f, d)`: `b[i*d + j] = (f[i] >> j) and 1` (R150). -/
def encodeBits (f : Values) (d : Nat) : List Bool :=
  (List.finRange 256).flatMap fun i => (List.range d).map fun j => f[i].testBit j

/-- `ByteEncode(f, d)` for a sequence whose every value fits (R150). -/
def byteEncode (f : Values) (d : Nat) : List Byte := bitsToBytes (encodeBits f d)

/-- `ByteDecode(B, d)` (R151): group i of d bits, least significant bit first, modulo m(d). -/
def byteDecode (bytes : List Byte) (d : Nat) : Values :=
  Vector.ofFn fun i =>
    mod (((List.range d).map fun j => 2 ^ j * bit ((bytesToBits bytes).getD (i.val * d + j) false)).sum : Nat)
      (fieldBound d)

/-- `Compress` on every coefficient (R152, R155). -/
def compressAll (f : Coeffs) (d : Nat) : Values := f.map fun x => compress x.val d

/-- `Decompress` on every value (R152, R156). -/
def decompressAll (g : Values) (d : Nat) : Values := g.map fun y => decompress y d

/-- `ENCODE [addr], ps, d, N` (R153). -/
def execEncode (ps : Reg) (d : Nat) (dom : Domain) (addr : Nat) (s : State) : Host.Outcome State Fault Refusal :=
  if ¬ inBuffer addr (objectBytes d) then raise .addressRange s
  else if s.tag ps = .empty then raise (.emptyOperand ps) s
  else if s.tag ps ≠ domainTag dom then raise .domainMismatch s
  else
    match firstUnfit (valuesOf (s.coeffs ps)) d with
    | some i => raise (.coefficientOutOfRange i.val (s.coeffs ps)[i].val) s
    | none => complete 0 (s.storeBytes addr (byteEncode (valuesOf (s.coeffs ps)) d))

/-- `DECODE pd, [addr], d, N` (R154). -/
def execDecode (pd : Reg) (d : Nat) (dom : Domain) (addr : Nat) (s : State) : Host.Outcome State Fault Refusal :=
  if ¬ inBuffer addr (objectBytes d) then raise .addressRange s
  else complete 0 (s.setReg pd (coeffsOf (byteDecode (s.bmem.readBytes addr (objectBytes d)) d)) (domainTag dom))

/-- `SERIALIZE [addr], ps, d` (R155). -/
def execSerialize (ps : Reg) (d : Nat) (addr : Nat) (s : State) : Host.Outcome State Fault Refusal :=
  if ¬ inBuffer addr (objectBytes d) then raise .addressRange s
  else if s.tag ps = .empty then raise (.emptyOperand ps) s
  else if s.tag ps ≠ .std then raise .domainMismatch s
  else
    match firstUnfit (compressAll (s.coeffs ps) d) d with
    | some i => raise (.coefficientOutOfRange i.val (compressAll (s.coeffs ps) d)[i]) s
    | none => complete 0 (s.storeBytes addr (byteEncode (compressAll (s.coeffs ps) d) d))

/-- `DESERIALIZE pd, [addr], d` (R156). -/
def execDeserialize (pd : Reg) (d : Nat) (addr : Nat) (s : State) : Host.Outcome State Fault Refusal :=
  if ¬ inBuffer addr (objectBytes d) then raise .addressRange s
  else
    complete 0
      (s.setReg pd (coeffsOf (decompressAll (byteDecode (s.bmem.readBytes addr (objectBytes d)) d) d)) .std)

end Sys2Proof.Machine
end

