-- ==== Sys2Proof/Machine/System.lean ====
section
/-! DEFINITION. Housekeeping: ZEROIZE (46_system.md R220). -/

namespace Sys2Proof.Machine

/-- `ZEROIZE` (R220). OVR, IE and LASTCMD stay (R302). -/
def execZeroize (s : State) : Host.Outcome State Fault Refusal := complete 0 s.clearData

end Sys2Proof.Machine
end

