-- ==== Sys2Proof/Machine/Transform.lean ====
section
/-! DEFINITION. The number-theoretic transform unit: NTT and INTT (43_ntt.md), loop for loop as R181 and R182 write
them. -/

namespace Sys2Proof.Machine

/-- One forward butterfly: `t = ModQ(zeta * x[j+len])`, `x[j+len] = ModQ(x[j] - t)`, `x[j] = ModQ(x[j] + t)` (R181). -/
def forwardButterfly (zeta : Coeff) (len : Nat) (x : Coeffs) (j : Nat) : Coeffs :=
  let old := coeffAt x j
  let t := modQ ((zeta.val : Int) * (coeffAt x (j + len)).val)
  putCoeff (putCoeff x (j + len) (modQ ((old.val : Int) - t.val))) j (modQ ((old.val : Int) + t.val))

/-- One inverse butterfly: `t = x[j]`, `x[j] = ModQ(t + x[j+len])`, `x[j+len] = ModQ(zeta * (x[j+len] - t))` (R182). -/
def inverseButterfly (zeta : Coeff) (len : Nat) (x : Coeffs) (j : Nat) : Coeffs :=
  let t := coeffAt x j
  let old := coeffAt x (j + len)
  putCoeff (putCoeff x j (modQ ((t.val : Int) + old.val))) (j + len)
    (modQ ((zeta.val : Int) * ((old.val : Int) - t.val)))

/-- The `len` butterflies `j = start .. start + len - 1` of one group (R180). -/
def runGroup (butterfly : Coeff → Nat → Coeffs → Nat → Coeffs) (zeta : Coeff) (len start : Nat) (x : Coeffs) : Coeffs :=
  (List.range len).foldl (fun x k => butterfly zeta len x (start + k)) x

/-- One forward layer: blocks at 0, 2·len, 4·len, ...; the zeta index goes up by one a group (R180, R181). -/
def forwardLayer (c : Config) (xi : Coeffs × Nat) (len : Nat) : Coeffs × Nat :=
  (List.range (128 / len)).foldl
    (fun xi block => (runGroup forwardButterfly (zetaAt c xi.2) len (2 * len * block) xi.1, xi.2 + 1)) xi

/-- One inverse layer: the same blocks in the same order; the zeta index goes down by one a group (R180, R182). -/
def inverseLayer (c : Config) (xi : Coeffs × Nat) (len : Nat) : Coeffs × Nat :=
  (List.range (128 / len)).foldl
    (fun xi block => (runGroup inverseButterfly (zetaAt c xi.2) len (2 * len * block) xi.1, xi.2 - 1)) xi

/-- `Ntt(f)`: "`len` = 128, 64, 32, 16, 8, 4, 2", zeta index from 1 (R180, R181). -/
def ntt (c : Config) (f : Coeffs) : Coeffs := ([128, 64, 32, 16, 8, 4, 2].foldl (forwardLayer c) (f, 1)).1

/-- "the fixed constant 3303 (the modular inverse of 128 mod q)" (R7, R182). -/
def inv128 : Nat := 3303

/-- `NttInverse(g)`: "`len` = 2, 4, 8, 16, 32, 64, 128", zeta index from 127, then every element times 3303 (R182). -/
def nttInverse (c : Config) (g : Coeffs) : Coeffs :=
  ([2, 4, 8, 16, 32, 64, 128].foldl (inverseLayer c) (g, 127)).1.map fun x => modQ ((x.val : Int) * inv128)

/-- `NTT pd, pa` (R185). -/
def execNtt (pd pa : Reg) (s : State) : Host.Outcome State Fault Refusal :=
  if s.tag pa = .empty then raise (.emptyOperand pa) s
  else if s.tag pa ≠ .std then raise .domainMismatch s
  else complete 0 (s.setReg pd (ntt engineConfig (s.coeffs pa)) .ntt)

/-- `INTT pd, pa` (R186). -/
def execIntt (pd pa : Reg) (s : State) : Host.Outcome State Fault Refusal :=
  if s.tag pa = .empty then raise (.emptyOperand pa) s
  else if s.tag pa ≠ .ntt then raise .domainMismatch s
  else complete 0 (s.setReg pd (nttInverse engineConfig (s.coeffs pa)) .std)

end Sys2Proof.Machine
end

