-- ==== Sys2Proof/Machine/Uniform.lean ====
section
/-! DEFINITION. The rejection sampler: SAMPLEU (45_uniform_sampler.md). -/

namespace Sys2Proof.Machine

/-- The candidate is appended if it is below 3329 and 256 are not reached yet (R210). -/
def accept (out : List Coeff) (candidate : Nat) : List Coeff :=
  if h : candidate < 3329 then
    if out.length < 256 then out ++ [⟨candidate, h⟩] else out
  else out

/-- `d1 = b0 + 256 * Mod(b1, 16)` (R210). -/
def firstCandidate (b0 b1 : Byte) : Nat := b0.toNat + 256 * (b1.toNat % 16)

/-- `d2 = floor(b1 / 16) + 16 * b2` (R210). -/
def secondCandidate (b1 b2 : Byte) : Nat := b1.toNat / 16 + 16 * b2.toNat

/-- How `RejSample` ends (R210): 256 coefficients and the bytes consumed, or the number accepted before the stream
ran out. -/
inductive Sampled where
  | filled (out : List Coeff) (used : Nat)
  | exhausted (accepted : Nat)
  deriving DecidableEq, Repr

/-- The loop of `RejSample` (R210) with `out` accepted so far and `g` groups examined; the list is the unread stream,
of which only whole groups of three bytes are used (R213 (a)). -/
def rejLoop (stream : List Byte) (out : List Coeff) (g : Nat) : Sampled :=
  if 256 ≤ out.length then .filled out (3 * g)
  else
    match stream with
    | b0 :: b1 :: b2 :: rest =>
      rejLoop rest (accept (accept out (firstCandidate b0 b1)) (secondCandidate b1 b2)) (g + 1)
    | _ => .exhausted out.length

/-- `RejSample(S)` (R210). -/
def rejSample (stream : List Byte) : Sampled := rejLoop stream [] 0

/-- A list of 256 accepted coefficients as a register's contents, "element 0 first" (R210). -/
def coeffsOfList (out : List Coeff) : Coeffs := Vector.ofFn fun i => out.getD i.val 0

/-- `SAMPLEU pd, [addr], len` (R211). -/
def execSampleu (pd : Reg) (len addr : Nat) (s : State) : Host.Outcome State Fault Refusal :=
  if ¬ inBuffer addr len then raise .addressRange s
  else
    match rejSample (s.bmem.readBytes addr len) with
    | .filled out used => complete (BitVec.ofNat 32 used) (s.setReg pd (coeffsOfList out) .ntt)
    | .exhausted accepted => raise (.streamExhausted accepted) s

end Sys2Proof.Machine
end

