-- ==== Sys2Proof/Machine/Dispatch.lean ====
section
/-! DEFINITION. `Execute(c, state)` of 46_system.md R226: one arm per command. -/

namespace Sys2Proof.Machine

def exec (i : Instr) (s : State) : Host.Outcome State Fault Refusal :=
  match i with
  | .padd pd pa pb => Sys2Proof.Machine.execPadd pd pa pb s
  | .psub pd pa pb => Sys2Proof.Machine.execPsub pd pa pb s
  | .ntt pd pa => Sys2Proof.Machine.execNtt pd pa s
  | .intt pd pa => Sys2Proof.Machine.execIntt pd pa s
  | .pwmul pd pa pb => Sys2Proof.Machine.execPwmul pd pa pb s
  | .encode ps d dom addr => Sys2Proof.Machine.execEncode ps d dom addr s
  | .decode pd d dom addr => Sys2Proof.Machine.execDecode pd d dom addr s
  | .serialize ps d addr => Sys2Proof.Machine.execSerialize ps d addr s
  | .deserialize pd d addr => Sys2Proof.Machine.execDeserialize pd d addr s
  | .samplecbd pd n len addr => Sys2Proof.Machine.execSamplecbd pd n len addr s
  | .sampleu pd len addr => Sys2Proof.Machine.execSampleu pd len addr s
  | .zeroize => Sys2Proof.Machine.execZeroize s

end Sys2Proof.Machine
end

