-- ==== Sys2Proof/Machine/Window.lean ====
section
/-! DEFINITION. The host window: what HostRead returns and what HostWrite does (10_state.md R32 to R40, 20_memory.md R61
to R67, 46_system.md R222, 70_reset_and_hazards.md R308 to R310). -/

namespace Sys2Proof.Machine

/-- The identification word (R33). -/
def idWord : Word := 0x4E545401

/-- The size of the window in bytes (R7, R60). -/
def windowSize : Nat := 4096

/-- The offset of the BMEM window (R32, R63). -/
def bmemOffset : Nat := 0x800

/-- The access is one the interface has: "32-bit reads and writes at offsets that are multiples of 4" (R61) inside the
window. Any other is "outside the interface" (R62). -/
abbrev regularAccess (size : AccessSize) (off : Nat) : Prop := size = .word ∧ off % 4 = 0 ∧ off < windowSize

/-- The little-endian word of four BMEM bytes (R63). -/
def bmemWord (m : Memory) (a : Nat) : Word :=
  BitVec.ofNat 32
    ((m.read a).toNat + 2 ^ 8 * (m.read (a + 1)).toNat + 2 ^ 16 * (m.read (a + 2)).toNat
      + 2 ^ 24 * (m.read (a + 3)).toNat)

/-- The four bytes of a word, lowest first (R63). -/
def wordBytes (v : Word) : List Byte :=
  [v.extractLsb' 0 8, v.extractLsb' 8 8, v.extractLsb' 16 8, v.extractLsb' 24 8]

/-- A read of a control register or an unmapped offset below the BMEM window (R32 to R40, R67). -/
def readRegister (s : State) (off : Nat) : Word :=
  if off = 0x000 then idWord
  else if off = 0x004 then ctrlWord s
  else if off = 0x008 then statusWord s
  else if off = 0x00C then 0
  else if off = 0x010 then s.result
  else if off = 0x014 then s.errInfo
  else if off = 0x018 then tagsWord s
  else if off = 0x01C then s.lastCmd
  else 0

/-- The word a host read returns. A BMEM read while `BUSY = 1` returns the free value (R309, log 4). -/
def readValue (s : State) (size : AccessSize) (off : Nat) : Word :=
  if ¬ regularAccess size off then 0
  else if off < bmemOffset then readRegister s off
  else if s.busy then Config.freeWord s.freeCount
  else bmemWord s.bmem (off - bmemOffset)

/-- The read uses a free value, so the next one must use another (R309). -/
abbrev usesFreeValue (s : State) (size : AccessSize) (off : Nat) : Prop :=
  regularAccess size off ∧ bmemOffset ≤ off ∧ s.busy = true

/-- `HostRead(off)`: "no side effect" on the engine (R70). The word goes to the model's own `readData`. -/
def hostRead (size : AccessSize) (off : Nat) (s : State) : State :=
  { s with
    readData := readValue s size off
    freeCount := if usesFreeValue s size off then s.freeCount + 1 else s.freeCount }

/-- A write to `CTRL`: bit 0 into IE always, then the CLR action if bit 1 is 1 and BUSY is 0 (R34). -/
def writeCtrl (w : Word) (s : State) : State :=
  let s' := { s with ie := w.getLsbD 0 }
  if w.getLsbD 1 = true ∧ s.busy = false then clearStatus s' else s'

/-- A command word is accepted: latched in PENDING and LASTCMD, BUSY set, DONE cleared (R222). -/
def acceptCommand (w : Word) (s : State) : State :=
  { s with pending := some w, lastCmd := w, busy := true, done := false }

/-- A write to `CMD`: accepted when BUSY = 0 and ERR = 0, else dropped with OVR (R36, R222, R310). -/
def writeCmd (w : Word) (s : State) : State :=
  if s.busy = true ∨ s.err = true then { s with ovr := true } else acceptCommand w s

/-- A write to the BMEM window: four bytes when BUSY = 0, else dropped with OVR (R63, R308). -/
def writeBmem (a : Nat) (w : Word) (s : State) : State :=
  if s.busy then { s with ovr := true } else s.storeBytes a (wordBytes w)

/-- `HostWrite(off, w)`: read-only registers and unmapped offsets ignore it (R32, R67), and so does every access outside
the interface (R62). -/
def hostWrite (size : AccessSize) (off : Nat) (w : Word) (s : State) : State :=
  if ¬ regularAccess size off then s
  else if off = 0x004 then writeCtrl w s
  else if off = 0x00C then writeCmd w s
  else if off < bmemOffset then s
  else writeBmem (off - bmemOffset) w s

/-- One host access. -/
def hostAccess (a : Access) (s : State) : State :=
  match a with
  | .read size off => hostRead size off s
  | .write size off data => hostWrite size off data s

end Sys2Proof.Machine
end

