-- ==== Sys2Proof/Machine/Step.lean ====
section
/-! DEFINITION. One step of the machine: the next event of the schedule (00_scope.md R12, 46_system.md R226, R300), and
how the host of this package places a word where the next step runs it. -/

namespace Sys2Proof.Machine

/-- The engine step, "enabled exactly when `STATUS.BUSY = 1`" (R226): decode the pending word and execute it, or raise
`IllegalCommand`. When it is not enabled nothing happens (log 2). -/
def engineStep (s : State) : Host.Outcome State Fault Refusal :=
  if s.busy then
    match s.pending with
    | none => .fault .noPendingCommand
    | some w =>
      match decode w with
      | .command i => exec i s
      | .illegal _ => raise .illegalCommand s
  else .next s

/-- One step: the next event of the schedule; with none left, the engine's turn (R226, R313; log 1). -/
def step (s : State) : Host.Outcome State Fault Refusal :=
  match s.schedule with
  | [] => engineStep s
  | .engine :: rest => engineStep { s with schedule := rest }
  | .host a :: rest => .next (hostAccess a { s with schedule := rest })
  | .reset :: rest => .next (resetEngine { s with schedule := rest })

/-- The state in which the very next step runs the word as a command: the word is accepted as R222 accepts it, after
the CLR that a recorded fault needs first (R276), and the engine has the next turn (log 8). -/
def State.withFetchWord (s : State) (nbits w : Nat) : State :=
  let s' := if s.err then clearStatus s else s
  { acceptCommand (tableWord nbits w) s' with schedule := .engine :: s.schedule }

end Sys2Proof.Machine
end

