-- ==== Sys2Proof/Machine/Sequences.lean ====
section
/-! DEFINITION. Host sequences: the five pseudo-instructions (48_host_sequences.md R250 to R256) and the protocol by
which the host runs a list of command words, with the end of a run (46_system.md R231). None of this is engine behaviour; the engine sees only
the command words. -/

namespace Sys2Proof.Machine

/-- The host's own refusals before it issues anything: the engine raises neither (R256, log 10). -/
inductive HostError where
  /-- "vector/matrix operands have incompatible lengths" (R256, 60_exceptions.md R272 code 3) -/
  | dimensionMismatch
  /-- a `dot` needs m >= 1 (R252) -/
  | emptyVector
  deriving DecidableEq, Repr

/-- A list of commands, or the host's refusal to issue any. -/
abbrev Expansion := Except HostError (List Instr)

/-- An operand the host "can bring into a register on demand" (R253): the commands that bring it, and the register.
An operand that is resident has no commands. -/
structure Operand where
  load : List Instr
  reg : Reg
  deriving DecidableEq, Repr

/-- An operand that already stands in a register. -/
def resident (r : Reg) : Operand := { load := [], reg := r }

/-- `vecadd (d..), (a..), (b..)`: one `padd` a coordinate (R251). -/
def vecadd (d a b : List Reg) : Expansion :=
  if d.length = a.length ∧ a.length = b.length then
    .ok ((d.zip (a.zip b)).map fun x => .padd x.1 x.2.1 x.2.2)
  else .error .dimensionMismatch

/-- The commands of `dot` after the first product: `pwmul pt, a_i, b_i` and `padd pd, pd, pt` (R252). -/
def dotRest (pd pt : Reg) (pairs : List (Operand × Reg)) : List Instr :=
  pairs.flatMap fun x => x.1.load ++ [.pwmul pt x.1.reg x.2, .padd pd pd pt]

/-- `dot pd, pt, (a..), (b..)` (R252). -/
def dot (pd pt : Reg) (a : List Operand) (b : List Reg) : Expansion :=
  if a.length = b.length then
    match a.zip b with
    | [] => .error .emptyVector
    | (a0, b0) :: rest => .ok (a0.load ++ .pwmul pd a0.reg b0 :: dotRest pd pt rest)
  else .error .dimensionMismatch

/-- What R252 requires of the host: `pt != pd`, and neither among the sources read after the first product. -/
abbrev dotRegistersFit (pd pt : Reg) (a : List Operand) (b : List Reg) : Prop :=
  pt ≠ pd ∧ ∀ r ∈ a.tail.map (·.reg) ++ b.tail, r ≠ pd ∧ r ≠ pt

/-- The operands of `matvec` belong together: as many destinations as rows and as entries of the vector, and every row
as long as the vector (the k of R253). R256: "if vector length ≠ matrix rank" the host refuses. -/
abbrev matvecLengthsFit (d : List Reg) (matrix : List (List Operand)) (v : List Reg) : Prop :=
  d.length = matrix.length ∧ d.length = v.length ∧ ∀ row ∈ matrix, row.length = v.length

/-- `matvec (d..), pt, A, (v..)`: one `dot` a row (R253), refused before anything is issued when a length differs
(R256). -/
def matvec (d : List Reg) (pt : Reg) (matrix : List (List Operand)) (v : List Reg) : Expansion :=
  if matvecLengthsFit d matrix v then
    ((d.zip matrix).mapM fun x => dot x.1 pt x.2 v).map List.flatten
  else .error .dimensionMismatch

/-- `transpose`: no command; the host exchanges the two indices when it fetches an entry (R254), so entry (j, i) of the
result is entry (i, j) of the arrangement. DESIGN CHOICE, safe: R254 speaks of a k×k arrangement only, and the host refuses
any other (log 21). -/
def transpose (matrix : List (List Operand)) : Except HostError (List (List Operand)) :=
  if ∀ row ∈ matrix, row.length = matrix.length then
    .ok ((List.range matrix.length).map fun j => matrix.filterMap fun row => row[j]?)
  else .error .dimensionMismatch

/-- `vintt (d..), (a..)`: one `intt` a coordinate (R255). -/
def vintt (d a : List Reg) : Expansion :=
  if d.length = a.length then .ok ((d.zip a).map fun x => .intt x.1 x.2) else .error .dimensionMismatch

/-- The host's part in the schedule for one command word (R231): write it to `CMD`, and read `STATUS` once the engine
has had its turn. Further polls change nothing but the word read. -/
def issue (w : Word) : List Event := [.host (.write .word 0x00C w), .engine, .host (.read .word 0x008)]

/-- "for each k in order: write w_k to `CMD`; read `STATUS` until `BUSY = 0`; if `ERR = 1`, stop" (R231). The polls are
left out of the result, which they do not change (log 11). -/
def runCommands (words : List Word) (s : State) : Host.Outcome State Fault Refusal :=
  match words with
  | [] => .next s
  | w :: rest =>
    match engineStep (hostWrite .word 0x00C w s) with
    | .next s' => if s'.err then .next s' else runCommands rest s'
    | .fault r => .fault r
    | .refused r => .refused r

/-! ### The end of a run -/

/-- The event is an action of the host: a read or a write of the window (00_scope.md R12). -/
def Event.isHost : Event → Bool
  | .host _ => true
  | .engine => false
  | .reset => false

/-- "the host has no further action and `STATUS.BUSY = 0`" (R231): no action of the host stands in the schedule.
DESIGN CHOICE, unsafe: a reset or an engine turn still to come is no action of the host; R231 mentions neither (log 20). -/
abbrev State.atRest (s : State) : Prop := s.schedule.all (fun e => !e.isHost) = true ∧ s.busy = false

/-- The first state at rest, looked for over at most `fuel` steps. -/
def endWithin (fuel : Nat) (s : State) : Host.Outcome State Fault Refusal :=
  match fuel with
  | 0 => .next s
  | n + 1 =>
    if s.atRest then .next s
    else
      match step s with
      | .next t => endWithin n t
      | .fault r => .fault r
      | .refused r => .refused r

/-- "THE END OF A RUN is the first moment at which the host has no further action and `STATUS.BUSY = 0`" (R231), for the
run that starts in `s`: the first state at rest, `s` itself included. The events left and one more step are enough to
find it, since a step takes an event and with none left the engine has the turn. -/
def endOfRun (s : State) : Host.Outcome State Fault Refusal := endWithin (s.schedule.length + 1) s

/-- "The run ended well if `ERR = 0` and `OVR = 0`" at that moment (R231), whatever comes after it. -/
def runEndsWell (s : State) : Bool :=
  match endOfRun s with
  | .next t => !t.err && !t.ovr
  | .fault _ => false
  | .refused _ => false

end Sys2Proof.Machine
end

