-- ==== Sys2Proof/Safety.lean ====
section
/-! DEFINITION. The terms claims use: the invariants of the state (10_state.md R23, R26, R29, R37, R41), and what a
transition leaves alone. -/

namespace Sys2Proof.Machine

/-- R41 (a) to (d), the invariants among the status fields. -/
structure State.StatusInv (s : State) : Prop where
  /-- (a) `DONE` and `ERR` are never both 1 -/
  notDoneAndErr : ¬ (s.done = true ∧ s.err = true)
  /-- (b) `BUSY = 1` implies `DONE = 0` and `ERR = 0` -/
  busyAlone : s.busy = true → s.done = false ∧ s.err = false
  /-- (c) `ERR = 0` implies `ECODE` and `ERRINFO` are 0 -/
  noErrNoCode : s.err = false → s.ecode = 0 ∧ s.errInfo = 0
  /-- (d) `ERR = 1` implies `ECODE` is a code of R272 and not 0 -/
  errHasCode : s.err = true → s.ecode ∈ engineCodes

/-- R29, R20: a word is pending exactly while `BUSY = 1`, and it is `LASTCMD`. -/
structure State.PendingInv (s : State) : Prop where
  whileBusy : s.busy = true → s.pending = some s.lastCmd
  onlyBusy : s.busy = false → s.pending = none

/-- R26: the storage of a register whose tag is `EMPTY` "is in fact all zero". -/
def State.EmptyZero (s : State) : Prop := ∀ r : Reg, s.tag r = .empty → s.coeffs r = Vector.replicate 256 0

/-- R37: `RESULT` is 0, or a byte count of `SAMPLEU`: "a multiple of 3 between 384 and 2046". -/
def State.ResultInv (s : State) : Prop :=
  s.result = 0 ∨ (384 ≤ s.result.toNat ∧ s.result.toNat ≤ 2046 ∧ s.result.toNat % 3 = 0)

/-- What holds in every reachable state. -/
structure State.Inv (s : State) : Prop where
  status : s.StatusInv
  pendingWord : s.PendingInv
  emptyZero : s.EmptyZero
  memory : s.bmem.wf
  resultCount : s.ResultInv

/-- Registers and tags of `t` are those of `s`. -/
def sameRegs (s t : State) : Prop := ∀ r : Reg, t.coeffs r = s.coeffs r ∧ t.tag r = s.tag r

/-- Registers and tags of `t` are those of `s`, but for register `pd`. -/
def sameRegsBut (pd : Reg) (s t : State) : Prop := ∀ r : Reg, r ≠ pd → t.coeffs r = s.coeffs r ∧ t.tag r = s.tag r

/-- Every byte of BMEM reads in `t` as in `s`. -/
def sameBytes (s t : State) : Prop := ∀ a : Nat, t.bmem.read a = s.bmem.read a

/-- Every byte of BMEM outside `addr .. addr + len - 1` reads in `t` as in `s`. -/
def sameBytesOutside (addr len : Nat) (s t : State) : Prop :=
  ∀ a : Nat, (a < addr ∨ addr + len ≤ a) → t.bmem.read a = s.bmem.read a

/-- What no command touches (R228, R271): `IE`, `OVR`, `LASTCMD`, and the model's own fields. -/
def sameControls (s t : State) : Prop :=
  t.ie = s.ie ∧ t.ovr = s.ovr ∧ t.lastCmd = s.lastCmd ∧ t.schedule = s.schedule ∧ t.readData = s.readData ∧
    t.freeCount = s.freeCount

/-- How a command that completes with `result` leaves the status (R226, R228): RESULT, DONE, BUSY and the pending word
written, and nothing else of the status or of what no command touches. -/
def endsCompleted (result : Word) (s t : State) : Prop :=
  t.result = result ∧ t.done = true ∧ t.busy = false ∧ t.pending = none ∧ t.err = s.err ∧ t.ecode = s.ecode ∧
    t.errInfo = s.errInfo ∧ sameControls s t

/-- How a command that faults leaves the state, the whole of R271. -/
def endsFaulted (f : CommandFault) (s t : State) : Prop :=
  t.result = 0 ∧ t.errInfo = f.info ∧ t.ecode = f.code ∧ t.err = true ∧ t.busy = false ∧ t.pending = none ∧
    t.done = s.done ∧ sameRegs s t ∧ sameBytes s t ∧ sameControls s t

/-- The engine's data in `t` is that in `s`: registers, tags and BMEM. -/
def sameData (s t : State) : Prop := t.p = s.p ∧ t.t = s.t ∧ t.bmem = s.bmem

/-- All of the engine's state (R20) in `t` is that in `s`; the model's own fields may differ. -/
def sameEngine (s t : State) : Prop :=
  sameData s t ∧ t.ie = s.ie ∧ t.busy = s.busy ∧ t.done = s.done ∧ t.err = s.err ∧ t.ovr = s.ovr ∧
    t.ecode = s.ecode ∧ t.result = s.result ∧ t.errInfo = s.errInfo ∧ t.lastCmd = s.lastCmd ∧ t.pending = s.pending

/-! ### Events -/

/-- The next event is `e`. -/
abbrev nextIs (e : Event) (s : State) : Prop := s.schedule.head? = some e

/-- The engine has the next turn: its event is next, or no event is left (log 1). -/
abbrev engineTurn (s : State) : Prop := s.schedule = [] ∨ nextIs .engine s

/-- The next event is a write of `CTRL` whose `CLR` action takes place (R34). -/
def clearNext (s : State) : Prop :=
  s.busy = false ∧ ∃ w : Word, nextIs (.host (.write .word 0x004 w)) s ∧ w.getLsbD 1 = true

/-- The next event is a write of `CMD` that is accepted (R222). -/
def acceptNext (s : State) : Prop :=
  s.busy = false ∧ s.err = false ∧ ∃ w : Word, nextIs (.host (.write .word 0x00C w)) s

/-- The next event is a host write that is dropped (R282): of `CMD` while `BUSY` or `ERR`, of BMEM while `BUSY`. -/
def dropNext (s : State) : Prop :=
  ((s.busy = true ∨ s.err = true) ∧ ∃ w : Word, nextIs (.host (.write .word 0x00C w)) s) ∨
  (s.busy = true ∧ ∃ off w, 0x800 ≤ off ∧ off < 4096 ∧ off % 4 = 0 ∧ nextIs (.host (.write .word off w)) s)

/-! ### What a command does, in the terms of its rule -/

/-- The command's step is fault entry with `f` (R271). -/
def raises (i : Instr) (f : CommandFault) (s : State) : Prop := ∃ t, exec i s = .next t ∧ endsFaulted f s t

/-- `t` is `s` after a command that loaded `pd` with the values `value` and the tag `tag` and completed with `result`:
the register, its tag, and that nothing else changed but the status of a completed command. -/
def loadsRegister (pd : Reg) (tag : Tag) (value : Fin 256 → Nat) (result : Word) (s t : State) : Prop :=
  (∀ i : Fin 256, (t.coeffs pd)[i].val = value i) ∧ t.tag pd = tag ∧ sameRegsBut pd s t ∧ sameBytes s t ∧
    endsCompleted result s t

/-- Bit `k` of the object at `addr`, counted least significant bit of the lowest byte first (20_memory.md R64). -/
def bitAt (m : Memory) (addr k : Nat) : Bool := (m.read (addr + k / 8)).getLsbD (k % 8)

/-- The unsigned integer in the `d` bits of coefficient `i` of the object at `addr` (41_packer.md R150, R151). -/
def packedValue (m : Memory) (addr d i : Nat) : Nat :=
  Finset.sum (Finset.range d) fun j => 2 ^ j * bit (bitAt m addr (i * d + j))

/-- How many of the `n` bits of the object at `addr` from bit `first` on are 1 (42_cbd_sampler.md R170). -/
def onesAt (m : Memory) (addr first n : Nat) : Nat :=
  Finset.sum (Finset.range n) fun k => bit (bitAt m addr (first + k))

/-- `t` is `s` after a command that stored the `d`-bit values `value` at `addr` and completed: every bit of the 32d bytes
is given, and nothing else changed but the status of a completed command. -/
def storesObject (addr d : Nat) (value : Fin 256 → Nat) (s t : State) : Prop :=
  (∀ i : Fin 256, ∀ j, j < d → bitAt t.bmem addr (i.val * d + j) = (value i).testBit j) ∧
    sameBytesOutside addr (32 * d) s t ∧ sameRegs s t ∧ endsCompleted 0 s t

/-- The bound `m(d)` in R150's words: `2^d` for d < 12 and 3329 for d = 12. -/
def boundOf (d : Nat) : Nat := if d < 12 then 2 ^ d else 3329

/-- The first index whose value does not fit `d` bits is `i`, and the value is `v` (R153, R155). -/
def firstTooLarge (value : Fin 256 → Nat) (d : Nat) (i : Fin 256) (v : Nat) : Prop :=
  v = value i ∧ boundOf d ≤ v ∧ ∀ k : Fin 256, k < i → value k < boundOf d

/-- The 12-bit candidates of the first `g` groups of the stream at `addr`, in order (45_uniform_sampler.md R210). -/
def candidates (m : Memory) (addr g : Nat) : List Nat :=
  (List.range g).flatMap fun k =>
    [(m.read (addr + 3 * k)).toNat + 256 * ((m.read (addr + 3 * k + 1)).toNat % 16),
      (m.read (addr + 3 * k + 1)).toNat / 16 + 16 * (m.read (addr + 3 * k + 2)).toNat]

/-- Those of them that are accepted: "accept each candidate whose value is < q, in order" (R210). -/
def accepted (m : Memory) (addr g : Nat) : List Nat := (candidates m addr g).filter fun v => v < 3329

/-! ### The formats of a command word (30_encoding.md R91 to R95) -/

/-- Format R (R92). -/
def formatR (op pd pa pb : Nat) (w : Word) : Prop :=
  field w 31 27 = op ∧ field w 26 24 = pd ∧ field w 23 21 = pa ∧ field w 20 18 = pb ∧ field w 17 0 = 0

/-- Format M (R93). -/
def formatM (op r d n addr : Nat) (w : Word) : Prop :=
  field w 31 27 = op ∧ field w 26 24 = r ∧ field w 23 20 = d ∧ field w 19 19 = n ∧ field w 18 11 = 0 ∧
    field w 10 0 = addr

/-- Format U (R94). -/
def formatU (op pd len addr : Nat) (w : Word) : Prop :=
  field w 31 27 = op ∧ field w 26 24 = pd ∧ field w 23 12 = len ∧ field w 11 11 = 0 ∧ field w 10 0 = addr

/-- Format B (R95). -/
def formatB (op pd n len addr : Nat) (w : Word) : Prop :=
  field w 31 27 = op ∧ field w 26 24 = pd ∧ field w 23 21 = n ∧ field w 20 12 = len ∧ field w 11 11 = 0 ∧
    field w 10 0 = addr

/-- Format Z (R91). -/
def formatZ (op : Nat) (w : Word) : Prop := field w 31 27 = op ∧ field w 26 0 = 0

/-! ### The tables and the ring -/

/-- 43_ntt.md R184 (a): `ZETA[2^l + g] * ZETA[2^(l+1) - 1 - g] = -1 (mod 3329)` for every layer and group. -/
def InversePairing (c : Config) : Prop :=
  ∀ l, l < 7 → ∀ g, g < 2 ^ l →
    ((zetaAt c (2 ^ l + g)).val * (zetaAt c (2 ^ (l + 1) - 1 - g)).val) % 3329 = 3328

/-- 43_ntt.md R184 (b): `ZETA[1]^2 = -1`, `ZETA[2i]^2 = ZETA[i]` and `ZETA[2i+1]^2 = -ZETA[i]` (mod 3329). -/
def Tower (c : Config) : Prop :=
  (zetaAt c 1).val ^ 2 % 3329 = 3328 ∧
    ∀ i, 1 ≤ i → i < 64 →
      (zetaAt c (2 * i)).val ^ 2 % 3329 = (zetaAt c i).val ∧
        ((zetaAt c (2 * i + 1)).val ^ 2 + (zetaAt c i).val) % 3329 = 0

/-- Multiplication in Z_q[X]/(X^256 + 1): "negacyclic convolution: X^256 = -1" (44_pwmul.md R205). -/
def ringProduct (f g : Coeffs) : Coeffs :=
  Vector.ofFn fun k =>
    modQ (Finset.sum (Finset.range 256) fun i =>
      if i ≤ k.val then ((coeffAt f i).val : Int) * (coeffAt g (k.val - i)).val
      else -((coeffAt f i).val * (coeffAt g (k.val + 256 - i)).val))

end Sys2Proof.Machine
end

