-- ==== Sys2Proof/Certificates/Slice0/Obligations.lean ====
section
/-! DEFINITION. The statements for the provers. Each docstring names the rule of spec/ it formalises. -/

open Sys2Proof Sys2Proof.Machine

/-! ### Encoding -/

/-- 30_encoding.md R91 to R98: decoding the word of a well-formed command gives the command back, for all twelve. -/
def Obligations.DecodeOfEncode : Prop := ∀ i : Instr, i.WellFormed = true → decode (encode i) = .command i

/-- 30_encoding.md R91 to R98: a legal word is the word of the command it decodes to, and that command is well-formed. -/
def Obligations.EncodeOfDecode : Prop :=
  ∀ (w : Word) (i : Instr), decode w = .command i → i.WellFormed = true ∧ encode i = w

/-- 30_encoding.md R96: the mask and match of each row, with the extra condition, select exactly the words the decoder
of R98 reads as that row's command; "No two rows overlap". -/
def Obligations.DecodeFollowsOpcodeMap : Prop :=
  (∀ w r₁ r₂, r₁ ∈ opcodeMap → r₂ ∈ opcodeMap → r₁.selects w → r₂.selects w → r₁ = r₂) ∧
    ∀ w r, r ∈ opcodeMap →
      ((∃ i, decode w = .command i ∧ i.mnemonic = r.mnemonic) ↔ (r.selects w ∧ extraCondition w = true))

/-- 30_encoding.md R98, R112 and the examples of 95_test_vectors.md: words written out by hand. -/
def Obligations.SpecWordsDecode : Prop :=
  decode 0x2A040000 = .command (.pwmul 2 0 1) ∧ decode 0x49C00180 = .command (.decode 1 12 .std 0x180) ∧
    decode 0x18000000 = .command (.ntt 0 0) ∧ decode 0x42C80400 = .command (.encode 2 12 .ntt 0x400) ∧
    decode 0x614807C0 = .command (.samplecbd 1 2 128 0x7C0) ∧ decode 0x6F180003 = .command (.sampleu 7 384 3) ∧
    decode 0xF8000000 = .command .zeroize

/-- 30_encoding.md R99: a word is illegal in exactly the cases (a) to (g), and executing it raises IllegalCommand with
nothing written; the all-zero and all-ones words are among them. -/
def Obligations.IllegalWordsAreTheSevenCases : Prop :=
  let illegal (w : Word) : Prop :=
    (field w 31 27 = 0 ∨ field w 31 27 = 6 ∨ field w 31 27 = 7 ∨ (14 ≤ field w 31 27 ∧ field w 31 27 ≤ 30)) ∨
    ((1 ≤ field w 31 27 ∧ field w 31 27 ≤ 5) ∧ field w 17 0 ≠ 0) ∨
    ((8 ≤ field w 31 27 ∧ field w 31 27 ≤ 11) ∧ field w 18 11 ≠ 0) ∨
    ((field w 31 27 = 12 ∨ field w 31 27 = 13) ∧ field w 11 11 ≠ 0) ∨
    ((field w 31 27 = 3 ∨ field w 31 27 = 4) ∧ field w 20 18 ≠ 0) ∨
    ((field w 31 27 = 10 ∨ field w 31 27 = 11) ∧ field w 19 19 = 1) ∨
    ((8 ≤ field w 31 27 ∧ field w 31 27 ≤ 11) ∧ (field w 23 20 = 0 ∨ 12 < field w 23 20)) ∨
    (field w 31 27 = 12 ∧ field w 23 21 = 0) ∨
    (field w 31 27 = 31 ∧ field w 26 0 ≠ 0)
  (∀ w, illegal w ∨ ∃ i, decode w = .command i) ∧
    (∀ w, illegal w → ¬ ∃ i, decode w = .command i) ∧
    (∀ w s, illegal w → s.busy = true → s.pending = some w →
      ∃ t, engineStep s = .next t ∧ endsFaulted .illegalCommand s t) ∧
    illegal 0x00000000 ∧ illegal 0xFFFFFFFF

/-! ### The step and the command protocol -/

/-- 46_system.md R226: when the engine has the turn and the pending word decodes to a command, the step is the execution
of that command; the engine's event is used up and nothing else is added. -/
def Obligations.StepRunsPendingCommand : Prop :=
  ∀ (s : State) (w : Word) (i : Instr), s.busy = true → s.pending = some w → decode w = .command i →
    (s.schedule = [] → step s = exec i s) ∧
      ∀ rest, s.schedule = .engine :: rest → step s = exec i { s with schedule := rest }

/-- 46_system.md R222: a CMD write is dropped with OVR while BUSY or ERR, and accepted otherwise; nothing else changes. -/
def Obligations.CmdWriteAcceptsOrDrops : Prop :=
  ∀ (s : State) (w : Word) (rest : List Event), s.schedule = .host (.write .word 0x00C w) :: rest →
    ((s.busy = true ∨ s.err = true) → step s = .next { s with schedule := rest, ovr := true }) ∧
      ((s.busy = false ∧ s.err = false) →
        step s = .next { s with schedule := rest, pending := some w, lastCmd := w, busy := true, done := false })

/-- 10_state.md R34: a CTRL write always stores bit 0 into IE, and bit 1 clears DONE, ERR, OVR, ECODE and ERRINFO while
BUSY is 0 and does nothing while BUSY is 1; CTRL reads as IE alone; IE is 0 at reset. -/
def Obligations.CtrlWriteStoresEnableAndClears : Prop :=
  (∀ (s : State) (w : Word) (rest : List Event), s.schedule = .host (.write .word 0x004 w) :: rest →
    ((w.getLsbD 1 = true ∧ s.busy = false) →
      step s = .next { s with
        schedule := rest, ie := w.getLsbD 0, done := false, err := false, ovr := false, ecode := 0, errInfo := 0 }) ∧
      ((w.getLsbD 1 = false ∨ s.busy = true) → step s = .next { s with schedule := rest, ie := w.getLsbD 0 })) ∧
    (∀ (s : State) (rest : List Event), s.schedule = .host (.read .word 0x004) :: rest →
      step s = .next { s with schedule := rest, readData := if s.ie then 1 else 0 }) ∧
    State.reset.ie = false

/-- 10_state.md R33, R35 (layout), R36 (read), R37 to R39: what a read of each control register returns, field by field,
and that the read changes nothing of the engine. -/
def Obligations.RegisterReadsReturnTheirFields : Prop :=
  ∀ (s : State) (off : Nat), nextIs (.host (.read .word off)) s → off % 4 = 0 → off < 0x800 →
    ∃ t, step s = .next t ∧ sameEngine s t ∧ t.schedule = s.schedule.tail ∧
      (off = 0x000 → t.readData = 0x4E545401) ∧
      (off = 0x008 → field t.readData 0 0 = bit s.busy ∧ field t.readData 1 1 = bit s.done ∧
        field t.readData 2 2 = bit s.err ∧ field t.readData 3 3 = bit s.ovr ∧ field t.readData 7 4 = 0 ∧
        field t.readData 11 8 = s.ecode.toNat ∧ field t.readData 31 12 = 0) ∧
      (off = 0x00C → t.readData = 0) ∧ (off = 0x010 → t.readData = s.result) ∧
      (off = 0x014 → t.readData = s.errInfo) ∧
      (off = 0x018 → (∀ r : Reg, field t.readData (2 * r.val + 1) (2 * r.val) = (s.tag r).code) ∧
        field t.readData 31 16 = 0) ∧
      (off = 0x01C → t.readData = s.lastCmd) ∧ (0x020 ≤ off → t.readData = 0)

/-- 20_memory.md R63 and 70_reset_and_hazards.md R308: a word of the BMEM window is four bytes, lowest first, read and
written while BUSY is 0; while BUSY is 1 a write is dropped with OVR and a read changes nothing of the engine. -/
def Obligations.BmemWindowWordIsFourBytes : Prop :=
  ∀ (s : State) (k : Nat) (v : Word), k < 512 → s.bmem.wf →
    (nextIs (.host (.write .word (0x800 + 4 * k) v)) s → s.busy = false →
      ∃ t, step s = .next t ∧ t.schedule = s.schedule.tail ∧
        (t.bmem.read (4 * k)).toNat = field v 7 0 ∧ (t.bmem.read (4 * k + 1)).toNat = field v 15 8 ∧
        (t.bmem.read (4 * k + 2)).toNat = field v 23 16 ∧ (t.bmem.read (4 * k + 3)).toNat = field v 31 24 ∧
        sameBytesOutside (4 * k) 4 s t ∧ sameEngine s { t with bmem := s.bmem }) ∧
    (nextIs (.host (.read .word (0x800 + 4 * k))) s → s.busy = false →
      ∃ t, step s = .next t ∧ t.schedule = s.schedule.tail ∧ sameEngine s t ∧
        t.readData.toNat = (s.bmem.read (4 * k)).toNat + 2 ^ 8 * (s.bmem.read (4 * k + 1)).toNat +
          2 ^ 16 * (s.bmem.read (4 * k + 2)).toNat + 2 ^ 24 * (s.bmem.read (4 * k + 3)).toNat) ∧
    (nextIs (.host (.write .word (0x800 + 4 * k) v)) s → s.busy = true →
      step s = .next { s with schedule := s.schedule.tail, ovr := true }) ∧
    (nextIs (.host (.read .word (0x800 + 4 * k))) s → s.busy = true →
      ∃ t, step s = .next t ∧ t.schedule = s.schedule.tail ∧ sameEngine s t)

/-- 20_memory.md R62 and R67: an access that is narrow, misaligned or outside the window, and an access to an unmapped
offset, reads 0 and writes nothing; no flag is set. -/
def Obligations.OutsideAccessesHaveNoEffect : Prop :=
  ∀ (s : State) (size : AccessSize) (off : Nat),
    (size ≠ .word ∨ off % 4 ≠ 0 ∨ 4096 ≤ off ∨ (0x020 ≤ off ∧ off ≤ 0x7FC)) →
      (nextIs (.host (.read size off)) s → step s = .next { s with schedule := s.schedule.tail, readData := 0 }) ∧
      ∀ w, nextIs (.host (.write size off w)) s → step s = .next { s with schedule := s.schedule.tail }

/-- 10_state.md R32 to R40: a write to a read-only register is ignored. -/
def Obligations.ReadOnlyRegistersIgnoreWrites : Prop :=
  ∀ (s : State) (off : Nat) (w : Word), off ∈ [0x000, 0x008, 0x010, 0x014, 0x018, 0x01C] →
    nextIs (.host (.write .word off w)) s → step s = .next { s with schedule := s.schedule.tail }

/-- 60_exceptions.md R275: the error state is sticky. While ERR is 1 and BUSY is 0, a step changes neither ERR nor ECODE
nor ERRINFO unless it is a CTRL.CLR or a reset, and a CMD write is dropped and sets OVR. -/
def Obligations.ErrorStateIsSticky : Prop :=
  ∀ s : State, s.err = true → s.busy = false →
    (¬ clearNext s → ¬ nextIs .reset s →
      ∃ t, step s = .next t ∧ t.err = true ∧ t.ecode = s.ecode ∧ t.errInfo = s.errInfo) ∧
      ∀ w : Word, nextIs (.host (.write .word 0x00C w)) s →
        step s = .next { s with schedule := s.schedule.tail, ovr := true }

/-- 60_exceptions.md R276: after the CLR action CMD writes are accepted again, and nothing but the status was changed. -/
def Obligations.ClearThenCommandIsAccepted : Prop :=
  ∀ (s : State) (w v : Word) (rest : List Event), s.busy = false → w.getLsbD 1 = true →
    s.schedule = .host (.write .word 0x004 w) :: .host (.write .word 0x00C v) :: rest →
      ∃ t, Host.Core.run core 2 s = .next t ∧ sameData s t ∧ t.err = false ∧ t.ecode = 0 ∧ t.errInfo = 0 ∧
        t.ovr = false ∧ t.done = false ∧ t.busy = true ∧ t.pending = some v ∧ t.lastCmd = v ∧ t.result = s.result ∧
        t.ie = w.getLsbD 0 ∧ t.schedule = rest

/-- 10_state.md R42 and 70_reset_and_hazards.md R300: the reset event, from any state and with any command pending, gives
every piece of the engine's state the value of the table of R42; so does State.reset. The model's own fields are kept
by the event (log 9). -/
def Obligations.ResetGivesEveryFieldItsValue : Prop :=
  let isReset (t : State) : Prop :=
    (∀ (r : Reg) (i : Fin 256), (t.coeffs r)[i].val = 0) ∧ (∀ r : Reg, t.tag r = .empty) ∧
      (∀ a, t.bmem.read a = 0) ∧ t.ie = false ∧ statusWord t = 0 ∧ t.busy = false ∧ t.done = false ∧ t.err = false ∧
      t.ovr = false ∧ t.ecode = 0 ∧ t.result = 0 ∧ t.errInfo = 0 ∧ tagsWord t = 0 ∧ t.lastCmd = 0 ∧ t.pending = none ∧
      readRegister t 0x000 = 0x4E545401 ∧ irq t = false
  isReset State.reset ∧
    ∀ s : State, nextIs .reset s → ∃ t, step s = .next t ∧ isReset t ∧ t.schedule = s.schedule.tail

/-- 60_exceptions.md R278: irq is IE and (DONE or ERR); it equals IE after the engine's step, and is 0 after an accepted
command, after the CLR action and after IE is cleared. -/
def Obligations.InterruptFollowsStatus : Prop :=
  (∀ s : State, irq s = true ↔ s.ie = true ∧ (s.done = true ∨ s.err = true)) ∧
    (∀ (s t : State), s.busy = true → engineTurn s → step s = .next t → irq t = s.ie) ∧
    (∀ (s t : State), acceptNext s → step s = .next t → irq t = false) ∧
    (∀ (s t : State), clearNext s → step s = .next t → irq t = false) ∧
    (∀ (s t : State) (w : Word), nextIs (.host (.write .word 0x004 w)) s → w.getLsbD 0 = false → step s = .next t →
      irq t = false)

/-! ### The commands -/

/-- 40_ringmath_addsub.md R130: PADD. -/
def Obligations.PaddAddsCoefficients : Prop :=
  ∀ (pd pa pb : Reg) (s : State),
    formatR 1 pd.val pa.val pb.val (encode (.padd pd pa pb)) ∧
    (s.tag pa = .empty → raises (.padd pd pa pb) (.emptyOperand pa) s) ∧
    (s.tag pa ≠ .empty → s.tag pb = .empty → raises (.padd pd pa pb) (.emptyOperand pb) s) ∧
    (s.tag pa ≠ .empty → s.tag pb ≠ .empty → s.tag pa ≠ s.tag pb → raises (.padd pd pa pb) .domainMismatch s) ∧
    (s.tag pa ≠ .empty → s.tag pa = s.tag pb →
      ∃ t, exec (.padd pd pa pb) s = .next t ∧
        loadsRegister pd (s.tag pa) (fun i => ((s.coeffs pa)[i].val + (s.coeffs pb)[i].val) % 3329) 0 s t)

/-- 40_ringmath_addsub.md R131: PSUB. -/
def Obligations.PsubSubtractsCoefficients : Prop :=
  ∀ (pd pa pb : Reg) (s : State),
    formatR 2 pd.val pa.val pb.val (encode (.psub pd pa pb)) ∧
    (s.tag pa = .empty → raises (.psub pd pa pb) (.emptyOperand pa) s) ∧
    (s.tag pa ≠ .empty → s.tag pb = .empty → raises (.psub pd pa pb) (.emptyOperand pb) s) ∧
    (s.tag pa ≠ .empty → s.tag pb ≠ .empty → (s.tag pa = .ntt ∨ s.tag pb = .ntt) →
      raises (.psub pd pa pb) .domainMismatch s) ∧
    (s.tag pa = .std → s.tag pb = .std →
      ∃ t, exec (.psub pd pa pb) s = .next t ∧
        loadsRegister pd .std (fun i => ((s.coeffs pa)[i].val + 3329 - (s.coeffs pb)[i].val) % 3329) 0 s t)

/-- 43_ntt.md R185: NTT. -/
def Obligations.NttLoadsForwardTransform : Prop :=
  ∀ (pd pa : Reg) (s : State),
    formatR 3 pd.val pa.val 0 (encode (.ntt pd pa)) ∧
    (s.tag pa = .empty → raises (.ntt pd pa) (.emptyOperand pa) s) ∧
    (s.tag pa = .ntt → raises (.ntt pd pa) .domainMismatch s) ∧
    (s.tag pa = .std →
      ∃ t, exec (.ntt pd pa) s = .next t ∧
        loadsRegister pd .ntt (fun i => (ntt engineConfig (s.coeffs pa))[i].val) 0 s t)

/-- 43_ntt.md R186: INTT. -/
def Obligations.InttLoadsInverseTransform : Prop :=
  ∀ (pd pa : Reg) (s : State),
    formatR 4 pd.val pa.val 0 (encode (.intt pd pa)) ∧
    (s.tag pa = .empty → raises (.intt pd pa) (.emptyOperand pa) s) ∧
    (s.tag pa = .std → raises (.intt pd pa) .domainMismatch s) ∧
    (s.tag pa = .ntt →
      ∃ t, exec (.intt pd pa) s = .next t ∧
        loadsRegister pd .std (fun i => (nttInverse engineConfig (s.coeffs pa))[i].val) 0 s t)

/-- 44_pwmul.md R204, with R200 and R201 written out: PWMUL. -/
def Obligations.PwmulMultipliesPairs : Prop :=
  ∀ (pd pa pb : Reg) (s : State),
    formatR 5 pd.val pa.val pb.val (encode (.pwmul pd pa pb)) ∧
    (s.tag pa = .empty → raises (.pwmul pd pa pb) (.emptyOperand pa) s) ∧
    (s.tag pa ≠ .empty → s.tag pb = .empty → raises (.pwmul pd pa pb) (.emptyOperand pb) s) ∧
    (s.tag pa ≠ .empty → s.tag pb ≠ .empty → (s.tag pa = .std ∨ s.tag pb = .std) →
      raises (.pwmul pd pa pb) .domainMismatch s) ∧
    (s.tag pa = .ntt → s.tag pb = .ntt →
      ∃ t, exec (.pwmul pd pa pb) s = .next t ∧
        loadsRegister pd .ntt
          (fun k =>
            let a := fun n => (coeffAt (s.coeffs pa) n).val
            let b := fun n => (coeffAt (s.coeffs pb) n).val
            let i := k.val / 2
            let gamma :=
              if i % 2 = 0 then (zetaAt engineConfig (64 + i / 2)).val
              else 3329 - (zetaAt engineConfig (64 + i / 2)).val
            if k.val % 2 = 0 then (a (2 * i) * b (2 * i) + a (2 * i + 1) * b (2 * i + 1) * gamma) % 3329
            else (a (2 * i) * b (2 * i + 1) + a (2 * i + 1) * b (2 * i)) % 3329)
          0 s t)

/-- 41_packer.md R153: ENCODE. The bytes are given bit by bit (R150); those stored to are `addr .. addr + 32d - 1`. -/
def Obligations.EncodePacksCoefficients : Prop :=
  ∀ (ps : Reg) (d : Nat) (dom : Domain) (addr : Nat) (s : State), widthLegal d → s.bmem.wf →
    (addrFits addr → formatM 8 ps.val d dom.bit addr (encode (.encode ps d dom addr))) ∧
    (2048 < addr + 32 * d → raises (.encode ps d dom addr) .addressRange s) ∧
    (addr + 32 * d ≤ 2048 → s.tag ps = .empty → raises (.encode ps d dom addr) (.emptyOperand ps) s) ∧
    (addr + 32 * d ≤ 2048 → s.tag ps ≠ .empty → s.tag ps ≠ domainTag dom →
      raises (.encode ps d dom addr) .domainMismatch s) ∧
    (addr + 32 * d ≤ 2048 → s.tag ps = domainTag dom →
      (∀ i v, firstTooLarge (fun k => (s.coeffs ps)[k].val) d i v →
        raises (.encode ps d dom addr) (.coefficientOutOfRange i.val v) s) ∧
      ((∀ i : Fin 256, (s.coeffs ps)[i].val < boundOf d) →
        ∃ t, exec (.encode ps d dom addr) s = .next t ∧ storesObject addr d (fun i => (s.coeffs ps)[i].val) s t))

/-- 41_packer.md R154, with R151 written out: DECODE. -/
def Obligations.DecodeUnpacksCoefficients : Prop :=
  ∀ (pd : Reg) (d : Nat) (dom : Domain) (addr : Nat) (s : State), widthLegal d →
    (addrFits addr → formatM 9 pd.val d dom.bit addr (encode (.decode pd d dom addr))) ∧
    (2048 < addr + 32 * d → raises (.decode pd d dom addr) .addressRange s) ∧
    (addr + 32 * d ≤ 2048 →
      ∃ t, exec (.decode pd d dom addr) s = .next t ∧
        loadsRegister pd (domainTag dom) (fun i => packedValue s.bmem addr d i.val % boundOf d) 0 s t)

/-- 41_packer.md R155, with R122 written out: SERIALIZE. -/
def Obligations.SerializeCompressesAndPacks : Prop :=
  ∀ (ps : Reg) (d addr : Nat) (s : State), widthLegal d → s.bmem.wf →
    let value : Fin 256 → Nat := fun i => (2 * (s.coeffs ps)[i].val * 2 ^ d + 3329) / (2 * 3329) % 2 ^ d
    (addrFits addr → formatM 10 ps.val d 0 addr (encode (.serialize ps d addr))) ∧
    (2048 < addr + 32 * d → raises (.serialize ps d addr) .addressRange s) ∧
    (addr + 32 * d ≤ 2048 → s.tag ps = .empty → raises (.serialize ps d addr) (.emptyOperand ps) s) ∧
    (addr + 32 * d ≤ 2048 → s.tag ps = .ntt → raises (.serialize ps d addr) .domainMismatch s) ∧
    (addr + 32 * d ≤ 2048 → s.tag ps = .std →
      (∀ i v, firstTooLarge value d i v → raises (.serialize ps d addr) (.coefficientOutOfRange i.val v) s) ∧
      ((∀ i : Fin 256, value i < boundOf d) →
        ∃ t, exec (.serialize ps d addr) s = .next t ∧ storesObject addr d value s t))

/-- 41_packer.md R156, with R151 and R123 written out: DESERIALIZE. -/
def Obligations.DeserializeUnpacksAndDecompresses : Prop :=
  ∀ (pd : Reg) (d addr : Nat) (s : State), widthLegal d →
    (addrFits addr → formatM 11 pd.val d 0 addr (encode (.deserialize pd d addr))) ∧
    (2048 < addr + 32 * d → raises (.deserialize pd d addr) .addressRange s) ∧
    (addr + 32 * d ≤ 2048 →
      ∃ t, exec (.deserialize pd d addr) s = .next t ∧
        loadsRegister pd .std
          (fun i => (2 * (packedValue s.bmem addr d i.val % boundOf d) * 3329 + 2 ^ d) / 2 ^ (d + 1)) 0 s t)

/-- 42_cbd_sampler.md R171, with R170 written out: SAMPLECBD. -/
def Obligations.SamplecbdSubtractsBitCounts : Prop :=
  ∀ (pd : Reg) (n len addr : Nat) (s : State), binomialLegal n →
    (len < 512 → addrFits addr → formatB 12 pd.val n len addr (encode (.samplecbd pd n len addr))) ∧
    (len ≠ 64 * n → raises (.samplecbd pd n len addr) (.invalidLength len) s) ∧
    (len = 64 * n → 2048 < addr + 64 * n → raises (.samplecbd pd n len addr) .addressRange s) ∧
    (len = 64 * n → addr + 64 * n ≤ 2048 →
      ∃ t, exec (.samplecbd pd n len addr) s = .next t ∧
        loadsRegister pd .std
          (fun i =>
            (onesAt s.bmem addr (2 * i.val * n) n + 3329 - onesAt s.bmem addr (2 * i.val * n + n) n) % 3329) 0 s t)

/-- 45_uniform_sampler.md R211, with R210 written out: SAMPLEU loads the first 256 accepted candidates and reports the
bytes of the groups examined, or raises StreamExhausted with the number accepted. -/
def Obligations.SampleuTakesFirstAccepted : Prop :=
  ∀ (pd : Reg) (len addr : Nat) (s : State),
    (len < 4096 → addrFits addr → formatU 13 pd.val len addr (encode (.sampleu pd len addr))) ∧
    (2048 < addr + len → raises (.sampleu pd len addr) .addressRange s) ∧
    (addr + len ≤ 2048 → (accepted s.bmem addr (len / 3)).length < 256 →
      raises (.sampleu pd len addr) (.streamExhausted (accepted s.bmem addr (len / 3)).length) s) ∧
    (addr + len ≤ 2048 → ∀ g, g ≤ len / 3 → 256 ≤ (accepted s.bmem addr g).length →
      (∀ g', g' < g → (accepted s.bmem addr g').length < 256) →
        384 ≤ 3 * g ∧ 3 * g ≤ len ∧
          ∃ t, exec (.sampleu pd len addr) s = .next t ∧
            loadsRegister pd .ntt (fun i => (accepted s.bmem addr g).getD i.val 0) (BitVec.ofNat 32 (3 * g)) s t)

/-- 46_system.md R220: ZEROIZE clears every register, tag and byte, and nothing else but the status of a completed
command; OVR, IE and LASTCMD stay. -/
def Obligations.ZeroizeClearsAllData : Prop :=
  formatZ 31 (encode .zeroize) ∧
    ∀ s : State, ∃ t, exec .zeroize s = .next t ∧
      (∀ (r : Reg) (i : Fin 256), (t.coeffs r)[i].val = 0) ∧ (∀ r : Reg, t.tag r = .empty) ∧
      (∀ a, t.bmem.read a = 0) ∧ endsCompleted 0 s t

/-- 60_exceptions.md R279: every command from every state answers a next state, and either completes with the status of
R226 or faults with none of its writes. -/
def Obligations.CommandsAreAllOrNothing : Prop :=
  ∀ (i : Instr) (s : State),
    (∃ result t, exec i s = .next t ∧ endsCompleted result s t) ∨ ∃ f t, exec i s = .next t ∧ endsFaulted f s t

/-- 41_packer.md R153 and R155: ENCODE at d = 12 has no data fault; SERIALIZE has none for d in 1..11, and at d = 12
faults exactly when some coefficient is 2706 or more. -/
def Obligations.WhenPackersHaveDataFaults : Prop :=
  (∀ (ps : Reg) (dom : Domain) (addr : Nat) (s : State), addr + 384 ≤ 2048 → s.tag ps = domainTag dom →
    ∃ t, exec (.encode ps 12 dom addr) s = .next t ∧ endsCompleted 0 s t) ∧
  (∀ (ps : Reg) (d addr : Nat) (s : State), 1 ≤ d → d ≤ 11 → addr + 32 * d ≤ 2048 → s.tag ps = .std →
    ∃ t, exec (.serialize ps d addr) s = .next t ∧ endsCompleted 0 s t) ∧
  (∀ (ps : Reg) (addr : Nat) (s : State), addr + 384 ≤ 2048 → s.tag ps = .std →
    ((∃ i : Fin 256, 2706 ≤ (s.coeffs ps)[i].val) →
      ∃ i v, raises (.serialize ps 12 addr) (.coefficientOutOfRange i v) s) ∧
    ((∀ i : Fin 256, (s.coeffs ps)[i].val < 2706) →
      ∃ t, exec (.serialize ps 12 addr) s = .next t ∧ endsCompleted 0 s t))

/-- 10_state.md R38: the fields of ERRINFO, for the details a command can record. -/
def Obligations.ErrinfoFields : Prop :=
  (∀ i v, i < 256 → v < 4096 →
    field (CommandFault.coefficientOutOfRange i v).info 7 0 = i ∧
      field (CommandFault.coefficientOutOfRange i v).info 27 16 = v ∧
      field (CommandFault.coefficientOutOfRange i v).info 15 8 = 0 ∧
      field (CommandFault.coefficientOutOfRange i v).info 31 28 = 0) ∧
  (∀ n, n < 512 → field (CommandFault.invalidLength n).info 8 0 = n ∧
    field (CommandFault.invalidLength n).info 31 9 = 0) ∧
  (∀ n, n < 256 → field (CommandFault.streamExhausted n).info 8 0 = n ∧
    field (CommandFault.streamExhausted n).info 31 9 = 0) ∧
  (∀ r : Reg, field (CommandFault.emptyOperand r).info 2 0 = r.val ∧
    field (CommandFault.emptyOperand r).info 31 3 = 0) ∧
  CommandFault.illegalCommand.info = 0 ∧ CommandFault.addressRange.info = 0 ∧ CommandFault.domainMismatch.info = 0

/-! ### The scalar functions and the packer -/

/-- 40_ringmath_addsub.md R120: `Mod(x, m)` is the unique r with 0 <= r < m and x - r divisible by m. -/
def Obligations.ModIsTheUniqueResidue : Prop :=
  ∀ (x : Int) (m : Nat), 0 < m →
    mod x m < m ∧ (m : Int) ∣ x - mod x m ∧ ∀ r : Int, 0 ≤ r → r < m → (m : Int) ∣ x - r → r = mod x m

/-- 40_ringmath_addsub.md R122: Compress "rounds x·2^d/q to nearest integer ..., result reduced mod 2^d". -/
def Obligations.CompressRoundsToNearest : Prop :=
  ∀ x d : Nat, x < 3329 → widthLegal d →
    ∃ k : Nat, compress x d = k % 2 ^ d ∧ 2 * (k * 3329) ≤ 2 * (x * 2 ^ d) + 3329 ∧
      2 * (x * 2 ^ d) < 2 * (k * 3329) + 3329 ∧ 2 * (x * 2 ^ d) + 3329 ≠ 2 * (k * 3329)

/-- 40_ringmath_addsub.md R123: Decompress "rounds y·q/2^d to nearest integer (ties away from zero), result in
[0, q)". -/
def Obligations.DecompressRoundsToNearest : Prop :=
  ∀ y d : Nat, widthLegal d → y < 2 ^ d →
    decompress y d < 3329 ∧ 2 * (decompress y d * 2 ^ d) ≤ 2 * (y * 3329) + 2 ^ d ∧
      2 * (y * 3329) < 2 * (decompress y d * 2 ^ d) + 2 ^ d

/-- 40_ringmath_addsub.md section 1 (what Compress and Decompress undo of each other): Compress undoes Decompress exactly
for d in 1..11; the other order errs by at most the bounds listed there, d = 12 included. -/
def Obligations.CompressUndoesDecompress : Prop :=
  (∀ d y : Nat, 1 ≤ d → d ≤ 11 → y < 2 ^ d → compress (decompress y d) d = y) ∧
    compress (decompress 3 12) 12 ≠ 3 ∧
    ∀ d x : Nat, widthLegal d → x < 3329 →
      let y := decompress (compress x d) d
      let e := (y + 3329 - x) % 3329
      min e (3329 - e) ≤ [832, 416, 208, 104, 52, 26, 13, 7, 3, 2, 1, 0].getD (d - 1) 0

/-- 40_ringmath_addsub.md R126: BytesToBits and BitsToBytes are inverse to each other on byte-aligned lengths, and bit i
of the sequence is bit (i mod 8) of byte (i div 8). -/
def Obligations.BitsAndBytesAreInverse : Prop :=
  (∀ bytes : List Byte, bitsToBytes (bytesToBits bytes) = bytes) ∧
    (∀ b : List Bool, b.length % 8 = 0 → bytesToBits (bitsToBytes b) = b) ∧
    ∀ (bytes : List Byte) (i : Nat), i < 8 * bytes.length →
      (bytesToBits bytes).getD i false = (bytes.getD (i / 8) 0).getLsbD (i % 8)

/-- 41_packer.md section 1 (properties of the packer functions): decoding undoes encoding at every width; encoding undoes
decoding below d = 12, and at d = 12 exactly for canonical objects; an object has 32d bytes; Serialize undoes Deserialize
for d in 1..11. -/
def Obligations.PackerFunctionsAreInverse : Prop :=
  (∀ (d : Nat) (f : Values), widthLegal d → (∀ i : Fin 256, f[i] < boundOf d) → byteDecode (byteEncode f d) d = f) ∧
    (∀ (d : Nat) (bytes : List Byte), 1 ≤ d → d < 12 → bytes.length = 32 * d →
      byteEncode (byteDecode bytes d) d = bytes) ∧
    (∀ bytes : List Byte, bytes.length = 384 →
      (byteEncode (byteDecode bytes 12) 12 = bytes ↔
        ∀ i : Fin 256,
          (Finset.sum (Finset.range 12) fun j => 2 ^ j * bit ((bytesToBits bytes).getD (i.val * 12 + j) false)) <
            3329)) ∧
    (∀ (d : Nat) (bytes : List Byte), 1 ≤ d → d ≤ 11 → bytes.length = 32 * d →
      byteEncode (compressAll (coeffsOf (decompressAll (byteDecode bytes d) d)) d) d = bytes)

/-! ### The transforms and the multiplier -/

/-- 43_ntt.md section 2 (properties of ZETA): the table in use has the inverse pairing, the tower, and 128 · 3303 = 1. -/
def Obligations.ZetaTableHasItsProperties : Prop :=
  InversePairing engineConfig ∧ Tower engineConfig ∧ 128 * inv128 % 3329 = 1

/-- 43_ntt.md section 2 (round trip): for every table with the inverse pairing, the two transforms are inverse to each
other over all 256-coefficient sequences. -/
def Obligations.TransformsAreInverse : Prop :=
  ∀ c : Config, InversePairing c → (∀ f : Coeffs, nttInverse c (ntt c f) = f) ∧ ∀ g : Coeffs, ntt c (nttInverse c g) = g

/-- 43_ntt.md section 2 (closed form): for every table with the tower, pair i of the transform is the remainder of the
polynomial modulo X^2 - GAMMA[i]. -/
def Obligations.TransformIsEvaluation : Prop :=
  ∀ c : Config, Tower c → ∀ (f : Coeffs) (i : Nat), i < 128 →
    (coeffAt (ntt c f) (2 * i)).val =
        (Finset.sum (Finset.range 128) fun k => (coeffAt f (2 * k)).val * (gammaAt c i).val ^ k) % 3329 ∧
      (coeffAt (ntt c f) (2 * i + 1)).val =
        (Finset.sum (Finset.range 128) fun k => (coeffAt f (2 * k + 1)).val * (gammaAt c i).val ^ k) % 3329

/-- 44_pwmul.md section 2, law (a): the transform of a product in Z_q[X]/(X^256 + 1) is the pointwise product of the
transforms, for every table with the tower. -/
def Obligations.TransformOfProduct : Prop :=
  ∀ c : Config, Tower c → ∀ f g : Coeffs, ntt c (ringProduct f g) = multiply c (ntt c f) (ntt c g)

/-- 44_pwmul.md section 2, laws (b) and (c), and section 1: for every table the transform is additive; Multiply is
commutative, has the transform of the polynomial 1, which is 1, 0, 1, 0, ..., as neutral element, and distributes over
addition. -/
def Obligations.TransformAndProductLaws : Prop :=
  let one : Coeffs := Vector.ofFn fun k => if k.val = 0 then 1 else 0
  ∀ c : Config,
    (∀ f g : Coeffs, ntt c (addCoeffs f g) = addCoeffs (ntt c f) (ntt c g)) ∧
    (∀ a b : Coeffs, multiply c a b = multiply c b a) ∧
    ntt c one = Vector.ofFn (fun k => if k.val % 2 = 0 then 1 else 0) ∧
    (∀ a : Coeffs, multiply c a (ntt c one) = a) ∧
    ∀ a b b' : Coeffs, multiply c a (addCoeffs b b') = addCoeffs (multiply c a b) (multiply c a b')

/-! ### Host sequences -/

/-- 46_system.md R231: a list of command words run without a fault by the host's protocol ends in the same engine state
whether the host acts step by step (`runCommands`) or its actions stand in the schedule, where every word is one `CMD`
write, one engine turn and one read of `STATUS`; the last read returns the final `STATUS`, and that state is the end of the run.
The schedule and the left-out polls are the model's (log 1, log 11). -/
def Obligations.ScheduledCommandsRunInOrder : Prop :=
  ∀ (words : List Word) (s t : State), s.schedule = [] → s.busy = false → s.err = false →
    runCommands words s = .next t → t.err = false →
      ∃ t', Host.Core.run core (3 * words.length) { s with schedule := words.flatMap issue } = .next t' ∧
        sameEngine t t' ∧ t'.schedule = [] ∧
        endOfRun { s with schedule := words.flatMap issue } = .next t' ∧ (words ≠ [] → t'.readData = statusWord t)

/-- 46_system.md R231: the end of a run is the FIRST moment at which no host access is left and BUSY is 0, and the run
ended well when ERR and OVR are 0 at that moment, whatever comes later. That a reset still to come does not keep a run
from ending, and the bound on the steps, are the model's (log 20, log 1). -/
def Obligations.RunEndsAtFirstMoment : Prop :=
  let rests (u : State) : Prop := (∀ a : Access, Event.host a ∉ u.schedule) ∧ u.busy = false
  ∀ s : State, s.Inv →
    ∃ k t, k ≤ s.schedule.length + 1 ∧ Host.Core.run core k s = .next t ∧ rests t ∧
      (∀ j u, j < k → Host.Core.run core j s = .next u → ¬ rests u) ∧ endOfRun s = .next t ∧
      (runEndsWell s = true ↔ State.err t = false ∧ State.ovr t = false)

/-- 48_host_sequences.md R252: the commands of `dot` on registers in NTT form, run by the host's protocol, leave in `pd`
the sum of the pointwise products and in `pt` the last product, and change no other register and no byte. -/
def Obligations.DotSumsPointwiseProducts : Prop :=
  ∀ (pd pt : Reg) (first : Reg × Reg) (rest : List (Reg × Reg)) (s : State), s.busy = false → s.err = false →
    (∀ x ∈ first :: rest, s.tag x.1 = .ntt ∧ s.tag x.2 = .ntt) → pt ≠ pd →
    (∀ x ∈ rest, x.1 ≠ pd ∧ x.1 ≠ pt ∧ x.2 ≠ pd ∧ x.2 ≠ pt) →
      let product (x : Reg × Reg) : Coeffs := multiply engineConfig (s.coeffs x.1) (s.coeffs x.2)
      ∃ cmds t, dot pd pt ((first :: rest).map fun x => resident x.1) ((first :: rest).map fun x => x.2) = .ok cmds ∧
        cmds.length = 2 * rest.length + 1 ∧ runCommands (cmds.map encode) s = .next t ∧ t.done = true ∧ t.err = false ∧
        t.busy = false ∧ t.ovr = s.ovr ∧ t.result = 0 ∧ sameBytes s t ∧
        (∀ i : Fin 256, (t.coeffs pd)[i].val =
          ((first :: rest).map fun x => (product x)[i].val).sum % 3329) ∧ t.tag pd = .ntt ∧
        (∀ x ∈ rest.getLast?, t.coeffs pt = product x ∧ t.tag pt = .ntt) ∧
        (∀ r : Reg, r ≠ pd → (r ≠ pt ∨ rest = []) → t.coeffs r = s.coeffs r ∧ t.tag r = s.tag r)

/-- 48_host_sequences.md R251 to R253, R255, R256: how many commands a pseudo-instruction expands to, and that lists of
different lengths are refused before anything is issued. That the refusal has this form is the model's (log 10). -/
def Obligations.PseudoInstructionLengths : Prop :=
  (∀ d a b : List Reg,
    (d.length = a.length → a.length = b.length → ∃ cmds, vecadd d a b = .ok cmds ∧ cmds.length = d.length) ∧
      ((d.length ≠ a.length ∨ a.length ≠ b.length) → vecadd d a b = .error .dimensionMismatch)) ∧
  (∀ (pd pt : Reg) (a b : List Reg),
    (a ≠ [] → a.length = b.length →
      ∃ cmds, dot pd pt (a.map resident) b = .ok cmds ∧ cmds.length = 2 * a.length - 1) ∧
      (a.length ≠ b.length → dot pd pt (a.map resident) b = .error .dimensionMismatch)) ∧
  (∀ (pt : Reg) (d v : List Reg) (matrix : List (List Reg)),
    (d.length = matrix.length → d.length = v.length → (∀ row ∈ matrix, row.length = v.length) →
      ∃ cmds, matvec d pt (matrix.map fun row => row.map resident) v = .ok cmds ∧
        cmds.length = d.length * (2 * v.length - 1)) ∧
      ((d.length ≠ matrix.length ∨ d.length ≠ v.length ∨ ∃ row ∈ matrix, row.length ≠ v.length) →
        matvec d pt (matrix.map fun row => row.map resident) v = .error .dimensionMismatch)) ∧
  ∀ d a : List Reg,
    (d.length = a.length → ∃ cmds, vintt d a = .ok cmds ∧ cmds.length = d.length) ∧
      (d.length ≠ a.length → vintt d a = .error .dimensionMismatch)

/-- 48_host_sequences.md R254: `transpose` exchanges the two indices of a k×k arrangement, entry by entry. That any other
arrangement is refused is the model's choice (log 21). -/
def Obligations.TransposeExchangesIndices : Prop :=
  ∀ matrix : List (List Operand),
    ((∀ row ∈ matrix, row.length = matrix.length) →
      ∃ result, transpose matrix = .ok result ∧ result.length = matrix.length ∧
        (∀ row ∈ result, row.length = matrix.length) ∧
        ∀ i j, i < matrix.length → j < matrix.length →
          ∃ row row', matrix[i]? = some row ∧ result[j]? = some row' ∧ row'[i]? = row[j]? ∧ row[j]? ≠ none) ∧
      ((∃ row ∈ matrix, row.length ≠ matrix.length) → transpose matrix = .error .dimensionMismatch)

/-! ### Whole-machine rules -/

/-- 10_state.md section 6 (the invariants among the status fields), with R26, R29 and R37 and the canonical form of BMEM:
every step keeps the invariant. -/
def Obligations.StepKeepsInvariant : Prop := ∀ s t : State, s.Inv → step s = .next t → t.Inv

/-- The invariant holds right after reset (R42). -/
def Obligations.ResetMeetsInvariant : Prop := State.reset.Inv

/-- From a state that meets the invariant a step always answers a next state: the model stops nowhere. -/
def Obligations.StepAnswersNext : Prop := ∀ s : State, s.Inv → ∃ t, step s = .next t

/-- 10_state.md R35: which events set and clear BUSY, DONE, ERR, OVR and ECODE. -/
def Obligations.StatusBitsChangeOnlyAtTheirEvents : Prop :=
  ∀ s t : State, step s = .next t →
    (s.busy = false → t.busy = true → acceptNext s) ∧
    (s.busy = true → t.busy = false → engineTurn s ∨ nextIs .reset s) ∧
    (s.done = false → t.done = true → s.busy = true ∧ engineTurn s) ∧
    (s.done = true → t.done = false → acceptNext s ∨ clearNext s ∨ nextIs .reset s) ∧
    (s.err = false → t.err = true → s.busy = true ∧ engineTurn s) ∧
    (s.err = true → t.err = false → clearNext s ∨ nextIs .reset s) ∧
    (s.ovr = false → t.ovr = true → dropNext s) ∧
    (s.ovr = true → t.ovr = false → clearNext s ∨ nextIs .reset s) ∧
    (t.ecode ≠ s.ecode → (s.busy = true ∧ engineTurn s ∧ t.err = true) ∨ clearNext s ∨ nextIs .reset s)

/-- 10_state.md R40: LASTCMD is the most recent accepted word; it changes only at an accepted CMD write, together with
PENDING, and at reset. -/
def Obligations.LastCommandIsTheLastAccepted : Prop :=
  ∀ s t : State, step s = .next t →
    (∀ w : Word, acceptNext s → nextIs (.host (.write .word 0x00C w)) s → t.lastCmd = w ∧ t.pending = some w) ∧
    (nextIs .reset s → t.lastCmd = 0) ∧
    (¬ acceptNext s → ¬ nextIs .reset s → t.lastCmd = s.lastCmd)

/-- 10_state.md R22, R39: no host access changes a polynomial register or a tag; they change only at the engine step that
completes a command and at reset. -/
def Obligations.RegistersChangeOnlyAtCompletion : Prop :=
  ∀ s t : State, step s = .next t → (t.p ≠ s.p ∨ t.t ≠ s.t) →
    nextIs .reset s ∨ (s.busy = true ∧ engineTurn s ∧ t.done = true ∧ t.busy = false)

/-- 00_scope.md R15: what a command does to registers, tags and BMEM, its RESULT and its fault depend on nothing but the
command and the registers, tags and BMEM before it. -/
def Obligations.CommandDependsOnDataOnly : Prop :=
  ∀ (i : Instr) (s₁ s₂ : State), sameData s₁ s₂ →
    (∃ f t₁ t₂, exec i s₁ = .next t₁ ∧ exec i s₂ = .next t₂ ∧ endsFaulted f s₁ t₁ ∧ endsFaulted f s₂ t₂) ∨
    (∃ r t₁ t₂, exec i s₁ = .next t₁ ∧ exec i s₂ = .next t₂ ∧ endsCompleted r s₁ t₁ ∧ endsCompleted r s₂ t₂ ∧
      sameData t₁ t₂)

/-- 00_scope.md R15 and 70_reset_and_hazards.md R308 to R310: whatever accesses the host makes while a command is pending,
the engine's step then leaves the same registers, tags, BMEM, RESULT, ERRINFO and status (OVR and IE apart) as if the
host had made none. -/
def Obligations.PendingCommandIgnoresHostAccesses : Prop :=
  ∀ (s : State) (w : Word) (accesses : List Access) (rest : List Event), s.busy = true → s.pending = some w →
    ∃ t₁ t₂,
      Host.Core.run core 1 { s with schedule := .engine :: rest } = .next t₁ ∧
      Host.Core.run core (accesses.length + 1) { s with schedule := accesses.map .host ++ .engine :: rest } = .next t₂ ∧
      sameData t₁ t₂ ∧ t₂.result = t₁.result ∧ t₂.errInfo = t₁.errInfo ∧ t₂.ecode = t₁.ecode ∧ t₂.err = t₁.err ∧
      t₂.done = t₁.done ∧ t₂.busy = t₁.busy ∧ t₂.pending = t₁.pending ∧ t₂.lastCmd = t₁.lastCmd ∧
      t₂.schedule = t₁.schedule

/-- 70_reset_and_hazards.md R313: a pending command is eventually executed; in the model within as many steps as there
are events left, and one more. The bound is the model's (log 1). -/
def Obligations.PendingCommandFinishes : Prop :=
  ∀ s : State, s.Inv → s.busy = true →
    ∃ k t, k ≤ s.schedule.length + 1 ∧ Host.Core.run core k s = .next t ∧ t.busy = false
end

