-- ==== Sys2Proof/Laws/Bits.lean ====
section
/-! SUPPORT. Bits and bytes: the lengths of packed objects and which bit of which byte a bit of the sequence is
(40_ringmath_addsub.md R125, R126; 41_packer.md R150). -/

namespace Sys2Proof.Machine

theorem modQ_val (x : Int) : (modQ x).val = (x % 3329).toNat := by
  have h : (x % 3329).toNat < 3329 := by omega
  simp only [modQ, mod, q, Fin.val_ofNat]
  exact Nat.mod_eq_of_lt h

theorem modQ_natCast (n : Nat) : (modQ (n : Int)).val = n % 3329 := by rw [modQ_val]; omega

/-- `ModQ` changes no coefficient. -/
@[simp] theorem modQ_coeff (c : Coeff) : modQ ((c.val : Nat) : Int) = c :=
  Fin.ext (by rw [modQ_natCast]; exact Nat.mod_eq_of_lt c.isLt)

@[simp] theorem length_bitsToBytes (b : List Bool) : (bitsToBytes b).length = b.length / 8 := by simp [bitsToBytes]

@[simp] theorem length_bytesToBits (bytes : List Byte) : (bytesToBits bytes).length = 8 * bytes.length := by
  simp [bytesToBits]

theorem getD_bytesToBits (bytes : List Byte) {i : Nat} (h : i < 8 * bytes.length) :
    (bytesToBits bytes).getD i false = (bytes.getD (i / 8) 0).getLsbD (i % 8) := by
  simp [bytesToBits, List.getD_eq_getElem?_getD, h]

/-- Eight bits, least significant first, as a byte: bit k is the k-th of them. -/
theorem getLsbD_eightBits (b0 b1 b2 b3 b4 b5 b6 b7 : Bool) :
    ∀ k : Fin 8, (BitVec.ofNat 8 (bit b0 * 2 ^ 0 + (bit b1 * 2 ^ 1 + (bit b2 * 2 ^ 2 + (bit b3 * 2 ^ 3 +
        (bit b4 * 2 ^ 4 + (bit b5 * 2 ^ 5 + (bit b6 * 2 ^ 6 + bit b7 * 2 ^ 7)))))))).getLsbD k =
      [b0, b1, b2, b3, b4, b5, b6, b7].getD k false := by
  revert b0 b1 b2 b3 b4 b5 b6 b7
  decide +kernel

theorem getLsbD_byteOfBits (b : List Bool) (m : Nat) {k : Nat} (h : k < 8) :
    (byteOfBits b m).getLsbD k = b.getD (8 * m + k) false := by
  have expand : byteOfBits b m = BitVec.ofNat 8 (bit (b.getD (8 * m) false) * 2 ^ 0 +
      (bit (b.getD (8 * m + 1) false) * 2 ^ 1 + (bit (b.getD (8 * m + 2) false) * 2 ^ 2 +
      (bit (b.getD (8 * m + 3) false) * 2 ^ 3 + (bit (b.getD (8 * m + 4) false) * 2 ^ 4 +
      (bit (b.getD (8 * m + 5) false) * 2 ^ 5 + (bit (b.getD (8 * m + 6) false) * 2 ^ 6 +
      bit (b.getD (8 * m + 7) false) * 2 ^ 7))))))) := rfl
  rw [expand, getLsbD_eightBits _ _ _ _ _ _ _ _ ⟨k, h⟩]
  interval_cases k <;> rfl

/-- Bit `i` of the sequence is bit (i mod 8) of byte (i div 8) (R125). -/
theorem getLsbD_bitsToBytes (b : List Bool) {i : Nat} (h : i < 8 * (b.length / 8)) :
    ((bitsToBytes b).getD (i / 8) 0).getLsbD (i % 8) = b.getD i false := by
  have hi : i / 8 < b.length / 8 := by omega
  rw [bitsToBytes, List.getD_eq_getElem?_getD, List.getElem?_map, List.getElem?_range hi]
  simp only [Option.map_some, Option.getD_some]
  rw [getLsbD_byteOfBits b _ (by omega), Nat.div_add_mod]

theorem length_flatMap_const {α β : Type} (l : List α) (f : α → List β) (d : Nat) (h : ∀ a ∈ l, (f a).length = d) :
    (l.flatMap f).length = l.length * d := by
  induction l with
  | nil => simp
  | cons a l ih =>
    rw [List.flatMap_cons, List.length_append, h a (by simp), ih fun a ha => h a (by simp [ha]), List.length_cons]
    ring

theorem getElem?_flatMap_const {α β : Type} (l : List α) (f : α → List β) (d : Nat) (h : ∀ a ∈ l, (f a).length = d)
    {i j : Nat} (hj : j < d) : (l.flatMap f)[i * d + j]? = l[i]?.bind fun a => (f a)[j]? := by
  induction l generalizing i with
  | nil => simp
  | cons a l ih =>
    rw [List.flatMap_cons]
    cases i with
    | zero => rw [List.getElem?_append_left (by rw [h a (by simp)]; omega)]; simp
    | succ i =>
      have hlen : (f a).length = d := h a (by simp)
      rw [List.getElem?_append_right (by rw [hlen]; nlinarith), hlen,
        show (i + 1) * d + j - d = i * d + j by rw [Nat.add_mul]; omega,
        ih fun a ha => h a (by simp [ha])]
      simp

@[simp] theorem length_encodeBits (f : Values) (d : Nat) : (encodeBits f d).length = 256 * d := by
  rw [encodeBits, length_flatMap_const _ _ d (by simp)]
  simp

/-- Bit j of value i stands at place i·d + j (R150). -/
theorem getD_encodeBits (f : Values) (d : Nat) (i : Fin 256) {j : Nat} (hj : j < d) :
    (encodeBits f d).getD (i.val * d + j) false = f[i].testBit j := by
  rw [encodeBits, List.getD_eq_getElem?_getD, getElem?_flatMap_const _ _ d (by simp) hj]
  simp [hj]

/-- "produces exactly 32·d bytes" (R150). -/
@[simp] theorem length_byteEncode (f : Values) (d : Nat) : (byteEncode f d).length = objectBytes d := by
  simp only [byteEncode, length_bitsToBytes, length_encodeBits, objectBytes]
  omega

/-- Where bit j of value i stands in the packed bytes (R150). -/
theorem getLsbD_byteEncode (f : Values) (d : Nat) (i : Fin 256) {j : Nat} (hj : j < d) :
    ((byteEncode f d).getD ((i.val * d + j) / 8) 0).getLsbD ((i.val * d + j) % 8) = f[i].testBit j := by
  have hi : i.val * d + j < 256 * d := by
    have : (i.val + 1) * d ≤ 256 * d := Nat.mul_le_mul_right d (by omega)
    nlinarith
  rw [byteEncode, getLsbD_bitsToBytes _ (by rw [length_encodeBits]; omega), getD_encodeBits f d i hj]

end Sys2Proof.Machine
end

