-- ==== Sys2Proof/Laws/State.lean ====
section
/-! SUPPORT. One lemma for each field of State and each named update, so that no later proof unfolds a record update;
and what the registers and tags read after a register is written. -/

namespace Sys2Proof.Machine

/-! ### Writing a register and its tag -/

@[simp] theorem setReg_p (s : State) (r : Reg) (v : Coeffs) (tag : Tag) : (s.setReg r v tag).p = s.p.set r v := rfl
@[simp] theorem setReg_t (s : State) (r : Reg) (v : Coeffs) (tag : Tag) : (s.setReg r v tag).t = s.t.set r tag := rfl
@[simp] theorem setReg_bmem (s : State) (r : Reg) (v : Coeffs) (tag : Tag) : (s.setReg r v tag).bmem = s.bmem := rfl
@[simp] theorem setReg_ie (s : State) (r : Reg) (v : Coeffs) (tag : Tag) : (s.setReg r v tag).ie = s.ie := rfl
@[simp] theorem setReg_busy (s : State) (r : Reg) (v : Coeffs) (tag : Tag) : (s.setReg r v tag).busy = s.busy := rfl
@[simp] theorem setReg_done (s : State) (r : Reg) (v : Coeffs) (tag : Tag) : (s.setReg r v tag).done = s.done := rfl
@[simp] theorem setReg_err (s : State) (r : Reg) (v : Coeffs) (tag : Tag) : (s.setReg r v tag).err = s.err := rfl
@[simp] theorem setReg_ovr (s : State) (r : Reg) (v : Coeffs) (tag : Tag) : (s.setReg r v tag).ovr = s.ovr := rfl
@[simp] theorem setReg_ecode (s : State) (r : Reg) (v : Coeffs) (tag : Tag) : (s.setReg r v tag).ecode = s.ecode := rfl
@[simp] theorem setReg_result (s : State) (r : Reg) (v : Coeffs) (tag : Tag) : (s.setReg r v tag).result = s.result := rfl
@[simp] theorem setReg_errInfo (s : State) (r : Reg) (v : Coeffs) (tag : Tag) : (s.setReg r v tag).errInfo = s.errInfo := rfl
@[simp] theorem setReg_lastCmd (s : State) (r : Reg) (v : Coeffs) (tag : Tag) : (s.setReg r v tag).lastCmd = s.lastCmd := rfl
@[simp] theorem setReg_pending (s : State) (r : Reg) (v : Coeffs) (tag : Tag) : (s.setReg r v tag).pending = s.pending := rfl
@[simp] theorem setReg_schedule (s : State) (r : Reg) (v : Coeffs) (tag : Tag) : (s.setReg r v tag).schedule = s.schedule := rfl
@[simp] theorem setReg_readData (s : State) (r : Reg) (v : Coeffs) (tag : Tag) : (s.setReg r v tag).readData = s.readData := rfl
@[simp] theorem setReg_freeCount (s : State) (r : Reg) (v : Coeffs) (tag : Tag) : (s.setReg r v tag).freeCount = s.freeCount := rfl

/-! ### Storing bytes -/

@[simp] theorem storeBytes_p (s : State) (a : Nat) (v : List Byte) : (s.storeBytes a v).p = s.p := rfl
@[simp] theorem storeBytes_t (s : State) (a : Nat) (v : List Byte) : (s.storeBytes a v).t = s.t := rfl
@[simp] theorem storeBytes_bmem (s : State) (a : Nat) (v : List Byte) : (s.storeBytes a v).bmem = s.bmem.writeBytes a v := rfl
@[simp] theorem storeBytes_ie (s : State) (a : Nat) (v : List Byte) : (s.storeBytes a v).ie = s.ie := rfl
@[simp] theorem storeBytes_busy (s : State) (a : Nat) (v : List Byte) : (s.storeBytes a v).busy = s.busy := rfl
@[simp] theorem storeBytes_done (s : State) (a : Nat) (v : List Byte) : (s.storeBytes a v).done = s.done := rfl
@[simp] theorem storeBytes_err (s : State) (a : Nat) (v : List Byte) : (s.storeBytes a v).err = s.err := rfl
@[simp] theorem storeBytes_ovr (s : State) (a : Nat) (v : List Byte) : (s.storeBytes a v).ovr = s.ovr := rfl
@[simp] theorem storeBytes_ecode (s : State) (a : Nat) (v : List Byte) : (s.storeBytes a v).ecode = s.ecode := rfl
@[simp] theorem storeBytes_result (s : State) (a : Nat) (v : List Byte) : (s.storeBytes a v).result = s.result := rfl
@[simp] theorem storeBytes_errInfo (s : State) (a : Nat) (v : List Byte) : (s.storeBytes a v).errInfo = s.errInfo := rfl
@[simp] theorem storeBytes_lastCmd (s : State) (a : Nat) (v : List Byte) : (s.storeBytes a v).lastCmd = s.lastCmd := rfl
@[simp] theorem storeBytes_pending (s : State) (a : Nat) (v : List Byte) : (s.storeBytes a v).pending = s.pending := rfl
@[simp] theorem storeBytes_schedule (s : State) (a : Nat) (v : List Byte) : (s.storeBytes a v).schedule = s.schedule := rfl
@[simp] theorem storeBytes_readData (s : State) (a : Nat) (v : List Byte) : (s.storeBytes a v).readData = s.readData := rfl
@[simp] theorem storeBytes_freeCount (s : State) (a : Nat) (v : List Byte) : (s.storeBytes a v).freeCount = s.freeCount := rfl

/-! ### Clearing the data -/

@[simp] theorem clearData_p (s : State) : (s.clearData).p = Vector.replicate 8 (Vector.replicate 256 0) := rfl
@[simp] theorem clearData_t (s : State) : (s.clearData).t = Vector.replicate 8 .empty := rfl
@[simp] theorem clearData_bmem (s : State) : (s.clearData).bmem = [] := rfl
@[simp] theorem clearData_ie (s : State) : (s.clearData).ie = s.ie := rfl
@[simp] theorem clearData_busy (s : State) : (s.clearData).busy = s.busy := rfl
@[simp] theorem clearData_done (s : State) : (s.clearData).done = s.done := rfl
@[simp] theorem clearData_err (s : State) : (s.clearData).err = s.err := rfl
@[simp] theorem clearData_ovr (s : State) : (s.clearData).ovr = s.ovr := rfl
@[simp] theorem clearData_ecode (s : State) : (s.clearData).ecode = s.ecode := rfl
@[simp] theorem clearData_result (s : State) : (s.clearData).result = s.result := rfl
@[simp] theorem clearData_errInfo (s : State) : (s.clearData).errInfo = s.errInfo := rfl
@[simp] theorem clearData_lastCmd (s : State) : (s.clearData).lastCmd = s.lastCmd := rfl
@[simp] theorem clearData_pending (s : State) : (s.clearData).pending = s.pending := rfl
@[simp] theorem clearData_schedule (s : State) : (s.clearData).schedule = s.schedule := rfl
@[simp] theorem clearData_readData (s : State) : (s.clearData).readData = s.readData := rfl
@[simp] theorem clearData_freeCount (s : State) : (s.clearData).freeCount = s.freeCount := rfl

/-! ### The end of a command that completes -/

@[simp] theorem completed_p (s : State) (r : Word) : (completed r s).p = s.p := rfl
@[simp] theorem completed_t (s : State) (r : Word) : (completed r s).t = s.t := rfl
@[simp] theorem completed_bmem (s : State) (r : Word) : (completed r s).bmem = s.bmem := rfl
@[simp] theorem completed_ie (s : State) (r : Word) : (completed r s).ie = s.ie := rfl
@[simp] theorem completed_busy (s : State) (r : Word) : (completed r s).busy = false := rfl
@[simp] theorem completed_done (s : State) (r : Word) : (completed r s).done = true := rfl
@[simp] theorem completed_err (s : State) (r : Word) : (completed r s).err = s.err := rfl
@[simp] theorem completed_ovr (s : State) (r : Word) : (completed r s).ovr = s.ovr := rfl
@[simp] theorem completed_ecode (s : State) (r : Word) : (completed r s).ecode = s.ecode := rfl
@[simp] theorem completed_result (s : State) (r : Word) : (completed r s).result = r := rfl
@[simp] theorem completed_errInfo (s : State) (r : Word) : (completed r s).errInfo = s.errInfo := rfl
@[simp] theorem completed_lastCmd (s : State) (r : Word) : (completed r s).lastCmd = s.lastCmd := rfl
@[simp] theorem completed_pending (s : State) (r : Word) : (completed r s).pending = none := rfl
@[simp] theorem completed_schedule (s : State) (r : Word) : (completed r s).schedule = s.schedule := rfl
@[simp] theorem completed_readData (s : State) (r : Word) : (completed r s).readData = s.readData := rfl
@[simp] theorem completed_freeCount (s : State) (r : Word) : (completed r s).freeCount = s.freeCount := rfl

/-! ### Fault entry -/

@[simp] theorem takeFault_p (s : State) (f : CommandFault) : (takeFault f s).p = s.p := rfl
@[simp] theorem takeFault_t (s : State) (f : CommandFault) : (takeFault f s).t = s.t := rfl
@[simp] theorem takeFault_bmem (s : State) (f : CommandFault) : (takeFault f s).bmem = s.bmem := rfl
@[simp] theorem takeFault_ie (s : State) (f : CommandFault) : (takeFault f s).ie = s.ie := rfl
@[simp] theorem takeFault_busy (s : State) (f : CommandFault) : (takeFault f s).busy = false := rfl
@[simp] theorem takeFault_done (s : State) (f : CommandFault) : (takeFault f s).done = s.done := rfl
@[simp] theorem takeFault_err (s : State) (f : CommandFault) : (takeFault f s).err = true := rfl
@[simp] theorem takeFault_ovr (s : State) (f : CommandFault) : (takeFault f s).ovr = s.ovr := rfl
@[simp] theorem takeFault_ecode (s : State) (f : CommandFault) : (takeFault f s).ecode = f.code := rfl
@[simp] theorem takeFault_result (s : State) (f : CommandFault) : (takeFault f s).result = 0 := rfl
@[simp] theorem takeFault_errInfo (s : State) (f : CommandFault) : (takeFault f s).errInfo = f.info := rfl
@[simp] theorem takeFault_lastCmd (s : State) (f : CommandFault) : (takeFault f s).lastCmd = s.lastCmd := rfl
@[simp] theorem takeFault_pending (s : State) (f : CommandFault) : (takeFault f s).pending = none := rfl
@[simp] theorem takeFault_schedule (s : State) (f : CommandFault) : (takeFault f s).schedule = s.schedule := rfl
@[simp] theorem takeFault_readData (s : State) (f : CommandFault) : (takeFault f s).readData = s.readData := rfl
@[simp] theorem takeFault_freeCount (s : State) (f : CommandFault) : (takeFault f s).freeCount = s.freeCount := rfl

/-! ### The CLR action -/

@[simp] theorem clearStatus_p (s : State) : (clearStatus s).p = s.p := rfl
@[simp] theorem clearStatus_t (s : State) : (clearStatus s).t = s.t := rfl
@[simp] theorem clearStatus_bmem (s : State) : (clearStatus s).bmem = s.bmem := rfl
@[simp] theorem clearStatus_ie (s : State) : (clearStatus s).ie = s.ie := rfl
@[simp] theorem clearStatus_busy (s : State) : (clearStatus s).busy = s.busy := rfl
@[simp] theorem clearStatus_done (s : State) : (clearStatus s).done = false := rfl
@[simp] theorem clearStatus_err (s : State) : (clearStatus s).err = false := rfl
@[simp] theorem clearStatus_ovr (s : State) : (clearStatus s).ovr = false := rfl
@[simp] theorem clearStatus_ecode (s : State) : (clearStatus s).ecode = 0 := rfl
@[simp] theorem clearStatus_result (s : State) : (clearStatus s).result = s.result := rfl
@[simp] theorem clearStatus_errInfo (s : State) : (clearStatus s).errInfo = 0 := rfl
@[simp] theorem clearStatus_lastCmd (s : State) : (clearStatus s).lastCmd = s.lastCmd := rfl
@[simp] theorem clearStatus_pending (s : State) : (clearStatus s).pending = s.pending := rfl
@[simp] theorem clearStatus_schedule (s : State) : (clearStatus s).schedule = s.schedule := rfl
@[simp] theorem clearStatus_readData (s : State) : (clearStatus s).readData = s.readData := rfl
@[simp] theorem clearStatus_freeCount (s : State) : (clearStatus s).freeCount = s.freeCount := rfl

/-! ### The reset event -/

@[simp] theorem resetEngine_p (s : State) : (resetEngine s).p = State.reset.p := rfl
@[simp] theorem resetEngine_t (s : State) : (resetEngine s).t = State.reset.t := rfl
@[simp] theorem resetEngine_bmem (s : State) : (resetEngine s).bmem = State.reset.bmem := rfl
@[simp] theorem resetEngine_ie (s : State) : (resetEngine s).ie = State.reset.ie := rfl
@[simp] theorem resetEngine_busy (s : State) : (resetEngine s).busy = State.reset.busy := rfl
@[simp] theorem resetEngine_done (s : State) : (resetEngine s).done = State.reset.done := rfl
@[simp] theorem resetEngine_err (s : State) : (resetEngine s).err = State.reset.err := rfl
@[simp] theorem resetEngine_ovr (s : State) : (resetEngine s).ovr = State.reset.ovr := rfl
@[simp] theorem resetEngine_ecode (s : State) : (resetEngine s).ecode = State.reset.ecode := rfl
@[simp] theorem resetEngine_result (s : State) : (resetEngine s).result = State.reset.result := rfl
@[simp] theorem resetEngine_errInfo (s : State) : (resetEngine s).errInfo = State.reset.errInfo := rfl
@[simp] theorem resetEngine_lastCmd (s : State) : (resetEngine s).lastCmd = State.reset.lastCmd := rfl
@[simp] theorem resetEngine_pending (s : State) : (resetEngine s).pending = State.reset.pending := rfl
@[simp] theorem resetEngine_schedule (s : State) : (resetEngine s).schedule = s.schedule := rfl
@[simp] theorem resetEngine_readData (s : State) : (resetEngine s).readData = s.readData := rfl
@[simp] theorem resetEngine_freeCount (s : State) : (resetEngine s).freeCount = s.freeCount := rfl

/-! ### Accepting a command word -/

@[simp] theorem acceptCommand_p (s : State) (w : Word) : (acceptCommand w s).p = s.p := rfl
@[simp] theorem acceptCommand_t (s : State) (w : Word) : (acceptCommand w s).t = s.t := rfl
@[simp] theorem acceptCommand_bmem (s : State) (w : Word) : (acceptCommand w s).bmem = s.bmem := rfl
@[simp] theorem acceptCommand_ie (s : State) (w : Word) : (acceptCommand w s).ie = s.ie := rfl
@[simp] theorem acceptCommand_busy (s : State) (w : Word) : (acceptCommand w s).busy = true := rfl
@[simp] theorem acceptCommand_done (s : State) (w : Word) : (acceptCommand w s).done = false := rfl
@[simp] theorem acceptCommand_err (s : State) (w : Word) : (acceptCommand w s).err = s.err := rfl
@[simp] theorem acceptCommand_ovr (s : State) (w : Word) : (acceptCommand w s).ovr = s.ovr := rfl
@[simp] theorem acceptCommand_ecode (s : State) (w : Word) : (acceptCommand w s).ecode = s.ecode := rfl
@[simp] theorem acceptCommand_result (s : State) (w : Word) : (acceptCommand w s).result = s.result := rfl
@[simp] theorem acceptCommand_errInfo (s : State) (w : Word) : (acceptCommand w s).errInfo = s.errInfo := rfl
@[simp] theorem acceptCommand_lastCmd (s : State) (w : Word) : (acceptCommand w s).lastCmd = w := rfl
@[simp] theorem acceptCommand_pending (s : State) (w : Word) : (acceptCommand w s).pending = some w := rfl
@[simp] theorem acceptCommand_schedule (s : State) (w : Word) : (acceptCommand w s).schedule = s.schedule := rfl
@[simp] theorem acceptCommand_readData (s : State) (w : Word) : (acceptCommand w s).readData = s.readData := rfl
@[simp] theorem acceptCommand_freeCount (s : State) (w : Word) : (acceptCommand w s).freeCount = s.freeCount := rfl

/-! ### A host read -/

@[simp] theorem hostRead_p (s : State) (size : AccessSize) (off : Nat) : (hostRead size off s).p = s.p := rfl
@[simp] theorem hostRead_t (s : State) (size : AccessSize) (off : Nat) : (hostRead size off s).t = s.t := rfl
@[simp] theorem hostRead_bmem (s : State) (size : AccessSize) (off : Nat) : (hostRead size off s).bmem = s.bmem := rfl
@[simp] theorem hostRead_ie (s : State) (size : AccessSize) (off : Nat) : (hostRead size off s).ie = s.ie := rfl
@[simp] theorem hostRead_busy (s : State) (size : AccessSize) (off : Nat) : (hostRead size off s).busy = s.busy := rfl
@[simp] theorem hostRead_done (s : State) (size : AccessSize) (off : Nat) : (hostRead size off s).done = s.done := rfl
@[simp] theorem hostRead_err (s : State) (size : AccessSize) (off : Nat) : (hostRead size off s).err = s.err := rfl
@[simp] theorem hostRead_ovr (s : State) (size : AccessSize) (off : Nat) : (hostRead size off s).ovr = s.ovr := rfl
@[simp] theorem hostRead_ecode (s : State) (size : AccessSize) (off : Nat) : (hostRead size off s).ecode = s.ecode := rfl
@[simp] theorem hostRead_result (s : State) (size : AccessSize) (off : Nat) : (hostRead size off s).result = s.result := rfl
@[simp] theorem hostRead_errInfo (s : State) (size : AccessSize) (off : Nat) : (hostRead size off s).errInfo = s.errInfo := rfl
@[simp] theorem hostRead_lastCmd (s : State) (size : AccessSize) (off : Nat) : (hostRead size off s).lastCmd = s.lastCmd := rfl
@[simp] theorem hostRead_pending (s : State) (size : AccessSize) (off : Nat) : (hostRead size off s).pending = s.pending := rfl
@[simp] theorem hostRead_schedule (s : State) (size : AccessSize) (off : Nat) : (hostRead size off s).schedule = s.schedule := rfl
@[simp] theorem hostRead_readData (s : State) (size : AccessSize) (off : Nat) : (hostRead size off s).readData = readValue s size off := rfl
@[simp] theorem hostRead_freeCount (s : State) (size : AccessSize) (off : Nat) : (hostRead size off s).freeCount = if usesFreeValue s size off then s.freeCount + 1 else s.freeCount := rfl

/-! ### Registers and tags after an update -/

theorem coeffs_setReg (s : State) (r r' : Reg) (v : Coeffs) (tag : Tag) :
    (s.setReg r v tag).coeffs r' = if r = r' then v else s.coeffs r' := by
  simp only [State.coeffs, setReg_p, Fin.getElem_fin, Vector.getElem_set, Fin.val_inj]

theorem tag_setReg (s : State) (r r' : Reg) (v : Coeffs) (tag : Tag) :
    (s.setReg r v tag).tag r' = if r = r' then tag else s.tag r' := by
  simp only [State.tag, setReg_t, Fin.getElem_fin, Vector.getElem_set, Fin.val_inj]

@[simp] theorem coeffs_setReg_same (s : State) (r : Reg) (v : Coeffs) (tag : Tag) :
    (s.setReg r v tag).coeffs r = v := by simp [coeffs_setReg]

@[simp] theorem tag_setReg_same (s : State) (r : Reg) (v : Coeffs) (tag : Tag) :
    (s.setReg r v tag).tag r = tag := by simp [tag_setReg]

@[simp] theorem coeffs_clearData (s : State) (r : Reg) : s.clearData.coeffs r = Vector.replicate 256 0 := by
  simp [State.coeffs]

@[simp] theorem tag_clearData (s : State) (r : Reg) : s.clearData.tag r = .empty := by
  simp [State.tag]

@[simp] theorem coeffs_storeBytes (s : State) (a : Nat) (v : List Byte) (r : Reg) :
    (s.storeBytes a v).coeffs r = s.coeffs r := rfl

@[simp] theorem tag_storeBytes (s : State) (a : Nat) (v : List Byte) (r : Reg) :
    (s.storeBytes a v).tag r = s.tag r := rfl

@[simp] theorem coeffs_completed (s : State) (w : Word) (r : Reg) : (completed w s).coeffs r = s.coeffs r := rfl

@[simp] theorem tag_completed (s : State) (w : Word) (r : Reg) : (completed w s).tag r = s.tag r := rfl

@[simp] theorem coeffs_takeFault (s : State) (f : CommandFault) (r : Reg) : (takeFault f s).coeffs r = s.coeffs r := rfl

@[simp] theorem tag_takeFault (s : State) (f : CommandFault) (r : Reg) : (takeFault f s).tag r = s.tag r := rfl

end Sys2Proof.Machine
end

