-- ==== Sys2Proof/Laws/Meanings.lean ====
section
/-! SUPPORT. Everything a command can do, said once: it ends in fault entry, or it completes having written one register,
or one byte range of BMEM, or cleared all data (46_system.md R226, 60_exceptions.md R279). -/

namespace Sys2Proof.Machine

/-- What a command that completes may have written. -/
inductive DataWrite (s : State) : State → Prop where
  | register (pd : Reg) (v : Coeffs) (tag : Tag) (loaded : tag ≠ .empty) : DataWrite s (s.setReg pd v tag)
  | bytes (addr : Nat) (v : List Byte) (fits : addr + v.length ≤ 2048) : DataWrite s (s.storeBytes addr v)
  | cleared : DataWrite s s.clearData

/-- A command ends in fault entry from the state before it, or completes. -/
def Ends (s : State) (o : Host.Outcome State Fault Refusal) : Prop :=
  (∃ f, o = .next (takeFault f s)) ∨ ∃ result s', DataWrite s s' ∧ o = .next (completed result s')

theorem ends_raise (f : CommandFault) (s : State) : Ends s (raise f s) := .inl ⟨f, rfl⟩

theorem ends_complete {s s' : State} (result : Word) (h : DataWrite s s') : Ends s (complete result s') :=
  .inr ⟨result, s', h, rfl⟩

theorem ends_execPadd (pd pa pb : Reg) (s : State) : Ends s (execPadd pd pa pb s) := by
  unfold execPadd
  split_ifs with h1 h2 h3
  · exact ends_raise _ s
  · exact ends_raise _ s
  · exact ends_raise _ s
  · exact ends_complete _ (.register _ _ _ h1)

theorem ends_execPsub (pd pa pb : Reg) (s : State) : Ends s (execPsub pd pa pb s) := by
  unfold execPsub
  split_ifs
  · exact ends_raise _ s
  · exact ends_raise _ s
  · exact ends_raise _ s
  · exact ends_complete _ (.register _ _ _ (by decide))

theorem ends_execNtt (pd pa : Reg) (s : State) : Ends s (execNtt pd pa s) := by
  unfold execNtt
  split_ifs
  · exact ends_raise _ s
  · exact ends_raise _ s
  · exact ends_complete _ (.register _ _ _ (by decide))

theorem ends_execIntt (pd pa : Reg) (s : State) : Ends s (execIntt pd pa s) := by
  unfold execIntt
  split_ifs
  · exact ends_raise _ s
  · exact ends_raise _ s
  · exact ends_complete _ (.register _ _ _ (by decide))

theorem ends_execPwmul (pd pa pb : Reg) (s : State) : Ends s (execPwmul pd pa pb s) := by
  unfold execPwmul
  split_ifs
  · exact ends_raise _ s
  · exact ends_raise _ s
  · exact ends_raise _ s
  · exact ends_complete _ (.register _ _ _ (by decide))

theorem fits_byteEncode {addr d : Nat} (f : Values) (h : inBuffer addr (objectBytes d)) :
    addr + (byteEncode f d).length ≤ 2048 := by
  rw [length_byteEncode]; exact h

theorem ends_execEncode (ps : Reg) (d : Nat) (dom : Domain) (addr : Nat) (s : State) :
    Ends s (execEncode ps d dom addr s) := by
  unfold execEncode
  split_ifs with h1
  · exact ends_raise _ s
  · exact ends_raise _ s
  · split
    · exact ends_raise _ s
    · exact ends_complete _ (.bytes _ _ (fits_byteEncode _ h1))
  · exact ends_raise _ s

theorem ends_execDecode (pd : Reg) (d : Nat) (dom : Domain) (addr : Nat) (s : State) :
    Ends s (execDecode pd d dom addr s) := by
  unfold execDecode
  split_ifs
  · exact ends_complete _ (.register _ _ _ (by cases dom <;> decide))
  · exact ends_raise _ s

theorem ends_execSerialize (ps : Reg) (d addr : Nat) (s : State) : Ends s (execSerialize ps d addr s) := by
  unfold execSerialize
  split_ifs with h1
  · exact ends_raise _ s
  · exact ends_raise _ s
  · split
    · exact ends_raise _ s
    · exact ends_complete _ (.bytes _ _ (fits_byteEncode _ h1))
  · exact ends_raise _ s

theorem ends_execDeserialize (pd : Reg) (d addr : Nat) (s : State) : Ends s (execDeserialize pd d addr s) := by
  unfold execDeserialize
  split_ifs
  · exact ends_complete _ (.register _ _ _ (by decide))
  · exact ends_raise _ s

theorem ends_execSamplecbd (pd : Reg) (n len addr : Nat) (s : State) : Ends s (execSamplecbd pd n len addr s) := by
  unfold execSamplecbd
  split_ifs
  · exact ends_raise _ s
  · exact ends_complete _ (.register _ _ _ (by decide))
  · exact ends_raise _ s

theorem ends_execSampleu (pd : Reg) (len addr : Nat) (s : State) : Ends s (execSampleu pd len addr s) := by
  unfold execSampleu
  split_ifs
  · split
    · exact ends_complete _ (.register _ _ _ (by decide))
    · exact ends_raise _ s
  · exact ends_raise _ s

theorem ends_execZeroize (s : State) : Ends s (execZeroize s) := ends_complete _ .cleared

/-- Every command, from every state, ends one of these ways: `Execute` is total (R226). -/
theorem exec_ends (i : Instr) (s : State) : Ends s (exec i s) := by
  cases i with
  | padd pd pa pb => exact ends_execPadd pd pa pb s
  | psub pd pa pb => exact ends_execPsub pd pa pb s
  | ntt pd pa => exact ends_execNtt pd pa s
  | intt pd pa => exact ends_execIntt pd pa s
  | pwmul pd pa pb => exact ends_execPwmul pd pa pb s
  | encode ps d dom addr => exact ends_execEncode ps d dom addr s
  | decode pd d dom addr => exact ends_execDecode pd d dom addr s
  | serialize ps d addr => exact ends_execSerialize ps d addr s
  | deserialize pd d addr => exact ends_execDeserialize pd d addr s
  | samplecbd pd n len addr => exact ends_execSamplecbd pd n len addr s
  | sampleu pd len addr => exact ends_execSampleu pd len addr s
  | zeroize => exact ends_execZeroize s

end Sys2Proof.Machine
end

