-- ==== Sys2Proof/Laws/Memory.lean ====
section
/-! SUPPORT. The laws of BMEM: reading after writing, the canonical form kept by every memory operation, and equal reads
give equal memories. -/

namespace Sys2Proof.Machine

namespace Memory

@[simp] theorem read_nil (a : Nat) : Memory.read [] a = 0 := rfl

theorem wf_nil : Memory.wf [] := by simp [Memory.wf]

theorem wf_cons {c : Host.Cell} {m : Memory} :
    Memory.wf (c :: m) ↔ (∀ d ∈ m, c.1 < d.1) ∧ (c.1 < 2048 ∧ c.2 ≠ 0) ∧ m.wf := by
  simp only [Memory.wf, List.pairwise_cons, List.forall_mem_cons]
  tauto

/-- An address below every listed one reads 0. -/
theorem read_of_below {m : Memory} {a : Nat} (h : ∀ c ∈ m, a < c.1) : m.read a = 0 := by
  induction m with
  | nil => rfl
  | cons c m ih =>
    obtain ⟨k, b⟩ := c
    have hk : a < k := h (k, b) (by simp)
    rw [Memory.read, if_neg (by omega), ih (fun d hd => h d (by simp [hd]))]

theorem mem_write {m : Memory} {a : Nat} {v : Byte} {c : Host.Cell} (h : c ∈ m.write a v) :
    c ∈ m ∨ c = (a, v) ∧ v ≠ 0 := by
  induction m with
  | nil =>
    simp only [Memory.write, unlistedByte] at h
    split at h <;> simp_all
  | cons d m ih =>
    obtain ⟨k, b⟩ := d
    simp only [Memory.write, unlistedByte] at h
    split_ifs at h with h1 h2 h3 h4
    · exact .inl h
    · rcases List.mem_cons.1 h with h | h
      · exact .inr ⟨h, h2⟩
      · exact .inl h
    · exact .inl (List.mem_cons_of_mem _ h)
    · rcases List.mem_cons.1 h with h | h
      · exact .inr ⟨h, h4⟩
      · exact .inl (List.mem_cons_of_mem _ h)
    · rcases List.mem_cons.1 h with h | h
      · exact .inl (by simp [h])
      · exact (ih h).imp (List.mem_cons_of_mem _) id

/-- A write below 2048 keeps the canonical form. -/
theorem wf_write {m : Memory} (h : m.wf) {a : Nat} (ha : a < 2048) (v : Byte) : (m.write a v).wf := by
  induction m with
  | nil =>
    simp only [Memory.write, unlistedByte]
    split_ifs with hv
    · exact wf_nil
    · exact wf_cons.2 ⟨by simp, ⟨ha, hv⟩, wf_nil⟩
  | cons c m ih =>
    obtain ⟨k, b⟩ := c
    obtain ⟨h1, h2, h3⟩ := wf_cons.1 h
    simp only [Memory.write, unlistedByte]
    split_ifs with hlt hv heq hv
    · exact h
    · refine wf_cons.2 ⟨?_, ⟨ha, hv⟩, h⟩
      rintro d hd
      rcases List.mem_cons.1 hd with rfl | hd
      · exact hlt
      · exact lt_trans hlt (h1 d hd)
    · exact h3
    · exact wf_cons.2 ⟨by rw [heq]; exact h1, ⟨ha, hv⟩, h3⟩
    · refine wf_cons.2 ⟨?_, h2, ih h3⟩
      intro d hd
      rcases mem_write hd with hd | ⟨rfl, -⟩
      · exact h1 d hd
      · change k < a
        omega

/-- Reading after writing, in a memory of canonical form. -/
theorem read_write {m : Memory} (h : m.wf) (a : Nat) (v : Byte) (x : Nat) :
    (m.write a v).read x = if x = a then v else m.read x := by
  induction m with
  | nil =>
    simp only [Memory.write, unlistedByte]
    split_ifs with hv hx hx
    · rw [hv, Memory.read]
    · rfl
    · rw [Memory.read, if_pos hx.symm]
    · simp only [Memory.read]
      rw [if_neg fun h => hx h.symm]
  | cons c m ih =>
    obtain ⟨k, b⟩ := c
    obtain ⟨h1, -, h3⟩ := wf_cons.1 h
    have below : a ≤ k → Memory.read m a = 0 := fun hak => read_of_below fun d hd => lt_of_le_of_lt hak (h1 d hd)
    simp only [Memory.write, unlistedByte]
    split_ifs with hlt hv hx hx heq hv hx hx hx
    · rw [hx, Memory.read, if_neg (by omega), below (by omega), hv]
    · rfl
    · simp [Memory.read, hx]
    · rw [Memory.read, if_neg fun h => hx h.symm]
    · rw [hx, below (by omega), hv]
    · rw [Memory.read, if_neg (by omega)]
    · simp [Memory.read, hx]
    · rw [Memory.read, if_neg (fun h => hx h.symm), Memory.read, if_neg (by omega)]
    · rw [Memory.read, if_neg (by omega), ih h3, if_pos hx]
    · simp only [Memory.read]
      rw [ih h3, if_neg hx]

/-- Storing bytes below 2048 keeps the canonical form. -/
theorem wf_writeBytes {m : Memory} (h : m.wf) (v : List Byte) {a : Nat} (ha : a + v.length ≤ 2048) :
    (m.writeBytes a v).wf := by
  induction v generalizing m a with
  | nil => exact h
  | cons b v ih =>
    simp only [List.length_cons] at ha
    exact ih (wf_write h (by omega) b) (by omega)

/-- Reading after storing bytes below 2048, in a memory of canonical form. -/
theorem read_writeBytes {m : Memory} (h : m.wf) (v : List Byte) {a : Nat} (ha : a + v.length ≤ 2048) (x : Nat) :
    (m.writeBytes a v).read x = if a ≤ x ∧ x < a + v.length then v.getD (x - a) 0 else m.read x := by
  induction v generalizing m a with
  | nil => rw [Memory.writeBytes, if_neg (by simp)]
  | cons b v ih =>
    simp only [List.length_cons] at ha ⊢
    rw [Memory.writeBytes, ih (wf_write h (by omega) b) (by omega), read_write h]
    by_cases hxa : x = a
    · subst hxa; simp
    · by_cases hin : a + 1 ≤ x ∧ x < a + 1 + v.length
      · rw [if_pos hin, if_pos (by omega), show x - a = (x - (a + 1)) + 1 by omega, List.getD_cons_succ]
      · rw [if_neg hin, if_neg hxa, if_neg (by omega)]

@[simp] theorem length_readBytes (m : Memory) (a n : Nat) : (m.readBytes a n).length = n := by simp [Memory.readBytes]

theorem getD_readBytes (m : Memory) (a n k : Nat) (hk : k < n) : (m.readBytes a n).getD k 0 = m.read (a + k) := by
  simp [Memory.readBytes, List.getD_eq_getElem?_getD, hk]

/-- Two memories of canonical form that read alike are equal. -/
theorem eq_of_read {m m' : Memory} (h : m.wf) (h' : m'.wf) (hr : ∀ a, m.read a = m'.read a) : m = m' := by
  induction m generalizing m' with
  | nil =>
    cases m' with
    | nil => rfl
    | cons c m' =>
      have := hr c.1
      rw [Memory.read, Memory.read] at this
      exact absurd this.symm (by simpa [unlistedByte] using (wf_cons.1 h').2.1.2)
  | cons c m ih =>
    obtain ⟨k, b⟩ := c
    obtain ⟨h1, ⟨-, hb⟩, h3⟩ := wf_cons.1 h
    cases m' with
    | nil =>
      have := hr k
      simp [Memory.read, unlistedByte] at this
      exact absurd this hb
    | cons c' m' =>
      obtain ⟨k', b'⟩ := c'
      obtain ⟨h1', ⟨-, hb'⟩, h3'⟩ := wf_cons.1 h'
      have hk : k = k' := by
        rcases lt_trichotomy k k' with hlt | heq | hgt
        · have := hr k
          rw [Memory.read, if_pos rfl, Memory.read, if_neg (by omega),
            read_of_below fun d hd => lt_trans hlt (h1' d hd)] at this
          exact absurd this hb
        · exact heq
        · have := hr k'
          rw [Memory.read, if_neg (by omega), read_of_below fun d hd => lt_trans hgt (h1 d hd), Memory.read,
            if_pos rfl] at this
          exact absurd this.symm hb'
      subst hk
      have hbb : b = b' := by simpa [Memory.read] using hr k
      subst hbb
      congr 1
      refine ih h3 h3' fun a => ?_
      by_cases ha : k = a
      · subst ha
        rw [read_of_below h1, read_of_below h1']
      · simpa [Memory.read, ha] using hr a

end Memory

end Sys2Proof.Machine
end

