-- ==== Sys2Proof/Laws/PerInstr.lean ====
section
/-! SUPPORT. Fields of a word, and one lemma per command: bits [31:27] of its word are its opcode (30_encoding.md R91). -/

namespace Sys2Proof

theorem field_eq (w : Word) (hi lo : Nat) : field w hi lo = w.toNat / 2 ^ lo % 2 ^ (hi + 1 - lo) := by
  rw [field, Nat.shiftRight_eq_div_pow]

theorem toNat_encode (i : Instr) : (encode i).toNat = (i.opcode * 2 ^ 27 + i.operandBits) % 2 ^ 32 := by
  rw [encode, BitVec.toNat_ofNat]

theorem Domain.bit_le (d : Domain) : d.bit ≤ 1 := by cases d <;> decide

theorem Instr.opcode_lt (i : Instr) : i.opcode < 32 := by cases i <;> simp [Instr.opcode]

namespace Laws.EncodedOpcode

/-- "Every format has `opcode = w[31:27]` (5 bits)" (R91). -/
def Statement (i : Instr) : Prop := i.WellFormed = true → field (encode i) 31 27 = i.opcode

/-- It is enough that the operands stay below the opcode field. -/
theorem of_lt (i : Instr) (h : i.operandBits < 2 ^ 27) : field (encode i) 31 27 = i.opcode := by
  have hop := i.opcode_lt
  rw [field_eq, toNat_encode]
  omega

theorem padd (pd pa pb : Reg) : Statement (.padd pd pa pb) := fun _ =>
  of_lt _ (by simp only [Instr.operandBits]; omega)

theorem psub (pd pa pb : Reg) : Statement (.psub pd pa pb) := fun _ =>
  of_lt _ (by simp only [Instr.operandBits]; omega)

theorem ntt (pd pa : Reg) : Statement (.ntt pd pa) := fun _ =>
  of_lt _ (by simp only [Instr.operandBits]; omega)

theorem intt (pd pa : Reg) : Statement (.intt pd pa) := fun _ =>
  of_lt _ (by simp only [Instr.operandBits]; omega)

theorem pwmul (pd pa pb : Reg) : Statement (.pwmul pd pa pb) := fun _ =>
  of_lt _ (by simp only [Instr.operandBits]; omega)

theorem encode (ps : Reg) (d : Nat) (dom : Domain) (addr : Nat) : Statement (.encode ps d dom addr) := fun h =>
  of_lt _ (by
    have hb := dom.bit_le
    simp only [Instr.WellFormed, decide_eq_true_eq] at h
    simp only [Instr.operandBits]
    omega)

theorem decode (pd : Reg) (d : Nat) (dom : Domain) (addr : Nat) : Statement (.decode pd d dom addr) := fun h =>
  of_lt _ (by
    have hb := dom.bit_le
    simp only [Instr.WellFormed, decide_eq_true_eq] at h
    simp only [Instr.operandBits]
    omega)

theorem serialize (ps : Reg) (d addr : Nat) : Statement (.serialize ps d addr) := fun h =>
  of_lt _ (by
    simp only [Instr.WellFormed, decide_eq_true_eq] at h
    simp only [Instr.operandBits]
    omega)

theorem deserialize (pd : Reg) (d addr : Nat) : Statement (.deserialize pd d addr) := fun h =>
  of_lt _ (by
    simp only [Instr.WellFormed, decide_eq_true_eq] at h
    simp only [Instr.operandBits]
    omega)

theorem samplecbd (pd : Reg) (n len addr : Nat) : Statement (.samplecbd pd n len addr) := fun h =>
  of_lt _ (by
    simp only [Instr.WellFormed, decide_eq_true_eq] at h
    simp only [Instr.operandBits]
    omega)

theorem sampleu (pd : Reg) (len addr : Nat) : Statement (.sampleu pd len addr) := fun h =>
  of_lt _ (by
    simp only [Instr.WellFormed, decide_eq_true_eq] at h
    simp only [Instr.operandBits]
    omega)

theorem zeroize : Statement .zeroize := fun _ => of_lt _ (by decide)

end Laws.EncodedOpcode

end Sys2Proof
end

