-- ==== Sys2Proof/Laws/Sequences.lean ====
section
/-! SUPPORT. How the end of a run is found, one step at a time (46_system.md R231). -/

namespace Sys2Proof.Machine

/-- A state at rest is the end of the run that starts in it. -/
theorem endWithin_atRest {s : State} (h : s.atRest) (n : Nat) : endWithin n s = .next s := by
  cases n with
  | zero => rfl
  | succ n => rw [endWithin, if_pos h]

/-- A state not at rest is left by its step. -/
theorem endWithin_step {s t : State} (h : ¬ s.atRest) (hs : step s = .next t) (n : Nat) :
    endWithin (n + 1) s = endWithin n t := by
  rw [endWithin, if_neg h, hs]

/-- A run that has ended is looked at no further. -/
theorem endOfRun_atRest {s : State} (h : s.atRest) : endOfRun s = .next s := endWithin_atRest h _

/-- What `runEndsWell` says of the end of a run. -/
theorem runEndsWell_of_end {s t : State} (h : endOfRun s = .next t) :
    runEndsWell s = true ↔ t.err = false ∧ t.ovr = false := by simp [runEndsWell, h]

/-- At rest: no event of the schedule is a host access, and BUSY is 0. -/
theorem atRest_iff (s : State) : s.atRest ↔ (∀ a : Access, Event.host a ∉ s.schedule) ∧ s.busy = false := by
  refine and_congr_left fun _ => ?_
  simp only [List.all_eq_true, Bool.not_eq_true']
  refine ⟨fun h a ha => by simpa [Event.isHost] using h _ ha, fun h e he => ?_⟩
  cases e with
  | host a => exact absurd he (h a)
  | engine => rfl
  | reset => rfl

end Sys2Proof.Machine
end

