-- ==== Sys2Proof/Laws/Step.lean ====
section
/-! SUPPORT. Everything a step can do, said once: what the engine's step is, and which event a step takes. -/

namespace Sys2Proof.Machine

/-- Not enabled: nothing happens. -/
theorem engineStep_idle {s : State} (h : s.busy = false) : engineStep s = .next s := by simp [engineStep, h]

/-- Enabled, and the pending word is a command: the command is executed. -/
theorem engineStep_command {s : State} {w : Word} {i : Instr} (hb : s.busy = true) (hp : s.pending = some w)
    (hd : decode w = .command i) : engineStep s = exec i s := by simp [engineStep, hb, hp, hd]

/-- Enabled, and the pending word is illegal: `IllegalCommand`. -/
theorem engineStep_illegal {s : State} {w : Word} {why : Illegal} (hb : s.busy = true) (hp : s.pending = some w)
    (hd : decode w = .illegal why) : engineStep s = .next (takeFault .illegalCommand s) := by
  simp [engineStep, hb, hp, hd, raise]

/-- The engine's step with a word pending is a fault entry or a completion. -/
theorem engineStep_ends {s : State} {w : Word} (hb : s.busy = true) (hp : s.pending = some w) :
    Ends s (engineStep s) := by
  cases hd : decode w with
  | command i => rw [engineStep_command hb hp hd]; exact exec_ends i s
  | illegal why => rw [engineStep_illegal hb hp hd]; exact .inl ⟨_, rfl⟩

theorem step_nil {s : State} (h : s.schedule = []) : step s = engineStep s := by simp [step, h]

theorem step_engine {s : State} {rest : List Event} (h : s.schedule = .engine :: rest) :
    step s = engineStep { s with schedule := rest } := by simp [step, h]

theorem step_host {s : State} {a : Access} {rest : List Event} (h : s.schedule = .host a :: rest) :
    step s = .next (hostAccess a { s with schedule := rest }) := by simp [step, h]

theorem step_reset {s : State} {rest : List Event} (h : s.schedule = .reset :: rest) :
    step s = .next (resetEngine { s with schedule := rest }) := by simp [step, h]

end Sys2Proof.Machine
end

