-- ==== Sys2Proof/Laws/Transform.lean ====
section
/-! SUPPORT. The transforms layer by layer: each layer of R181 and R182, written as loops in Machine/Transform.lean, is
the closed form of one layer in which every element is given at once (the table of 43_ntt.md R180). -/

namespace Sys2Proof.Machine

/-! ### One element of a sequence of coefficients -/

theorem coeffAt_of_lt (x : Coeffs) {i : Nat} (h : i < 256) : coeffAt x i = x[i] := by simp [coeffAt, h]

theorem coeffAt_ofFn (f : Fin 256 → Coeff) {i : Nat} (h : i < 256) : coeffAt (Vector.ofFn f) i = f ⟨i, h⟩ := by
  simp [coeffAt, h]

theorem coeffAt_putCoeff (x : Coeffs) (i j : Nat) (v : Coeff) :
    coeffAt (putCoeff x i v) j = if i = j ∧ j < 256 then v else coeffAt x j := by
  by_cases hj : j < 256
  · simp [coeffAt, putCoeff, hj, Vector.getElem_setIfInBounds]
  · simp [coeffAt, hj]

/-- Two sequences with the same elements are equal. -/
theorem coeffs_ext {x y : Coeffs} (h : ∀ i, i < 256 → coeffAt x i = coeffAt y i) : x = y := by
  refine Vector.ext fun i hi => ?_
  simpa [coeffAt, hi] using h i hi

/-! ### One group -/

/-- What a forward group leaves at element `j`. -/
def forwardElement (zeta : Coeff) (len start : Nat) (x : Coeffs) (j : Nat) : Coeff :=
  if start ≤ j ∧ j < start + len then
    modQ (((coeffAt x j).val : Int) + (modQ ((zeta.val : Int) * (coeffAt x (j + len)).val)).val)
  else if start + len ≤ j ∧ j < start + 2 * len then
    modQ (((coeffAt x (j - len)).val : Int) - (modQ ((zeta.val : Int) * (coeffAt x j).val)).val)
  else coeffAt x j

/-- What an inverse group leaves at element `j`. -/
def inverseElement (zeta : Coeff) (len start : Nat) (x : Coeffs) (j : Nat) : Coeff :=
  if start ≤ j ∧ j < start + len then modQ (((coeffAt x j).val : Int) + (coeffAt x (j + len)).val)
  else if start + len ≤ j ∧ j < start + 2 * len then
    modQ ((zeta.val : Int) * (((coeffAt x j).val : Int) - (coeffAt x (j - len)).val))
  else coeffAt x j

theorem forwardGroup_prefix (zeta : Coeff) {len start : Nat} (x : Coeffs) (hs : start + 2 * len ≤ 256) :
    ∀ k, k ≤ len → ∀ j,
      coeffAt ((List.range k).foldl (fun x k => forwardButterfly zeta len x (start + k)) x) j =
        if (start ≤ j ∧ j < start + k) ∨ (start + len ≤ j ∧ j < start + len + k) then
          forwardElement zeta len start x j
        else coeffAt x j := by
  intro k
  induction k with
  | zero => intro _ j; rw [if_neg (by omega)]; rfl
  | succ k ih =>
    intro hk j
    have before := ih (by omega)
    rw [List.range_succ, List.foldl_append, List.foldl_cons, List.foldl_nil]
    generalize (List.range k).foldl (fun x k => forwardButterfly zeta len x (start + k)) x = y at before ⊢
    simp only [forwardButterfly, coeffAt_putCoeff, before]
    rw [if_neg (show ¬ ((start ≤ start + k ∧ start + k < start + k) ∨
        (start + len ≤ start + k ∧ start + k < start + len + k)) by omega),
      if_neg (show ¬ ((start ≤ start + k + len ∧ start + k + len < start + k) ∨
        (start + len ≤ start + k + len ∧ start + k + len < start + len + k)) by omega)]
    by_cases h1 : start + k = j
    · subst h1
      rw [if_pos (by omega), if_pos (by omega), forwardElement, if_pos (by omega)]
    · by_cases h2 : start + k + len = j
      · subst h2
        rw [if_neg (by omega), if_pos (by omega), if_pos (by omega), forwardElement, if_neg (by omega),
          if_pos (by omega), Nat.add_sub_cancel]
      · rw [if_neg (by omega), if_neg (by omega)]
        refine if_congr ?_ rfl rfl
        omega

theorem inverseGroup_prefix (zeta : Coeff) {len start : Nat} (x : Coeffs) (hs : start + 2 * len ≤ 256) :
    ∀ k, k ≤ len → ∀ j,
      coeffAt ((List.range k).foldl (fun x k => inverseButterfly zeta len x (start + k)) x) j =
        if (start ≤ j ∧ j < start + k) ∨ (start + len ≤ j ∧ j < start + len + k) then
          inverseElement zeta len start x j
        else coeffAt x j := by
  intro k
  induction k with
  | zero => intro _ j; rw [if_neg (by omega)]; rfl
  | succ k ih =>
    intro hk j
    have before := ih (by omega)
    rw [List.range_succ, List.foldl_append, List.foldl_cons, List.foldl_nil]
    generalize (List.range k).foldl (fun x k => inverseButterfly zeta len x (start + k)) x = y at before ⊢
    simp only [inverseButterfly, coeffAt_putCoeff, before]
    rw [if_neg (show ¬ ((start ≤ start + k ∧ start + k < start + k) ∨
        (start + len ≤ start + k ∧ start + k < start + len + k)) by omega),
      if_neg (show ¬ ((start ≤ start + k + len ∧ start + k + len < start + k) ∨
        (start + len ≤ start + k + len ∧ start + k + len < start + len + k)) by omega)]
    by_cases h2 : start + k + len = j
    · subst h2
      rw [if_pos (by omega), if_pos (by omega), inverseElement, if_neg (by omega), if_pos (by omega),
        Nat.add_sub_cancel]
    · by_cases h1 : start + k = j
      · subst h1
        rw [if_neg (by omega), if_pos (by omega), if_pos (by omega), inverseElement, if_pos (by omega)]
      · rw [if_neg (by omega), if_neg (by omega)]
        refine if_congr ?_ rfl rfl
        omega

theorem coeffAt_forwardGroup (zeta : Coeff) {len start : Nat} (x : Coeffs) (hs : start + 2 * len ≤ 256) (j : Nat) :
    coeffAt (runGroup forwardButterfly zeta len start x) j = forwardElement zeta len start x j := by
  rw [runGroup, forwardGroup_prefix zeta x hs len le_rfl]
  split_ifs with h
  · rfl
  · rw [forwardElement, if_neg (by omega), if_neg (by omega)]

theorem coeffAt_inverseGroup (zeta : Coeff) {len start : Nat} (x : Coeffs) (hs : start + 2 * len ≤ 256) (j : Nat) :
    coeffAt (runGroup inverseButterfly zeta len start x) j = inverseElement zeta len start x j := by
  rw [runGroup, inverseGroup_prefix zeta x hs len le_rfl]
  split_ifs with h
  · rfl
  · rw [inverseElement, if_neg (by omega), if_neg (by omega)]

/-! ### One layer -/

/-- One forward layer, every element at once; block `b` uses `ZETA[first + b]`. -/
def forwardLayerAt (c : Config) (first len : Nat) (x : Coeffs) : Coeffs :=
  Vector.ofFn fun j =>
    forwardElement (zetaAt c (first + j.val / (2 * len))) len (2 * len * (j.val / (2 * len))) x j.val

/-- One inverse layer, every element at once; block `b` uses `ZETA[first - b]`. -/
def inverseLayerAt (c : Config) (first len : Nat) (x : Coeffs) : Coeffs :=
  Vector.ofFn fun j =>
    inverseElement (zetaAt c (first - j.val / (2 * len))) len (2 * len * (j.val / (2 * len))) x j.val

theorem forwardLayer_prefix (c : Config) {len : Nat} (hlen : 0 < len) (x : Coeffs) (first : Nat) :
    ∀ n, 2 * len * n ≤ 256 →
      ((List.range n).foldl
          (fun xi block => (runGroup forwardButterfly (zetaAt c xi.2) len (2 * len * block) xi.1, xi.2 + 1))
          (x, first)).2 = first + n ∧
      ∀ j, coeffAt ((List.range n).foldl
          (fun xi block => (runGroup forwardButterfly (zetaAt c xi.2) len (2 * len * block) xi.1, xi.2 + 1))
          (x, first)).1 j =
        if j < 2 * len * n then
          forwardElement (zetaAt c (first + j / (2 * len))) len (2 * len * (j / (2 * len))) x j
        else coeffAt x j := by
  intro n
  induction n with
  | zero => intro _; exact ⟨rfl, fun j => by rw [if_neg (by omega)]; rfl⟩
  | succ n ih =>
    intro hn
    have hmul : 2 * len * (n + 1) = 2 * len * n + 2 * len := by ring
    obtain ⟨hi, hx⟩ := ih (by omega)
    rw [List.range_succ, List.foldl_append, List.foldl_cons, List.foldl_nil]
    refine ⟨by simp only [hi]; omega, fun j => ?_⟩
    simp only [hi]
    rw [coeffAt_forwardGroup _ _ (by omega)]
    by_cases hj : j < 2 * len * n
    · rw [forwardElement, if_neg (by omega), if_neg (by omega), hx, if_pos hj, if_pos (by omega)]
    · by_cases hj' : j < 2 * len * (n + 1)
      · have hb : j / (2 * len) = n := by
          have hcomm : n * (2 * len) = 2 * len * n := Nat.mul_comm _ _
          rw [Nat.div_eq_iff (by omega)]
          omega
        rw [if_pos hj', hb]
        have same : ∀ j', 2 * len * n ≤ j' → coeffAt _ j' = coeffAt x j' := fun j' h => by
          rw [hx, if_neg (by omega)]
        simp only [forwardElement]
        split_ifs with h1 h2
        · rw [same j (by omega), same (j + len) (by omega)]
        · rw [same j (by omega), same (j - len) (by omega)]
        · omega
      · rw [forwardElement, if_neg (by omega), if_neg (by omega), hx, if_neg hj, if_neg hj']

theorem inverseLayer_prefix (c : Config) {len : Nat} (hlen : 0 < len) (x : Coeffs) (first : Nat) :
    ∀ n, 2 * len * n ≤ 256 →
      ((List.range n).foldl
          (fun xi block => (runGroup inverseButterfly (zetaAt c xi.2) len (2 * len * block) xi.1, xi.2 - 1))
          (x, first)).2 = first - n ∧
      ∀ j, coeffAt ((List.range n).foldl
          (fun xi block => (runGroup inverseButterfly (zetaAt c xi.2) len (2 * len * block) xi.1, xi.2 - 1))
          (x, first)).1 j =
        if j < 2 * len * n then
          inverseElement (zetaAt c (first - j / (2 * len))) len (2 * len * (j / (2 * len))) x j
        else coeffAt x j := by
  intro n
  induction n with
  | zero => intro _; exact ⟨rfl, fun j => by rw [if_neg (by omega)]; rfl⟩
  | succ n ih =>
    intro hn
    have hmul : 2 * len * (n + 1) = 2 * len * n + 2 * len := by ring
    obtain ⟨hi, hx⟩ := ih (by omega)
    rw [List.range_succ, List.foldl_append, List.foldl_cons, List.foldl_nil]
    refine ⟨by simp only [hi]; omega, fun j => ?_⟩
    simp only [hi]
    rw [coeffAt_inverseGroup _ _ (by omega)]
    by_cases hj : j < 2 * len * n
    · rw [inverseElement, if_neg (by omega), if_neg (by omega), hx, if_pos hj, if_pos (by omega)]
    · by_cases hj' : j < 2 * len * (n + 1)
      · have hb : j / (2 * len) = n := by
          have hcomm : n * (2 * len) = 2 * len * n := Nat.mul_comm _ _
          rw [Nat.div_eq_iff (by omega)]
          omega
        rw [if_pos hj', hb]
        have same : ∀ j', 2 * len * n ≤ j' → coeffAt _ j' = coeffAt x j' := fun j' h => by
          rw [hx, if_neg (by omega)]
        simp only [inverseElement]
        split_ifs with h1 h2
        · rw [same j (by omega), same (j + len) (by omega)]
        · rw [same j (by omega), same (j - len) (by omega)]
        · omega
      · rw [inverseElement, if_neg (by omega), if_neg (by omega), hx, if_neg hj, if_neg hj']

/-- A forward layer is its closed form, and the zeta index goes up by the number of groups. -/
theorem forwardLayer_eq (c : Config) (x : Coeffs) (first : Nat) {len : Nat} (hlen : 2 * len * (128 / len) = 256) :
    forwardLayer c (x, first) len = (forwardLayerAt c first len x, first + 128 / len) := by
  have hpos : 0 < len := by rcases Nat.eq_zero_or_pos len with h | h <;> simp_all
  obtain ⟨hi, hx⟩ := forwardLayer_prefix c hpos x first (128 / len) (by omega)
  refine Prod.ext ?_ hi
  refine coeffs_ext fun j hj => ?_
  rw [forwardLayer, hx, if_pos (by omega), forwardLayerAt, coeffAt_ofFn _ hj]

/-- An inverse layer is its closed form, and the zeta index goes down by the number of groups. -/
theorem inverseLayer_eq (c : Config) (x : Coeffs) (first : Nat) {len : Nat} (hlen : 2 * len * (128 / len) = 256) :
    inverseLayer c (x, first) len = (inverseLayerAt c first len x, first - 128 / len) := by
  have hpos : 0 < len := by rcases Nat.eq_zero_or_pos len with h | h <;> simp_all
  obtain ⟨hi, hx⟩ := inverseLayer_prefix c hpos x first (128 / len) (by omega)
  refine Prod.ext ?_ hi
  refine coeffs_ext fun j hj => ?_
  rw [inverseLayer, hx, if_pos (by omega), inverseLayerAt, coeffAt_ofFn _ hj]

/-! ### Layers on the elements alone -/

/-- A forward layer on the elements of a sequence, with no sequence built. -/
def forwardFn (c : Config) (first len : Nat) (g : Nat → Coeff) (j : Nat) : Coeff :=
  if j % (2 * len) < len then
    modQ ((g j).val + (modQ ((zetaAt c (first + j / (2 * len))).val * ((g (j + len)).val : Int))).val)
  else modQ ((g (j - len)).val - (modQ ((zetaAt c (first + j / (2 * len))).val * ((g j).val : Int))).val)

/-- An inverse layer on the elements of a sequence, with no sequence built. -/
def inverseFn (c : Config) (first len : Nat) (g : Nat → Coeff) (j : Nat) : Coeff :=
  if j % (2 * len) < len then modQ ((g j).val + (g (j + len)).val)
  else modQ ((zetaAt c (first - j / (2 * len))).val * (((g j).val : Int) - (g (j - len)).val))

/-- The block of element `j` lies inside the sequence. -/
theorem block_bound {len j : Nat} (hl : 0 < len) (hd : 2 * len ∣ 256) (hj : j < 256) :
    2 * len * (j / (2 * len)) + 2 * len ≤ 256 := by
  obtain ⟨k, hk⟩ := hd
  have hq : j / (2 * len) < k := by rw [Nat.div_lt_iff_lt_mul (by omega), Nat.mul_comm]; omega
  calc 2 * len * (j / (2 * len)) + 2 * len = 2 * len * (j / (2 * len) + 1) := by ring
    _ ≤ 2 * len * k := Nat.mul_le_mul_left _ hq
    _ = 256 := hk.symm

theorem coeffAt_forwardLayerAt {c : Config} {first len : Nat} (hl : 0 < len) (hd : 2 * len ∣ 256) {x : Coeffs}
    {g : Nat → Coeff} (h : ∀ j, j < 256 → coeffAt x j = g j) (j : Nat) (hj : j < 256) :
    coeffAt (forwardLayerAt c first len x) j = forwardFn c first len g j := by
  have hdm := Nat.div_add_mod j (2 * len)
  have hm := Nat.mod_lt j (show 0 < 2 * len by omega)
  have hb := block_bound hl hd hj
  rw [forwardLayerAt, coeffAt_ofFn _ hj]
  simp only [forwardElement, forwardFn]
  generalize 2 * len * (j / (2 * len)) = b at *
  split_ifs <;> try (exfalso; omega)
  · rw [h j hj, h (j + len) (by omega)]
  · rw [h j hj, h (j - len) (by omega)]

theorem coeffAt_inverseLayerAt {c : Config} {first len : Nat} (hl : 0 < len) (hd : 2 * len ∣ 256) {x : Coeffs}
    {g : Nat → Coeff} (h : ∀ j, j < 256 → coeffAt x j = g j) (j : Nat) (hj : j < 256) :
    coeffAt (inverseLayerAt c first len x) j = inverseFn c first len g j := by
  have hdm := Nat.div_add_mod j (2 * len)
  have hm := Nat.mod_lt j (show 0 < 2 * len by omega)
  have hb := block_bound hl hd hj
  rw [inverseLayerAt, coeffAt_ofFn _ hj]
  simp only [inverseElement, inverseFn]
  generalize 2 * len * (j / (2 * len)) = b at *
  split_ifs <;> try (exfalso; omega)
  · rw [h j hj, h (j + len) (by omega)]
  · rw [h j hj, h (j - len) (by omega)]

/-! ### The transforms -/

/-- `Ntt` is its seven layers; layer `len` starts at zeta index 128 / len (R180). -/
theorem ntt_eq_layers (c : Config) (f : Coeffs) :
    ntt c f = forwardLayerAt c 64 2 (forwardLayerAt c 32 4 (forwardLayerAt c 16 8 (forwardLayerAt c 8 16
      (forwardLayerAt c 4 32 (forwardLayerAt c 2 64 (forwardLayerAt c 1 128 f)))))) := by
  simp only [ntt, List.foldl_cons, List.foldl_nil]
  rw [forwardLayer_eq c _ _ (by norm_num), forwardLayer_eq c _ _ (by norm_num), forwardLayer_eq c _ _ (by norm_num),
    forwardLayer_eq c _ _ (by norm_num), forwardLayer_eq c _ _ (by norm_num), forwardLayer_eq c _ _ (by norm_num),
    forwardLayer_eq c _ _ (by norm_num)]

/-- `NttInverse` is its seven layers and the final factor; layer `len` starts at zeta index 256 / len - 1 (R180). -/
theorem nttInverse_eq_layers (c : Config) (g : Coeffs) :
    nttInverse c g = (inverseLayerAt c 1 128 (inverseLayerAt c 3 64 (inverseLayerAt c 7 32 (inverseLayerAt c 15 16
      (inverseLayerAt c 31 8 (inverseLayerAt c 63 4 (inverseLayerAt c 127 2 g))))))).map
        fun x => modQ ((x.val : Int) * inv128) := by
  simp only [nttInverse, List.foldl_cons, List.foldl_nil]
  rw [inverseLayer_eq c _ _ (by norm_num), inverseLayer_eq c _ _ (by norm_num), inverseLayer_eq c _ _ (by norm_num),
    inverseLayer_eq c _ _ (by norm_num), inverseLayer_eq c _ _ (by norm_num), inverseLayer_eq c _ _ (by norm_num),
    inverseLayer_eq c _ _ (by norm_num)]
  simp only [Nat.reduceDiv, Nat.reduceSub]

/-- Every element of `Ntt`, from the elements of its argument. -/
theorem coeffAt_ntt {c : Config} {f : Coeffs} {g : Nat → Coeff} (h : ∀ j, j < 256 → coeffAt f j = g j) (j : Nat)
    (hj : j < 256) :
    coeffAt (ntt c f) j = forwardFn c 64 2 (forwardFn c 32 4 (forwardFn c 16 8 (forwardFn c 8 16
      (forwardFn c 4 32 (forwardFn c 2 64 (forwardFn c 1 128 g)))))) j := by
  rw [ntt_eq_layers]
  iterate 6 refine coeffAt_forwardLayerAt (by decide) (by decide) (fun j hj => ?_) j hj
  exact coeffAt_forwardLayerAt (by decide) (by decide) h j hj

/-- Every element of `NttInverse`, from the elements of its argument. -/
theorem coeffAt_nttInverse {c : Config} {f : Coeffs} {g : Nat → Coeff} (h : ∀ j, j < 256 → coeffAt f j = g j) (j : Nat)
    (hj : j < 256) :
    coeffAt (nttInverse c f) j = modQ ((inverseFn c 1 128 (inverseFn c 3 64 (inverseFn c 7 32 (inverseFn c 15 16
      (inverseFn c 31 8 (inverseFn c 63 4 (inverseFn c 127 2 g)))))) j).val * (inv128 : Int)) := by
  rw [nttInverse_eq_layers, coeffAt_of_lt _ hj, Vector.getElem_map, ← coeffAt_of_lt _ hj]
  refine congrArg (fun x : Coeff => modQ ((x.val : Int) * inv128)) ?_
  iterate 6 refine coeffAt_inverseLayerAt (by decide) (by decide) (fun j hj => ?_) j hj
  exact coeffAt_inverseLayerAt (by decide) (by decide) h j hj

end Sys2Proof.Machine
end

