-- ==== Sys2Proof/Tests/Slice0.lean ====
section
/-! SUPPORT. The model's own tests. Expected results come from the spec: the encodings of 30_encoding.md, the examples of
the command rules, the vectors V<n> of 95_test_vectors.md. The `witness_` theorems show, for each statement with
hypotheses, concrete inputs that meet them, clause by clause at the boundary of each range. -/

namespace Sys2Proof.Tests

open Sys2Proof Sys2Proof.Machine

/-! ### Small states -/

/-- The polynomial whose first coefficients are the list and all others 0. -/
def poly (l : List Nat) : Coeffs := Vector.ofFn fun i => modQ (l.getD i.val 0 : Nat)

/-- Coefficient i is i (V78, V83). -/
def ramp : Coeffs := Vector.ofFn fun i => modQ (i.val : Nat)

/-- Register `r` loaded. -/
def load (r : Reg) (l : List Nat) (tag : Tag) (s : State) : State := s.setReg r (poly l) tag

/-- Every register loaded with the tag. -/
def allTagged (tag : Tag) : State := { State.reset with t := Vector.replicate 8 tag }

/-- BMEM holding the bytes from `addr` on. -/
def withBytes (addr : Nat) (l : List Nat) : State := State.reset.storeBytes addr (l.map (BitVec.ofNat 8))

/-- The word is pending. -/
def busyWith (w : Word) : State := acceptCommand w State.reset

/-- A fault is recorded, as after the word 0. -/
def faulted : State := takeFault .illegalCommand (busyWith 0)

/-- A command has completed. -/
def finished : State := completed 0 (busyWith 0xF8000000)

def scheduled (s : State) (events : List Event) : State := { s with schedule := events }

/-- The step of the pending word `w` answers a state with the property. -/
def after (w : Word) (s : State) (p : State → Bool) : Bool :=
  match step (acceptCommand w s) with
  | .next t => p t
  | _ => false

/-- The coefficients of register `r` at the listed indices. -/
def valuesAt (s : State) (r : Reg) (l : List (Nat × Nat)) : Bool := l.all fun x => (coeffAt (s.coeffs r) x.1).val == x.2

/-- The state after one step, where there is one. -/
def stepped (s : State) : State :=
  match step s with
  | .next t => t
  | _ => s

/-! ### WellFormed: each check refuses an ill-formed term -/

theorem test_illformed_width_zero : (Instr.encode 0 0 .std 0).WellFormed = false := by decide
theorem test_illformed_width_high : (Instr.decode 0 13 .ntt 0).WellFormed = false := by decide
theorem test_illformed_width_serialize : (Instr.serialize 0 0 0).WellFormed = false := by decide
theorem test_illformed_width_deserialize : (Instr.deserialize 0 13 0).WellFormed = false := by decide
theorem test_illformed_address :
    (Instr.encode 0 1 .std 2048).WellFormed = false ∧ (Instr.decode 0 1 .std 2048).WellFormed = false ∧
      (Instr.serialize 0 1 2048).WellFormed = false ∧ (Instr.deserialize 0 1 2048).WellFormed = false ∧
      (Instr.samplecbd 0 1 64 2048).WellFormed = false ∧ (Instr.sampleu 0 384 2048).WellFormed = false := by decide
theorem test_illformed_binomial :
    (Instr.samplecbd 0 0 0 0).WellFormed = false ∧ (Instr.samplecbd 0 8 64 0).WellFormed = false := by decide
theorem test_illformed_length :
    (Instr.samplecbd 0 1 512 0).WellFormed = false ∧ (Instr.sampleu 0 4096 0).WellFormed = false := by decide

/-! ### Decode: a word of every command, written out from the diagrams of R91 to R95 -/

/-- op 00001, pd 010, pa 000, pb 001, 18 zeros. -/
theorem test_decode_padd : decode 0b00001010000001000000000000000000 = .command (.padd 2 0 1) := by decide
/-- op 00010, pd 010, pa 000, pb 001, 18 zeros. -/
theorem test_decode_psub : decode 0b00010010000001000000000000000000 = .command (.psub 2 0 1) := by decide
/-- op 00011, pd 001, pa 010, pb 000, 18 zeros. -/
theorem test_decode_ntt : decode 0b00011001010000000000000000000000 = .command (.ntt 1 2) := by decide
/-- op 00100, pd 011, pa 100, pb 000, 18 zeros. -/
theorem test_decode_intt : decode 0b00100011100000000000000000000000 = .command (.intt 3 4) := by decide
/-- op 00101, pd 110, pa 101, pb 011, 18 zeros. -/
theorem test_decode_pwmul : decode 0b00101110101011000000000000000000 = .command (.pwmul 6 5 3) := by decide
/-- op 01000, ps 010, d 1100, N 1, 8 zeros, addr 10000000000. -/
theorem test_decode_encode : decode 0b01000010110010000000010000000000 = .command (.encode 2 12 .ntt 1024) := by decide
/-- op 01001, pd 001, d 1100, N 0, 8 zeros, addr 00110000000. -/
theorem test_decode_decode : decode 0b01001001110000000000000110000000 = .command (.decode 1 12 .std 384) := by decide
/-- op 01010, ps 101, d 0100, N 0, 8 zeros, addr 00100000000. -/
theorem test_decode_serialize : decode 0b01010101010000000000000100000000 = .command (.serialize 5 4 256) := by decide
/-- op 01011, pd 001, d 1011, N 0, 8 zeros, addr 10000000000. -/
theorem test_decode_deserialize : decode 0b01011001101100000000010000000000 = .command (.deserialize 1 11 1024) := by
  decide
/-- op 01100, pd 001, n 010, len 010000000, bit 11 zero, addr 11111000000. -/
theorem test_decode_samplecbd : decode 0b01100001010010000000011111000000 = .command (.samplecbd 1 2 128 1984) := by
  decide
/-- op 01101, pd 111, len 000110000000, bit 11 zero, addr 00000000011. -/
theorem test_decode_sampleu : decode 0b01101111000110000000000000000011 = .command (.sampleu 7 384 3) := by decide
/-- op 11111, 27 zeros. -/
theorem test_decode_zeroize : decode 0b11111000000000000000000000000000 = .command .zeroize := by decide

/-- R99: each reason for which a word is illegal, at the first and last value of its range. -/
theorem test_decode_illegal :
    [0x00000000, 0x30000000, 0x38000000, 0x70000000, 0xF0000000].map decode =
        List.replicate 5 (.illegal .unassignedOpcode) ∧
      [0x08000001, 0x2A060000, 0x42C80C00, 0x49C40180, 0x61480FC0, 0x6F180803].map decode =
        List.replicate 6 (.illegal .reservedNotZero) ∧
      [0x18040000, 0x201C0000].map decode = List.replicate 2 (.illegal .secondSourceNotZero) ∧
      [0x50180000, 0x58480000].map decode = List.replicate 2 (.illegal .domainBitSet) ∧
      [0x40000000, 0x48D00000, 0x50000000, 0x58F00000].map decode = List.replicate 4 (.illegal .widthOutOfRange) ∧
      decode 0x60000000 = .illegal .binomialParameterZero ∧
      [0xF8000001, 0xFC000000, 0xFFFFFFFF].map decode = List.replicate 3 (.illegal .zeroizeBitsSet) := by decide

/-- R90: a table word shorter than 32 bits would have zeros above. -/
theorem test_decodeTableWord : decodeTableWord 32 0x2A040000 = some (.pwmul 2 0 1) ∧ decodeTableWord 32 0 = none := by
  decide

/-! ### The tables -/

/-- R183's own check: entry i is 17 to the power BitRev7(i), modulo 3329. -/
theorem test_zeta_is_powers_of_17 :
    ∀ i < 128, (zetaAt engineConfig i).val =
      17 ^ ((List.range 7).map fun k => i / 2 ^ k % 2 * 2 ^ (6 - k)).sum % 3329 := by decide +kernel

/-- The first and last row of the table of R203. -/
theorem test_gamma_rows :
    ((List.range 8).map fun i => (gammaAt engineConfig i).val) = [17, 3312, 2761, 568, 583, 2746, 2649, 680] ∧
      ((List.range 8).map fun i => (gammaAt engineConfig (120 + i)).val) =
        [2110, 1219, 2935, 394, 885, 2444, 2154, 1175] := by decide +kernel

/-! ### One step of each command -/

/-- The example of R130. -/
theorem test_padd : after 0x0A040000 (load 0 [3328] .std (load 1 [5] .std State.reset))
    (fun t => valuesAt t 2 [(0, 4), (1, 0)] && t.tag 2 == .std && statusWord t == 2) = true := by decide +kernel

/-- V10 and V12. -/
theorem test_padd_faults :
    after 0x0A040000 (load 0 [1] .std (load 1 [1] .ntt State.reset)) (fun t => statusWord t == 0x904) = true ∧
      after 0x0A040000 (load 0 [1] .std State.reset) (fun t => statusWord t == 0xA04 && t.errInfo == 1) = true := by
  decide +kernel

/-- The example of R131. -/
theorem test_psub : after 0x12040000 (load 0 [0, 2] .std (load 1 [0, 5] .std State.reset))
    (fun t => valuesAt t 2 [(0, 0), (1, 3326)] && t.tag 2 == .std) = true := by decide +kernel

/-- V11. -/
theorem test_psub_ntt_mismatch : after 0x12040000 (allTagged .ntt) (fun t => statusWord t == 0x904) = true := by
  decide +kernel

/-- V78, one element. -/
theorem test_ntt_ramp : (coeffAt (ntt engineConfig ramp) 6).val = 624 := by
  have h (j : Nat) (hj : j < 256) : coeffAt ramp j = modQ (j : Nat) := coeffAt_ofFn _ hj
  rw [coeffAt_ntt h 6 (by decide)]; decide +kernel

/-- V84 and V85. -/
theorem test_ntt_faults :
    after 0x19400000 State.reset (fun t => statusWord t == 0xA04 && t.errInfo == 2) = true ∧
      after 0x18000000 (allTagged .ntt) (fun t => statusWord t == 0x904) = true := by decide +kernel

/-- V83, one element. -/
theorem test_intt_ramp : (coeffAt (nttInverse engineConfig ramp) 6).val = 410 := by
  have h (j : Nat) (hj : j < 256) : coeffAt ramp j = modQ (j : Nat) := coeffAt_ofFn _ hj
  rw [coeffAt_nttInverse h 6 (by decide)]; decide +kernel

/-- V86. -/
theorem test_intt_mismatch : after 0x23800000 (allTagged .std) (fun t => statusWord t == 0x904) = true := by
  decide +kernel

/-- The example of R204, pairs 0 and 1. -/
theorem test_pwmul : after 0x2A040000 (load 0 [3328, 3328, 1, 2] .ntt (load 1 [3328, 3328, 3, 4] .ntt State.reset))
    (fun t => valuesAt t 2 [(0, 18), (1, 2), (2, 3196), (3, 10), (4, 0)] && t.tag 2 == .ntt) = true := by decide +kernel

/-- V96 and V97. -/
theorem test_pwmul_faults :
    after 0x29000000 (allTagged .std) (fun t => statusWord t == 0x904) = true ∧
      after 0x28280000 (load 1 [1] .ntt State.reset) (fun t => statusWord t == 0xA04 && t.errInfo == 2) = true := by
  decide +kernel

/-- V23, its first three bytes; that the command stores them is stated as an obligation. -/
theorem test_encode : [0, 1, 2].map (fun m => (byteOfBits (encodeBits (valuesOf (poly [31, 1, 16, 21])) 5) m).toNat) =
    [0x3F, 0xC0, 0x0A] := by decide +kernel

/-- V35: the lowest index that does not fit. -/
theorem test_encode_out_of_range : after (encode (.encode 3 4 .std 0))
    (load 3 [0, 0, 0, 16, 0, 0, 0, 0, 0, 20] .std State.reset)
    (fun t => statusWord t == 0x204 && t.errInfo == 0x00100003 && t.bmem == []) = true := by decide +kernel

/-- V26, through the command. -/
theorem test_decode_reduces : after 0x48C00010 (withBytes 16 [0x01, 0xDD, 0x00, 0x0D])
    (fun t => valuesAt t 0 [(0, 0), (1, 13)] && t.tag 0 == .std) = true := by decide +kernel

/-- V36's check, for DECODE. -/
theorem test_decode_range : after (encode (.decode 7 12 .ntt 0x7FF)) State.reset (fun t => statusWord t == 0xB04) = true := by
  decide +kernel

/-- V31, its first three bytes. -/
theorem test_serialize :
    [0, 1, 2].map (fun m => (byteOfBits (encodeBits
      (compressAll (poly [0, 104, 105, 833, 1665, 2497, 3225, 3328]) 4) 4) m).toNat) = [0x00, 0x41, 0xC8] := by
  decide +kernel

/-- V34, with 2600 in place of its coefficient 6, which is out of range itself and comes first (log 19). -/
theorem test_serialize_out_of_range : after (encode (.serialize 5 12 0))
    (load 5 [0, 104, 105, 833, 1665, 2497, 2600, 2706] .std State.reset)
    (fun t => statusWord t == 0x204 && t.errInfo == 0x0D010007 && t.bmem == []) = true := by decide +kernel

/-- V30. -/
theorem test_deserialize : after 0x59400000 (withBytes 0 [0x5B, 0xE2, 0x0F])
    (fun t => valuesAt t 1 [(0, 2289), (1, 1040), (4, 3121)] && t.tag 1 == .std) = true := by decide +kernel

/-- The second example of R156. -/
theorem test_deserialize_one_bit : after 0x59100000 (withBytes 0 [0xA5])
    (fun t => valuesAt t 1 [(0, 1665), (1, 0), (7, 1665)]) = true := by decide +kernel

/-- V45. -/
theorem test_samplecbd : after 0x64480020 (withBytes 0x20 [0x03, 0x0C, 0xFF, 0x5A])
    (fun t => valuesAt t 4 [(0, 2), (1, 0), (2, 3327), (3, 0)] && t.tag 4 == .std) = true := by decide +kernel

/-- V54 and V55. -/
theorem test_samplecbd_faults :
    after 0x61680000 State.reset (fun t => statusWord t == 0x104 && t.errInfo == 0x80) = true ∧
      after 0x614807C0 State.reset (fun t => statusWord t == 0xB04) = true := by decide +kernel

/-- The three groups of R211's example 3, then zeros: 1 + 0 + 2 accepted, and 127 groups of zeros give the other 253. -/
theorem test_sampleu : after (encode (.sampleu 0 390 0)) (withBytes 0 [0x00, 0x1D, 0xD0, 0x01, 0xDD, 0xD0, 0x00, 0xD0])
    (fun t => valuesAt t 0 [(0, 3328), (1, 0), (2, 13), (3, 0), (255, 0)] && t.tag 0 == .ntt && t.result == 390) = true := by
  decide +kernel

/-- Two of the groups: three accepted, then the stream ends; the seventh byte is no group (R213). -/
theorem test_sampleu_exhausted : after (encode (.sampleu 0 7 0)) (withBytes 0 [0x00, 0x1D, 0xD0, 0x00, 0xD0, 0x00, 0x01])
    (fun t => statusWord t == 0x404 && t.errInfo == 3 && t.tag 0 == .empty) = true := by decide +kernel

/-- R220. -/
theorem test_zeroize : after 0xF8000000 (load 3 [1, 2] .ntt (withBytes 7 [9]))
    (fun t => valuesAt t 3 [(0, 0), (1, 0)] && tagsWord t == 0 && t.bmem == [] && statusWord t == 2) = true := by
  decide +kernel

/-! ### The host window -/

/-- R63: the word 0x44332211 at the last word of the window. -/
theorem test_bmem_window :
    (stepped (scheduled State.reset [.host (.write .word 0xFFC 0x44332211)])).bmem =
      [(2044, 0x11), (2045, 0x22), (2046, 0x33), (2047, 0x44)] ∧
    (stepped (scheduled (withBytes 2044 [0x11, 0x22, 0x33, 0x44]) [.host (.read .word 0xFFC)])).readData =
      0x44332211 := by decide +kernel

/-- P3, steps 2 to 4: a CMD write while ERR is dropped with OVR, and CLR clears. -/
theorem test_dropped_then_cleared :
    statusWord (stepped (scheduled faulted [.host (.write .word 0x00C 0x40500200)])) = 0x80C ∧
      statusWord (stepped (scheduled faulted [.host (.write .word 0x004 2)])) = 0 := by decide +kernel

/-- withFetchWord: the very next step runs the word, also from the error state. -/
theorem test_withFetchWord :
    statusWord (stepped (State.reset.withFetchWord 32 0xF8000000)) = 2 ∧
      statusWord (stepped (faulted.withFetchWord 32 0x30000000)) = 0x804 := by decide +kernel

/-! ### Witnesses: encoding -/

/-- DecodeOfEncode. -/
theorem witness_DecodeOfEncode :
    (Instr.encode 7 12 .ntt 2047).WellFormed = true ∧ (Instr.decode 0 1 .std 0).WellFormed = true ∧
      (Instr.serialize 7 12 2047).WellFormed = true ∧ (Instr.deserialize 0 1 0).WellFormed = true ∧
      (Instr.samplecbd 7 7 511 2047).WellFormed = true ∧ (Instr.samplecbd 0 1 0 0).WellFormed = true ∧
      (Instr.sampleu 7 4095 2047).WellFormed = true ∧ (Instr.sampleu 0 0 0).WellFormed = true ∧
      (Instr.padd 7 7 7).WellFormed = true ∧ Instr.zeroize.WellFormed = true := by decide

/-- EncodeOfDecode: every operand at the top of its field. -/
theorem witness_EncodeOfDecode :
    decode 0x6FFFF7FF = .command (.sampleu 7 4095 2047) ∧ decode 0x67FFF7FF = .command (.samplecbd 7 7 511 2047) ∧
      decode 0x4FC807FF = .command (.decode 7 12 .ntt 2047) ∧ decode 0x0FFC0000 = .command (.padd 7 7 7) := by decide

/-- DecodeFollowsOpcodeMap: a word that selects a row with the extra condition, and one without it. -/
theorem witness_DecodeFollowsOpcodeMap :
    (∃ r ∈ opcodeMap, r.selects 0x49C00180 ∧ extraCondition 0x49C00180 = true) ∧
      ∃ r ∈ opcodeMap, r.selects 0x48000000 ∧ extraCondition 0x48000000 = false := by decide

/-- IllegalWordsAreTheSevenCases: each word of `test_decode_illegal` can be pending. -/
theorem witness_IllegalWordsAreTheSevenCases (w : Word) : (busyWith w).busy = true ∧ (busyWith w).pending = some w :=
  ⟨rfl, rfl⟩

/-! ### Witnesses: the step and the protocol -/

/-- StepRunsPendingCommand, both clauses. -/
theorem witness_StepRunsPendingCommand :
    (busyWith 0xF8000000).busy = true ∧ (busyWith 0xF8000000).pending = some 0xF8000000 ∧
      decode 0xF8000000 = .command .zeroize ∧ (busyWith 0xF8000000).schedule = [] ∧
      (scheduled (busyWith 0xF8000000) [.engine]).schedule = .engine :: [] := by decide

/-- CmdWriteAcceptsOrDrops, both clauses, the first by BUSY and by ERR. -/
theorem witness_CmdWriteAcceptsOrDrops (w : Word) :
    (scheduled (busyWith w) [.host (.write .word 0x00C w)]).busy = true ∧
      (scheduled faulted [.host (.write .word 0x00C w)]).err = true ∧
      (scheduled finished [.host (.write .word 0x00C w)]).busy = false ∧
      (scheduled finished [.host (.write .word 0x00C w)]).err = false ∧
      (scheduled finished [.host (.write .word 0x00C w)]).schedule = .host (.write .word 0x00C w) :: [] :=
  ⟨rfl, rfl, rfl, rfl, rfl⟩

/-- CtrlWriteStoresEnableAndClears: CLR acts, CLR is ignored, CLR is not asked for, and the read. -/
theorem witness_CtrlWriteStoresEnableAndClears :
    ((3 : Word).getLsbD 1 = true ∧ (scheduled faulted [.host (.write .word 0x004 3)]).busy = false) ∧
      (scheduled (busyWith 0) [.host (.write .word 0x004 3)]).busy = true ∧ (1 : Word).getLsbD 1 = false ∧
      (scheduled faulted [.host (.write .word 0x004 3)]).schedule = .host (.write .word 0x004 3) :: [] ∧
      (scheduled faulted [.host (.read .word 0x004)]).schedule = .host (.read .word 0x004) :: [] := by decide

/-- RegisterReadsReturnTheirFields, each offset and the ends of the unmapped range. -/
theorem witness_RegisterReadsReturnTheirFields :
    ∀ off ∈ [0x000, 0x008, 0x00C, 0x010, 0x014, 0x018, 0x01C, 0x020, 0x7FC],
      nextIs (.host (.read .word off)) (scheduled faulted [.host (.read .word off)]) ∧ off % 4 = 0 ∧ off < 0x800 := by
  decide

/-- BmemWindowWordIsFourBytes: the first and the last word, BUSY 0 and 1, reads and writes. -/
theorem witness_BmemWindowWordIsFourBytes (v : Word) : ∀ k ∈ [0, 511],
    k < 512 ∧ (scheduled finished [.host (.write .word (0x800 + 4 * k) v)]).bmem.wf ∧
      nextIs (.host (.write .word (0x800 + 4 * k) v)) (scheduled finished [.host (.write .word (0x800 + 4 * k) v)]) ∧
      (scheduled finished [.host (.write .word (0x800 + 4 * k) v)]).busy = false ∧
      nextIs (.host (.read .word (0x800 + 4 * k))) (scheduled finished [.host (.read .word (0x800 + 4 * k))]) ∧
      nextIs (.host (.write .word (0x800 + 4 * k) v)) (scheduled (busyWith 0) [.host (.write .word (0x800 + 4 * k) v)]) ∧
      nextIs (.host (.read .word (0x800 + 4 * k))) (scheduled (busyWith 0) [.host (.read .word (0x800 + 4 * k))]) ∧
      (scheduled (busyWith 0) [.host (.read .word (0x800 + 4 * k))]).busy = true := by
  intro k hk
  refine ⟨?_, Memory.wf_nil, rfl, rfl, rfl, rfl, rfl, rfl⟩
  simp at hk
  omega

/-- OutsideAccessesHaveNoEffect: narrow, misaligned, beyond the window, the ends of the unmapped range. -/
theorem witness_OutsideAccessesHaveNoEffect (w : Word) :
    (∀ x ∈ [(AccessSize.byte, 0x00C), (.half, 0x800), (.word, 0x00D), (.word, 4095), (.word, 4096), (.word, 0x020),
        (.word, 0x7FC)], x.1 ≠ .word ∨ x.2 % 4 ≠ 0 ∨ 4096 ≤ x.2 ∨ (0x020 ≤ x.2 ∧ x.2 ≤ 0x7FC)) ∧
      ∀ (size : AccessSize) (off : Nat),
        nextIs (.host (.read size off)) (scheduled faulted [.host (.read size off)]) ∧
        nextIs (.host (.write size off w)) (scheduled faulted [.host (.write size off w)]) :=
  ⟨by decide, fun _ _ => ⟨rfl, rfl⟩⟩

/-- ReadOnlyRegistersIgnoreWrites. -/
theorem witness_ReadOnlyRegistersIgnoreWrites (w : Word) : ∀ off ∈ [0x000, 0x008, 0x010, 0x014, 0x018, 0x01C],
    nextIs (.host (.write .word off w)) (scheduled finished [.host (.write .word off w)]) := fun _ _ => rfl

/-- ErrorStateIsSticky: a write of CTRL without CLR is next; and a CMD write. -/
theorem witness_ErrorStateIsSticky (w : Word) :
    (scheduled faulted [.host (.write .word 0x004 1)]).err = true ∧
      (scheduled faulted [.host (.write .word 0x004 1)]).busy = false ∧
      ¬ clearNext (scheduled faulted [.host (.write .word 0x004 1)]) ∧
      ¬ nextIs .reset (scheduled faulted [.host (.write .word 0x004 1)]) ∧
      nextIs (.host (.write .word 0x00C w)) (scheduled faulted [.host (.write .word 0x00C w)]) := by
  refine ⟨rfl, rfl, ?_, by decide, rfl⟩
  rintro ⟨-, v, hv, h1⟩
  simp only [nextIs, scheduled, List.head?_cons, Option.some.injEq, Event.host.injEq, Access.write.injEq] at hv
  rw [← hv.2.2] at h1
  exact absurd h1 (by decide)

/-- ClearThenCommandIsAccepted. -/
theorem witness_ClearThenCommandIsAccepted (v : Word) :
    (scheduled faulted [.host (.write .word 0x004 2), .host (.write .word 0x00C v)]).busy = false ∧
      (2 : Word).getLsbD 1 = true ∧
      (scheduled faulted [.host (.write .word 0x004 2), .host (.write .word 0x00C v)]).schedule =
        .host (.write .word 0x004 2) :: .host (.write .word 0x00C v) :: [] := ⟨rfl, by decide, rfl⟩

/-- ResetGivesEveryFieldItsValue: reset with a command pending. -/
theorem witness_ResetGivesEveryFieldItsValue : nextIs .reset (scheduled (busyWith 0x18000000) [.reset]) := rfl

/-- InterruptFollowsStatus, each clause. -/
theorem witness_InterruptFollowsStatus :
    ((busyWith 0xF8000000).busy = true ∧ engineTurn (busyWith 0xF8000000) ∧ ∃ t, step (busyWith 0xF8000000) = .next t) ∧
      (acceptNext (scheduled finished [.host (.write .word 0x00C 0)]) ∧
        ∃ t, step (scheduled finished [.host (.write .word 0x00C 0)]) = .next t) ∧
      (clearNext (scheduled faulted [.host (.write .word 0x004 2)]) ∧
        ∃ t, step (scheduled faulted [.host (.write .word 0x004 2)]) = .next t) ∧
      (2 : Word).getLsbD 0 = false :=
  ⟨⟨rfl, .inl rfl, _, rfl⟩, ⟨⟨rfl, rfl, _, rfl⟩, _, rfl⟩, ⟨⟨rfl, _, rfl, rfl⟩, _, rfl⟩, by decide⟩

/-! ### Witnesses: the commands -/

/-- The tag cases of PADD, PSUB, NTT, INTT and PWMUL: first source empty, second empty, mixed, both STD, both NTT. -/
theorem witness_register_commands :
    State.reset.tag 0 = .empty ∧
      ((load 0 [1] .std State.reset).tag 0 ≠ .empty ∧ (load 0 [1] .std State.reset).tag 1 = .empty) ∧
      ((load 0 [1] .ntt (allTagged .std)).tag 0 ≠ .empty ∧ (load 0 [1] .ntt (allTagged .std)).tag 1 ≠ .empty ∧
        (load 0 [1] .ntt (allTagged .std)).tag 0 ≠ (load 0 [1] .ntt (allTagged .std)).tag 1 ∧
        (load 0 [1] .ntt (allTagged .std)).tag 0 = .ntt ∧ (load 0 [1] .ntt (allTagged .std)).tag 1 = .std) ∧
      ((allTagged .std).tag 0 = .std ∧ (allTagged .std).tag 1 = .std) ∧
      ((allTagged .ntt).tag 0 = .ntt ∧ (allTagged .ntt).tag 1 = .ntt) := by decide +kernel

/-- The registers of the fresh state hold zeros. -/
theorem coeffs_allTagged (tag : Tag) (r : Reg) : (allTagged tag).coeffs r = Vector.replicate 256 0 := by
  simp [allTagged, State.coeffs, State.reset]

/-- ENCODE and SERIALIZE: the object ends at byte 2048, one beyond, each tag, a value that fits and one that does not. -/
theorem witness_EncodePacksCoefficients :
    widthLegal 12 ∧ widthLegal 1 ∧ addrFits 0x680 ∧ 0x680 + 32 * 12 = 2048 ∧ 2048 < 0x681 + 32 * 12 ∧
      (allTagged .std).bmem.wf ∧ State.reset.tag 3 = .empty ∧ (allTagged .std).tag 3 = domainTag .std ∧
      ((allTagged .std).tag 3 ≠ .empty ∧ (allTagged .std).tag 3 ≠ domainTag .ntt) ∧
      (∀ i : Fin 256, ((allTagged .std).coeffs 3)[i].val < boundOf 12) ∧
      firstTooLarge (fun k => ((load 3 [16] .std State.reset).coeffs 3)[k].val) 4 0 16 :=
  ⟨by decide, by decide, by decide, by decide, by decide, Memory.wf_nil, by decide, by decide, by decide,
    fun i => ((allTagged .std).coeffs 3)[i].isLt, by decide +kernel, by decide, fun k hk => absurd hk (Fin.not_lt_zero k)⟩

/-- SERIALIZE: values that fit, and the value 3329 that does not (V34). -/
theorem witness_SerializeCompressesAndPacks :
    (allTagged .ntt).tag 3 = .ntt ∧
      (∀ i : Fin 256, (2 * ((allTagged .std).coeffs 3)[i].val * 2 ^ 11 + 3329) / (2 * 3329) % 2 ^ 11 < boundOf 11) ∧
      firstTooLarge
        (fun i => (2 * ((load 3 [2706] .std State.reset).coeffs 3)[i].val * 2 ^ 12 + 3329) / (2 * 3329) % 2 ^ 12)
        12 0 3329 :=
  ⟨by decide, fun _ => Nat.mod_lt _ (by decide), by decide +kernel, by decide,
    fun k hk => absurd hk (Fin.not_lt_zero k)⟩

/-- DECODE and DESERIALIZE: the object ends at byte 2048, and one beyond. -/
theorem witness_DecodeUnpacksCoefficients :
    widthLegal 12 ∧ addrFits 0x680 ∧ 0x680 + 32 * 12 ≤ 2048 ∧ widthLegal 1 ∧ addrFits 0x7E1 ∧ 2048 < 0x7E1 + 32 * 1 := by
  decide

/-- SAMPLECBD: a wrong length, an object that ends at byte 2048, and one beyond. -/
theorem witness_SamplecbdSubtractsBitCounts :
    binomialLegal 7 ∧ (447 ≠ 64 * 7 ∧ 447 < 512) ∧ (448 = 64 * 7 ∧ 0x640 + 64 * 7 ≤ 2048) ∧
      (448 = 64 * 7 ∧ 2048 < 0x641 + 64 * 7 ∧ addrFits 0x641) := by decide

/-- Every candidate of an empty BMEM is accepted. -/
theorem length_accepted_empty (a g : Nat) : (accepted [] a g).length = 2 * g := by
  induction g with
  | zero => rfl
  | succ g ih => simp_all [accepted, candidates, List.range_succ]; omega

/-- SAMPLEU: a stream that ends at byte 2048, one beyond, one group too few, and the least number of groups. -/
theorem witness_SampleuTakesFirstAccepted :
    (384 < 4096 ∧ addrFits 1664 ∧ 1664 + 384 ≤ 2048) ∧ 2048 < 1664 + 385 ∧
      (accepted State.reset.bmem 1664 (383 / 3)).length < 256 ∧
      (128 ≤ 384 / 3 ∧ 256 ≤ (accepted State.reset.bmem 1664 128).length ∧
        ∀ g', g' < 128 → (accepted State.reset.bmem 1664 g').length < 256) := by
  simp only [show State.reset.bmem = [] from rfl, length_accepted_empty]
  exact ⟨by decide, by decide, by decide, by decide, by decide, fun g' h => by omega⟩

/-- WhenPackersHaveDataFaults, each clause. -/
theorem witness_WhenPackersHaveDataFaults :
    (0x680 + 384 ≤ 2048 ∧ (allTagged .ntt).tag 3 = domainTag .ntt) ∧
      (1 ≤ 11 ∧ 11 ≤ 11 ∧ 0x6A0 + 32 * 11 ≤ 2048 ∧ (allTagged .std).tag 3 = .std) ∧
      ((load 3 [2706] .std State.reset).tag 3 = .std ∧
        ∃ i : Fin 256, 2706 ≤ ((load 3 [2706] .std State.reset).coeffs 3)[i].val) ∧
      ((allTagged .std).tag 3 = .std ∧ ∀ i : Fin 256, ((allTagged .std).coeffs 3)[i].val < 2706) :=
  ⟨by decide, by decide, ⟨by decide, 0, by decide +kernel⟩, by decide, fun i => by simp [coeffs_allTagged]⟩

/-- ErrinfoFields, at the ends of the ranges. -/
theorem witness_ErrinfoFields : 255 < 256 ∧ 4095 < 4096 ∧ 511 < 512 ∧ 0 < 256 := by decide

/-! ### Witnesses: the scalar functions and the packer -/

/-- ModIsTheUniqueResidue: the residue of -1 (V1). -/
theorem witness_ModIsTheUniqueResidue :
    0 < 3329 ∧ (0 : Int) ≤ 3328 ∧ (3328 : Int) < 3329 ∧ ((3329 : Nat) : Int) ∣ -1 - 3328 := by decide

/-- CompressRoundsToNearest, DecompressRoundsToNearest and CompressUndoesDecompress at the ends of their ranges; the tie
of d = 1 is among them. -/
theorem witness_rounding :
    (3328 < 3329 ∧ widthLegal 12) ∧ (0 < 3329 ∧ widthLegal 1) ∧ 4095 < 2 ^ 12 ∧ 1 < 2 ^ 1 ∧ (1 ≤ 11 ∧ 11 ≤ 11 ∧ 2047 < 2 ^ 11) := by
  decide

/-- BitsAndBytesAreInverse. -/
theorem witness_BitsAndBytesAreInverse : (List.replicate 16 true).length % 8 = 0 ∧ 7 < 8 * [(0xA5 : Byte)].length := by
  decide

/-- PackerFunctionsAreInverse, each clause. -/
theorem witness_PackerFunctionsAreInverse :
    (∀ i : Fin 256, (Vector.replicate 256 3328 : Values)[i] < boundOf 12) ∧
      (1 ≤ 11 ∧ 11 < 12 ∧ (List.replicate 352 (0xFF : Byte)).length = 32 * 11) ∧
      (List.replicate 384 (0xFF : Byte)).length = 384 := by
  refine ⟨?_, ⟨by decide, by decide, List.length_replicate ..⟩, List.length_replicate ..⟩
  intro i
  simp [boundOf]

/-! ### Witnesses: the transforms -/

/-- TransformsAreInverse: a table with the inverse pairing, every entry the square root 1729 of -1. -/
theorem witness_TransformsAreInverse : InversePairing { zeta := Vector.replicate 128 1729 } := by
  unfold InversePairing; decide +kernel

/-- A table of powers of 17 cubed, another 256th root of unity. -/
def otherTable : Config where
  zeta := Vector.ofFn fun i => modQ (17 ^ (3 * ((List.range 7).map fun k => i.val / 2 ^ k % 2 * 2 ^ (6 - k)).sum) : Nat)

/-- TransformIsEvaluation and TransformOfProduct: a table with the tower. -/
theorem witness_TransformIsEvaluation : Tower otherTable := by unfold Tower; decide +kernel

/-! ### Witnesses: host sequences -/

/-- ScheduledCommandsRunInOrder: one command, and none. -/
theorem witness_ScheduledCommandsRunInOrder :
    finished.schedule = [] ∧ finished.busy = false ∧ finished.err = false ∧
      (∃ t, runCommands [0xF8000000] finished = .next t ∧ t.err = false) ∧
      ∃ t, runCommands [] finished = .next t ∧ t.err = false :=
  ⟨rfl, rfl, rfl, ⟨_, rfl, rfl⟩, _, rfl, rfl⟩

/-- DotSumsPointwiseProducts: two products, the first of them on the destination's own register. -/
theorem witness_DotSumsPointwiseProducts :
    (allTagged .ntt).busy = false ∧ (allTagged .ntt).err = false ∧
      (∀ x ∈ ((4, 0) :: [(2, 3)] : List (Reg × Reg)), (allTagged .ntt).tag x.1 = .ntt ∧ (allTagged .ntt).tag x.2 = .ntt) ∧
      (5 : Reg) ≠ 4 ∧ ∀ x ∈ ([(2, 3)] : List (Reg × Reg)), x.1 ≠ 4 ∧ x.1 ≠ 5 ∧ x.2 ≠ 4 ∧ x.2 ≠ 5 := by decide +kernel

/-- PseudoInstructionLengths: lists that fit (for `matvec`: destinations, rows, vector and each row of length 2), and lists
that do not, in each way: fewer destinations than rows, a vector longer than the destinations, a short row. -/
theorem witness_PseudoInstructionLengths :
    ([0, 1] : List Reg).length = ([2, 3] : List Reg).length ∧ ([0, 1] : List Reg).length ≠ ([2] : List Reg).length ∧
      ([0] : List Reg) ≠ [] ∧
      (([6, 7] : List Reg).length = ([[0, 1], [2, 3]] : List (List Reg)).length ∧
        ([6, 7] : List Reg).length = ([4, 5] : List Reg).length ∧
        ∀ row ∈ ([[0, 1], [2, 3]] : List (List Reg)), row.length = ([4, 5] : List Reg).length) ∧
      ([6] : List Reg).length ≠ ([[0, 1], [2, 3]] : List (List Reg)).length ∧
      ([6, 7] : List Reg).length ≠ ([3, 4, 5] : List Reg).length ∧
      ∃ row ∈ ([[0, 1], [2]] : List (List Reg)), row.length ≠ ([4, 5] : List Reg).length := by decide

/-- R256: two rows of three with a vector of three, and no rows with a vector, are refused. -/
theorem test_matvec_vector_length :
    matvec [6, 7] 5 [[resident 0, resident 1, resident 2], [resident 0, resident 1, resident 2]] [2, 3, 4] =
        .error .dimensionMismatch ∧
      matvec [] 5 [] [2] = .error .dimensionMismatch := ⟨rfl, rfl⟩

/-- R254, R256: a 2×2 arrangement is transposed, a 2×3 one is refused. -/
theorem test_transpose :
    transpose [[resident 0, resident 1], [resident 2, resident 3]] =
        .ok [[resident 0, resident 2], [resident 1, resident 3]] ∧
      transpose [[resident 0, resident 1, resident 2], [resident 3, resident 4, resident 5]] =
        .error .dimensionMismatch := ⟨rfl, rfl⟩

/-- TransposeExchangesIndices: an arrangement of each kind. -/
theorem witness_TransposeExchangesIndices :
    (∀ row ∈ [[resident 0, resident 1], [resident 2, resident 3]],
      row.length = [[resident 0, resident 1], [resident 2, resident 3]].length) ∧
      ∃ row ∈ [[resident 0, resident 1], [resident 2]], row.length ≠ [[resident 0, resident 1], [resident 2]].length := by
  decide

/-- R231: the run of the illegal word 0 ends when it faults, not well, although a reset follows and clears ERR. -/
theorem test_endOfRun :
    endOfRun (scheduled State.reset [.host (.write .word 0x00C 0), .engine, .reset]) =
        .next { faulted with schedule := [.reset] } ∧
      runEndsWell (scheduled State.reset [.host (.write .word 0x00C 0), .engine, .reset]) = false ∧
      runEndsWell (scheduled State.reset [.host (.write .word 0x00C 0xF8000000), .engine, .reset]) = true :=
  ⟨rfl, rfl, rfl⟩

/-! ### Witnesses: whole-machine rules -/

/-- StepKeepsInvariant, StepAnswersNext, RunEndsAtFirstMoment, PendingCommandFinishes and PendingCommandIgnoresHostAccesses: a state with a
command pending meets the invariant, and its step answers a next state. -/
theorem witness_pending_invariant :
    (busyWith 0xF8000000).Inv ∧ (busyWith 0xF8000000).busy = true ∧
      (busyWith 0xF8000000).pending = some 0xF8000000 ∧ ∃ t, step (busyWith 0xF8000000) = .next t :=
  ⟨{ status := ⟨by decide, by decide, by decide, by decide⟩
     pendingWord := ⟨by decide, by decide⟩
     emptyZero := fun r _ => coeffs_allTagged .empty r
     memory := Memory.wf_nil
     resultCount := .inl rfl }, rfl, rfl, _, rfl⟩

/-- StatusBitsChangeOnlyAtTheirEvents: each change happens somewhere. -/
theorem witness_StatusBitsChangeOnlyAtTheirEvents :
    let accept := scheduled finished [.host (.write .word 0x00C 0)]
    let clear := scheduled faulted [.host (.write .word 0x004 2)]
    let drop := scheduled faulted [.host (.write .word 0x00C 0)]
    let dropped := scheduled { faulted with ovr := true } [.host (.write .word 0x004 2)]
    (step accept = .next (stepped accept) ∧ accept.busy = false ∧ (stepped accept).busy = true ∧ accept.done = true ∧
        (stepped accept).done = false) ∧
      (step (busyWith 0xF8000000) = .next (stepped (busyWith 0xF8000000)) ∧ (busyWith 0xF8000000).busy = true ∧
        (stepped (busyWith 0xF8000000)).busy = false ∧ (busyWith 0xF8000000).done = false ∧
        (stepped (busyWith 0xF8000000)).done = true) ∧
      (step (busyWith 0) = .next (stepped (busyWith 0)) ∧ (busyWith 0).err = false ∧ (stepped (busyWith 0)).err = true ∧
        (stepped (busyWith 0)).ecode ≠ (busyWith 0).ecode) ∧
      (step clear = .next (stepped clear) ∧ clear.err = true ∧ (stepped clear).err = false) ∧
      (step drop = .next (stepped drop) ∧ drop.ovr = false ∧ (stepped drop).ovr = true) ∧
      (step dropped = .next (stepped dropped) ∧ dropped.ovr = true ∧ (stepped dropped).ovr = false) :=
  ⟨⟨rfl, rfl, rfl, rfl, rfl⟩, ⟨rfl, rfl, rfl, rfl, rfl⟩, ⟨rfl, rfl, rfl, by decide⟩, ⟨rfl, rfl, rfl⟩, ⟨rfl, rfl, rfl⟩,
    rfl, rfl, rfl⟩

/-- LastCommandIsTheLastAccepted, each clause. -/
theorem witness_LastCommandIsTheLastAccepted (w : Word) :
    acceptNext (scheduled finished [.host (.write .word 0x00C w)]) ∧
      nextIs (.host (.write .word 0x00C w)) (scheduled finished [.host (.write .word 0x00C w)]) ∧
      nextIs .reset (scheduled finished [.reset]) ∧
      (¬ acceptNext (scheduled faulted [.host (.write .word 0x00C w)]) ∧
        ¬ nextIs .reset (scheduled faulted [.host (.write .word 0x00C w)])) ∧
      (∃ t, step (scheduled finished [.host (.write .word 0x00C w)]) = .next t) ∧
      (∃ t, step (scheduled finished [.reset]) = .next t) ∧
      ∃ t, step (scheduled faulted [.host (.write .word 0x00C w)]) = .next t :=
  ⟨⟨rfl, rfl, w, rfl⟩, rfl, rfl, ⟨fun h => (nomatch h.2.1), fun h => (nomatch h)⟩, ⟨_, rfl⟩, ⟨_, rfl⟩, ⟨_, rfl⟩⟩

/-- RegistersChangeOnlyAtCompletion: ZEROIZE changes the tags of loaded registers. -/
theorem witness_RegistersChangeOnlyAtCompletion :
    step (acceptCommand 0xF8000000 (allTagged .std)) = .next (stepped (acceptCommand 0xF8000000 (allTagged .std))) ∧
      (stepped (acceptCommand 0xF8000000 (allTagged .std))).t ≠ (acceptCommand 0xF8000000 (allTagged .std)).t :=
  ⟨rfl, by decide +kernel⟩

/-- CommandDependsOnDataOnly: two states that differ in their controls. -/
theorem witness_CommandDependsOnDataOnly : sameData (allTagged .std) { allTagged .std with ie := true, lastCmd := 7 } :=
  ⟨rfl, rfl, rfl⟩

end Sys2Proof.Tests
end

section
/-! PROOF SUPPORT. The step by the event that is next, in the words of Safety.lean (`nextIs`, `engineTurn`): what the
step is for each kind of event (00_scope.md R12), and what the two host writes with an effect of their own are. -/

namespace Sys2Proof.Machine

theorem nextIs_iff {e : Event} {s : State} : nextIs e s ↔ s.schedule = e :: s.schedule.tail :=
  ⟨fun h => (List.cons_head?_tail h).symm, fun h => by rw [nextIs, h, List.head?_cons]⟩

theorem step_of_nextIs_host {s : State} {a : Access} (h : nextIs (.host a) s) :
    step s = .next (hostAccess a { s with schedule := s.schedule.tail }) :=
  step_host (nextIs_iff.1 h)

theorem step_of_nextIs_reset {s : State} (h : nextIs .reset s) :
    step s = .next (resetEngine { s with schedule := s.schedule.tail }) :=
  step_reset (nextIs_iff.1 h)

theorem step_of_engineTurn {s : State} (h : engineTurn s) :
    step s = engineStep { s with schedule := s.schedule.tail } := by
  rcases h with hnil | hnext
  · have same : { s with schedule := s.schedule.tail } = s := by rw [hnil, List.tail_nil, ← hnil]
    rw [step_nil hnil, same]
  · exact step_engine (nextIs_iff.1 hnext)

/-- An engine step that is enabled and does not stop the model has a word pending, so it ends as a command ends. -/
theorem ends_of_engineStep_next {s t : State} (hb : s.busy = true) (h : engineStep s = .next t) : Ends s (.next t) := by
  cases hp : s.pending with
  | none => simp [engineStep, hb, hp] at h
  | some w => exact h ▸ engineStep_ends hb hp

@[simp] theorem hostAccess_write_ctrl (w : Word) (s : State) :
    hostAccess (.write .word 0x004 w) s = writeCtrl w s := rfl

@[simp] theorem hostAccess_write_cmd (w : Word) (s : State) :
    hostAccess (.write .word 0x00C w) s = writeCmd w s := rfl

/-- The CLR action takes place (R34). -/
theorem writeCtrl_clears {w : Word} {s : State} (hw : w.getLsbD 1 = true) (hb : s.busy = false) :
    writeCtrl w s = clearStatus { s with ie := w.getLsbD 0 } := if_pos ⟨hw, hb⟩

/-- "bit 0 into IE always" (R34): with the CLR action and without it. -/
@[simp] theorem writeCtrl_ie (w : Word) (s : State) : (writeCtrl w s).ie = w.getLsbD 0 := by
  simp only [writeCtrl]
  split_ifs <;> rfl

theorem writeCmd_accepts {w : Word} {s : State} (hb : s.busy = false) (he : s.err = false) :
    writeCmd w s = acceptCommand w s := if_neg (by simp [hb, he])

/-- A CMD write that is accepted (`acceptNext`). -/
theorem step_accepts {s : State} {w : Word} (hb : s.busy = false) (he : s.err = false)
    (hw : nextIs (.host (.write .word 0x00C w)) s) :
    step s = .next (acceptCommand w { s with schedule := s.schedule.tail }) :=
  (step_of_nextIs_host hw).trans (congrArg Host.Outcome.next (writeCmd_accepts hb he))

/-- A CTRL write whose CLR action takes place (`clearNext`). -/
theorem step_clears {s : State} {w : Word} (hb : s.busy = false) (hclr : w.getLsbD 1 = true)
    (hw : nextIs (.host (.write .word 0x004 w)) s) :
    step s = .next (clearStatus { s with schedule := s.schedule.tail, ie := w.getLsbD 0 }) :=
  (step_of_nextIs_host hw).trans (congrArg Host.Outcome.next (writeCtrl_clears hclr hb))

end Sys2Proof.Machine
end

section
/-! PROOF SUPPORT. The values of R42 after the reset event, where they are more than a field of `State.reset`. -/

namespace Sys2Proof.Machine

@[simp] theorem coeffs_resetEngine (s : State) (r : Reg) : (resetEngine s).coeffs r = Vector.replicate 256 0 := by
  simp [State.coeffs, State.reset]

@[simp] theorem tag_resetEngine (s : State) (r : Reg) : (resetEngine s).tag r = .empty := by
  simp [State.tag, State.reset]

@[simp] theorem statusWord_resetEngine (s : State) : statusWord (resetEngine s) = 0 := by
  simp [statusWord, State.reset, bit]

/-- Every tag is `EMPTY`, whose code is 0. -/
@[simp] theorem tagsWord_resetEngine (s : State) : tagsWord (resetEngine s) = 0 := by
  simp [tagsWord, State.reset, Tag.code]

@[simp] theorem readRegister_id (s : State) : readRegister s 0x000 = idWord := rfl

/-- The state right after reset is one that the reset event leaves as it is. -/
theorem resetEngine_reset : resetEngine State.reset = State.reset := rfl

end Sys2Proof.Machine
end

section
/-! PROOF SUPPORT. The interrupt output (10_state.md R43) after each update that it can see. -/

namespace Sys2Proof.Machine

theorem irq_iff (s : State) : irq s = true ↔ s.ie = true ∧ (s.done = true ∨ s.err = true) := by
  rw [irq, Bool.and_eq_true, Bool.or_eq_true]

theorem irq_of_disabled {s : State} (h : s.ie = false) : irq s = false := by rw [irq, h, Bool.false_and]

@[simp] theorem irq_resetEngine (s : State) : irq (resetEngine s) = false := irq_of_disabled rfl

@[simp] theorem irq_clearStatus (s : State) : irq (clearStatus s) = false := by simp [irq]

@[simp] theorem irq_completed (result : Word) (s : State) : irq (completed result s) = s.ie := by simp [irq]

@[simp] theorem irq_takeFault (f : CommandFault) (s : State) : irq (takeFault f s) = s.ie := by simp [irq]

/-- Acceptance clears DONE, and a command is accepted only when ERR is 0 (R222). -/
theorem irq_acceptCommand {s : State} (h : s.err = false) (w : Word) : irq (acceptCommand w s) = false := by
  simp [irq, h]

/-- No command writes `IE`. -/
theorem ie_of_dataWrite {s s' : State} (h : DataWrite s s') : s'.ie = s.ie := by cases h <;> rfl

/-- A command ends with DONE or with ERR, so the output is then `IE`. -/
theorem irq_of_ends {s t : State} (h : Ends s (.next t)) : irq t = s.ie := by
  rcases h with ⟨f, hf⟩ | ⟨result, s', hw, hc⟩
  · cases hf
    exact irq_takeFault f s
  · cases hc
    exact (irq_completed result s').trans (ie_of_dataWrite hw)

theorem irq_of_engineTurn {s t : State} (hb : s.busy = true) (he : engineTurn s) (h : step s = .next t) :
    irq t = s.ie := by
  rw [step_of_engineTurn he] at h
  have ends := ends_of_engineStep_next (s := { s with schedule := s.schedule.tail }) hb h
  rw [irq_of_ends ends]

theorem irq_of_acceptNext {s t : State} (ha : acceptNext s) (h : step s = .next t) : irq t = false := by
  obtain ⟨hb, he, w, hw⟩ := ha
  rw [step_accepts hb he hw] at h
  cases h
  exact irq_acceptCommand he w

theorem irq_of_clearNext {s t : State} (hc : clearNext s) (h : step s = .next t) : irq t = false := by
  obtain ⟨hb, w, hw, hclr⟩ := hc
  rw [step_clears hb hclr hw] at h
  cases h
  exact irq_clearStatus _

/-- A CTRL write that clears `IE`, with the CLR action or without it. -/
theorem irq_of_disabling {s t : State} {w : Word} (hw : nextIs (.host (.write .word 0x004 w)) s)
    (hie : w.getLsbD 0 = false) (h : step s = .next t) : irq t = false := by
  rw [step_of_nextIs_host hw, hostAccess_write_ctrl] at h
  cases h
  exact irq_of_disabled ((writeCtrl_ie w _).trans hie)

end Sys2Proof.Machine
end

section
/-! PROOFS. The state at reset and the interrupt output (10_state.md R42, R43). -/

open Sys2Proof Sys2Proof.Machine

/-- Settles O15: the reset event gives every field the value of R42, and `State.reset` is what it leaves of itself. -/
theorem resetGivesEveryFieldItsValue : Obligations.ResetGivesEveryFieldItsValue := by
  unfold Obligations.ResetGivesEveryFieldItsValue
  intro isReset
  have values : ∀ s : State, isReset (resetEngine s) := fun s =>
    ⟨fun r i => by simp, tag_resetEngine s, Memory.read_nil, rfl, statusWord_resetEngine s, rfl, rfl, rfl, rfl, rfl, rfl,
      rfl, tagsWord_resetEngine s, rfl, rfl, readRegister_id _, irq_resetEngine s⟩
  have ofReset : isReset State.reset := by
    rw [← resetEngine_reset]
    exact values State.reset
  exact ⟨ofReset, fun s h => ⟨_, step_of_nextIs_reset h, values _, rfl⟩⟩

/-- Settles O16: R43's formula, then one lemma for each event at which the output falls or follows `IE`. -/
theorem interruptFollowsStatus : Obligations.InterruptFollowsStatus :=
  ⟨irq_iff, fun _ _ => irq_of_engineTurn, fun _ _ => irq_of_acceptNext, fun _ _ => irq_of_clearNext,
    fun _ _ _ => irq_of_disabling⟩

end

section
/-! PROOF SUPPORT. The BMEM window (20_memory.md R63, R308): a word is the little-endian value of four bytes, and what a
host access to word `k` of the window does, with BUSY 0 and with BUSY 1. -/

namespace Sys2Proof.Machine

theorem toNat_bmemWord (m : Memory) (a : Nat) :
    (bmemWord m a).toNat = (m.read a).toNat + 2 ^ 8 * (m.read (a + 1)).toNat + 2 ^ 16 * (m.read (a + 2)).toNat +
      2 ^ 24 * (m.read (a + 3)).toNat := by
  rw [bmemWord, BitVec.toNat_ofNat, Nat.mod_eq_of_lt (by omega)]

theorem length_wordBytes (v : Word) : (wordBytes v).length = 4 := rfl

theorem getD_wordBytes (v : Word) {j : Nat} (hj : j < 4) : (wordBytes v).getD j 0 = v.extractLsb' (8 * j) 8 := by
  interval_cases j <;> rfl

/-- Storing the word `v` at `a` puts its bits `[8j+7 : 8j]` into byte `a + j`. -/
theorem read_writeBytes_wordBytes {m : Memory} (h : m.wf) {a : Nat} (ha : a + 4 ≤ 2048) (v : Word) {j : Nat}
    (hj : j < 4) : ((m.writeBytes a (wordBytes v)).read (a + j)).toNat = field v (8 * j + 7) (8 * j) := by
  rw [Memory.read_writeBytes h (wordBytes v) ha, if_pos ⟨by omega, by rw [length_wordBytes]; omega⟩,
    Nat.add_sub_cancel_left, getD_wordBytes v hj, BitVec.extractLsb'_toNat, field,
    show 8 * j + 7 + 1 - 8 * j = 8 by omega]

/-- Storing the word `v` at `a` changes no byte outside its four. -/
theorem sameBytesOutside_storeBytes_wordBytes {s : State} (h : s.bmem.wf) {a : Nat} (ha : a + 4 ≤ 2048) (v : Word) :
    sameBytesOutside a 4 s (s.storeBytes a (wordBytes v)) := fun x hx => by
  rw [storeBytes_bmem, Memory.read_writeBytes h (wordBytes v) ha, if_neg (by rw [length_wordBytes]; omega)]

theorem sameEngine_hostRead (s : State) (size : AccessSize) (off : Nat) : sameEngine s (hostRead size off s) :=
  ⟨⟨rfl, rfl, rfl⟩, rfl, rfl, rfl, rfl, rfl, rfl, rfl, rfl, rfl, rfl⟩

theorem regularAccess_bmem {k : Nat} (hk : k < 512) : regularAccess .word (bmemOffset + 4 * k) :=
  ⟨rfl, by rw [bmemOffset]; omega, by rw [bmemOffset, windowSize]; omega⟩

theorem readValue_bmem {s : State} {k : Nat} (hk : k < 512) (hb : s.busy = false) :
    readValue s .word (bmemOffset + 4 * k) = bmemWord s.bmem (4 * k) := by
  rw [readValue, if_neg (not_not_intro (regularAccess_bmem hk)), if_neg (by omega), if_neg (by simp [hb]),
    Nat.add_sub_cancel_left]

theorem hostWrite_bmem (s : State) {k : Nat} (hk : k < 512) (v : Word) :
    hostWrite .word (bmemOffset + 4 * k) v s = writeBmem (4 * k) v s := by
  rw [hostWrite, if_neg (not_not_intro (regularAccess_bmem hk)), if_neg (by rw [bmemOffset]; omega),
    if_neg (by rw [bmemOffset]; omega), if_neg (by omega), Nat.add_sub_cancel_left]

theorem writeBmem_stores {s : State} (hb : s.busy = false) (a : Nat) (v : Word) :
    writeBmem a v s = s.storeBytes a (wordBytes v) := if_neg (by simp [hb])

theorem writeBmem_drops {s : State} (hb : s.busy = true) (a : Nat) (v : Word) :
    writeBmem a v s = { s with ovr := true } := if_pos hb

/-- A host write of word `k` of the BMEM window, whatever BUSY is. -/
theorem step_writes_bmem {s : State} {k : Nat} (hk : k < 512) {v : Word}
    (h : nextIs (.host (.write .word (bmemOffset + 4 * k) v)) s) :
    step s = .next (writeBmem (4 * k) v { s with schedule := s.schedule.tail }) :=
  (step_of_nextIs_host h).trans (congrArg Host.Outcome.next (hostWrite_bmem _ hk v))

theorem step_stores_bmem {s : State} {k : Nat} (hk : k < 512) (hb : s.busy = false) {v : Word}
    (h : nextIs (.host (.write .word (bmemOffset + 4 * k) v)) s) :
    step s = .next (State.storeBytes { s with schedule := s.schedule.tail } (4 * k) (wordBytes v)) := by
  rw [step_writes_bmem hk h, writeBmem_stores]
  exact hb

theorem step_drops_bmem {s : State} {k : Nat} (hk : k < 512) (hb : s.busy = true) {v : Word}
    (h : nextIs (.host (.write .word (bmemOffset + 4 * k) v)) s) :
    step s = .next { s with schedule := s.schedule.tail, ovr := true } := by
  rw [step_writes_bmem hk h, writeBmem_drops]
  exact hb

end Sys2Proof.Machine
end

section
/-! PROOF SUPPORT. The accesses that reach nothing of the engine (20_memory.md R62, R67). -/

namespace Sys2Proof.Machine

/-- The access is outside the interface (R62) or to an unmapped offset (R67). -/
def ReachesNothing (size : AccessSize) (off : Nat) : Prop :=
  ¬ regularAccess size off ∨ (0x020 ≤ off ∧ off < bmemOffset)

/-- A regular access at `0x800` or above is one to the BMEM window, so `0x7FC` is the last unmapped offset. -/
theorem reachesNothing_of {size : AccessSize} {off : Nat}
    (h : size ≠ .word ∨ off % 4 ≠ 0 ∨ 4096 ≤ off ∨ (0x020 ≤ off ∧ off ≤ 0x7FC)) : ReachesNothing size off := by
  rcases h with hsize | halign | hbeyond | hunmapped
  · exact .inl fun hr => hsize hr.1
  · exact .inl fun ⟨_, hal, _⟩ => halign hal
  · exact .inl fun ⟨_, _, hin⟩ => absurd hin (not_lt.2 hbeyond)
  · exact .inr ⟨hunmapped.1, by rw [bmemOffset]; omega⟩

theorem readRegister_unmapped (s : State) {off : Nat} (h : 0x020 ≤ off) : readRegister s off = 0 := by
  simp only [readRegister]
  iterate 8 rw [if_neg (by omega)]

theorem readValue_of_reachesNothing {size : AccessSize} {off : Nat} (h : ReachesNothing size off) (s : State) :
    readValue s size off = 0 := by
  by_cases hr : regularAccess size off
  · obtain ⟨hlow, hhigh⟩ := h.resolve_left (not_not_intro hr)
    rw [readValue, if_neg (not_not_intro hr), if_pos hhigh, readRegister_unmapped s hlow]
  · rw [readValue, if_pos hr]

theorem not_usesFreeValue_of_reachesNothing {size : AccessSize} {off : Nat} (h : ReachesNothing size off) (s : State) :
    ¬ usesFreeValue s size off := fun ⟨hr, hbmem, _⟩ =>
  absurd (h.resolve_left (not_not_intro hr)).2 (not_lt.2 hbmem)

theorem hostRead_of_reachesNothing {size : AccessSize} {off : Nat} (h : ReachesNothing size off) (s : State) :
    hostRead size off s = { s with readData := 0 } := by
  rw [hostRead, readValue_of_reachesNothing h, if_neg (not_usesFreeValue_of_reachesNothing h s)]

theorem hostWrite_of_reachesNothing {size : AccessSize} {off : Nat} (h : ReachesNothing size off) (w : Word)
    (s : State) : hostWrite size off w s = s := by
  by_cases hr : regularAccess size off
  · obtain ⟨hlow, hhigh⟩ := h.resolve_left (not_not_intro hr)
    rw [hostWrite, if_neg (not_not_intro hr), if_neg (by omega), if_neg (by omega), if_pos hhigh]
  · rw [hostWrite, if_pos hr]

end Sys2Proof.Machine
end

section
/-! PROOFS. Memory access by the host (20_memory.md R62, R63, R67, R308). -/

open Sys2Proof Sys2Proof.Machine

/-- Settles O10: a write with BUSY 0 stores the word's four bytes, one with BUSY 1 is dropped; a read leaves the engine
as it is, and with BUSY 0 returns the word of the four bytes. -/
theorem bmemWindowWordIsFourBytes : Obligations.BmemWindowWordIsFourBytes := by
  intro s k v hk hwf
  have fits : 4 * k + 4 ≤ 2048 := by omega
  have byte {j : Nat} (hj : j < 4) := read_writeBytes_wordBytes hwf fits v hj
  refine ⟨fun hw hb => ?_, fun hr hb => ?_, fun hw hb => step_drops_bmem hk hb hw, fun hr _ => ?_⟩
  · exact ⟨_, step_stores_bmem hk hb hw, rfl, byte (j := 0) (by omega), byte (j := 1) (by omega),
      byte (j := 2) (by omega), byte (j := 3) (by omega), sameBytesOutside_storeBytes_wordBytes hwf fits v,
      ⟨rfl, rfl, rfl⟩, rfl, rfl, rfl, rfl, rfl, rfl, rfl, rfl, rfl, rfl⟩
  · exact ⟨_, step_of_nextIs_host hr, rfl, sameEngine_hostRead _ _ _,
      (congrArg BitVec.toNat (readValue_bmem hk hb)).trans (toNat_bmemWord s.bmem (4 * k))⟩
  · exact ⟨_, step_of_nextIs_host hr, rfl, sameEngine_hostRead _ _ _⟩

/-- Settles O11: such an access reaches nothing of the engine. -/
theorem outsideAccessesHaveNoEffect : Obligations.OutsideAccessesHaveNoEffect := fun _ _ _ h =>
  have nothing := reachesNothing_of h
  ⟨fun hr => (step_of_nextIs_host hr).trans (congrArg Host.Outcome.next (hostRead_of_reachesNothing nothing _)),
    fun w hw => (step_of_nextIs_host hw).trans (congrArg Host.Outcome.next (hostWrite_of_reachesNothing nothing w _))⟩

end

section
/-! PROOF SUPPORT. The opcode map (30_encoding.md R96): selecting a row by mask and match is a condition on two fields of
the word, the opcode and the bits of its format that must be 0. -/

namespace Sys2Proof

/-- The mask whose 1 bits are the bits `[hi:lo]`. -/
def fieldMask (hi lo : Nat) : Word := (BitVec.allOnes (hi + 1 - lo)).setWidth 32 <<< lo

theorem field_eq_iff_bits (v w : Word) (hi lo : Nat) :
    field v hi lo = field w hi lo ↔ ∀ j < hi + 1 - lo, v.getLsbD (lo + j) = w.getLsbD (lo + j) := by
  rw [field, field, ← BitVec.extractLsb'_toNat, ← BitVec.extractLsb'_toNat, BitVec.toNat_inj,
    BitVec.eq_of_getLsbD_eq_iff]
  exact forall₂_congr fun j hj => by simp [hj]

/-- Two words agree under the mask of a field exactly when the field has one value in both. -/
theorem and_fieldMask_eq_iff (v w : Word) {hi lo : Nat} :
    v &&& fieldMask hi lo = w &&& fieldMask hi lo ↔ field v hi lo = field w hi lo := by
  rw [field_eq_iff_bits, BitVec.eq_of_getLsbD_eq_iff]
  constructor
  · intro h j hj
    by_cases hbit : lo + j < 32
    · simpa [fieldMask, hbit, hj] using h (lo + j) hbit
    · rw [BitVec.getLsbD_of_ge v _ (not_lt.1 hbit), BitVec.getLsbD_of_ge w _ (not_lt.1 hbit)]
  · intro h i hi32
    by_cases hin : lo ≤ i ∧ i - lo < hi + 1 - lo
    · have bits := h (i - lo) hin.2
      rw [Nat.add_sub_cancel' hin.1] at bits
      rw [BitVec.getLsbD_and, BitVec.getLsbD_and, bits]
    · have outside : (fieldMask hi lo).getLsbD i = false := by
        simp [fieldMask]
        omega
      rw [BitVec.getLsbD_and, BitVec.getLsbD_and, outside, Bool.and_false, Bool.and_false]

theorem and_or_eq_iff (v w a b : Word) : v &&& (a ||| b) = w &&& (a ||| b) ↔ v &&& a = w &&& a ∧ v &&& b = w &&& b := by
  constructor
  · intro h
    have under {m : Word} (hm : (a ||| b) &&& m = m) : v &&& m = w &&& m := by
      rw [← hm, ← BitVec.and_assoc, h, BitVec.and_assoc]
    exact ⟨under (by ext; simp +contextual), under (by ext; simp +contextual)⟩
  · rintro ⟨ha, hb⟩
    rw [BitVec.and_or_distrib_left, BitVec.and_or_distrib_left, ha, hb]

/-- The opcodes of R96. -/
def assignedOpcodes : List Nat := [1, 2, 3, 4, 5, 8, 9, 10, 11, 12, 13, 31]

/-- The bits `[hi:lo]` that the decoder of R98 asks to be 0 under an opcode, as `(hi, lo)`: `pb` and `N` are among them
where they must be 0. An unassigned opcode asks for none, which the empty field `(0, 1)` says. -/
def mustBeZero : Nat → Nat × Nat
  | 1 | 2 | 5 => (17, 0)
  | 3 | 4 => (20, 0)
  | 8 | 9 => (18, 11)
  | 10 | 11 => (19, 11)
  | 12 | 13 => (11, 11)
  | 31 => (26, 0)
  | _ => (0, 1)

/-- The value of the bits that must be 0 under the opcode of the word. -/
def reservedField (w : Word) : Nat := field w (mustBeZero (field w 31 27)).1 (mustBeZero (field w 31 27)).2

/-- The word meets everything R96 and R98 ask of a command word. -/
def Legal (w : Word) : Prop :=
  field w 31 27 ∈ assignedOpcodes ∧ reservedField w = 0 ∧ extraCondition w = true

/-- The opcode of a row, read from its match. -/
def OpcodeRow.opcode (r : OpcodeRow) : Nat := field r.pattern 31 27

theorem OpcodeRow.opcode_mem : ∀ r ∈ opcodeMap, r.opcode ∈ assignedOpcodes := by decide

theorem OpcodeRow.opcode_inj : ∀ r₁ ∈ opcodeMap, ∀ r₂ ∈ opcodeMap, r₁.opcode = r₂.opcode → r₁ = r₂ := by decide

theorem OpcodeRow.mask_eq : ∀ r ∈ opcodeMap,
    r.mask = fieldMask 31 27 ||| fieldMask (mustBeZero r.opcode).1 (mustBeZero r.opcode).2 := by decide

/-- The match of a row has no bit outside its mask, and the bits that must be 0 are 0 in it. -/
theorem OpcodeRow.pattern_within_mask : ∀ r ∈ opcodeMap,
    r.pattern &&& r.mask = r.pattern ∧ reservedField r.pattern = 0 := by decide

theorem OpcodeRow.selects_iff {r : OpcodeRow} (hr : r ∈ opcodeMap) (w : Word) :
    r.selects w ↔ field w 31 27 = r.opcode ∧ reservedField w = 0 := by
  obtain ⟨hpattern, hzero⟩ := r.pattern_within_mask hr
  calc r.selects w
    _ ↔ w &&& r.mask = r.pattern &&& r.mask := by rw [hpattern]
    _ ↔ field w 31 27 = r.opcode ∧
        field w (mustBeZero r.opcode).1 (mustBeZero r.opcode).2 = reservedField r.pattern := by
      rw [r.mask_eq hr, and_or_eq_iff, and_fieldMask_eq_iff, and_fieldMask_eq_iff]
      rfl
    _ ↔ field w 31 27 = r.opcode ∧ reservedField w = 0 := by
      rw [hzero]
      exact and_congr_right fun hop => by rw [reservedField, hop]

/-- The mnemonic and the opcode of a command name the same row. -/
theorem mnemonic_eq_iff {r : OpcodeRow} (hr : r ∈ opcodeMap) (i : Instr) :
    i.mnemonic = r.mnemonic ↔ i.opcode = r.opcode := by
  revert r
  cases i <;> simp only [Instr.mnemonic, Instr.opcode] <;> decide

end Sys2Proof
end

section
/-! PROOF SUPPORT. The decoder (30_encoding.md R98): one lemma for each format, then what the decoder asks of a word
whatever its opcode, and the opcode of the command it reads. -/

namespace Sys2Proof

theorem Decoded.not_command_iff (x : Decoded) : (¬ ∃ i, x = .command i) ↔ ∃ why, x = .illegal why := by
  cases x <;> simp

/-- The reserved bits and `pb` together are the bits `[20:0]`. -/
theorem field_pb_reserved_eq_zero (w : Word) : field w 20 0 = 0 ↔ field w 17 0 = 0 ∧ field w 20 18 = 0 := by
  simp only [field_eq]
  omega

/-- `N` and the reserved bits together are the bits `[19:11]`. -/
theorem field_domain_reserved_eq_zero (w : Word) : field w 19 11 = 0 ↔ field w 18 11 = 0 ∧ field w 19 19 = 0 := by
  simp only [field_eq]
  omega

@[simp] theorem decodeThreeRegs_eq_command (w : Word) (make : Reg → Reg → Reg → Instr) (i : Instr) :
    decodeThreeRegs w make = .command i ↔
      make (regField w 24) (regField w 21) (regField w 18) = i ∧ field w 17 0 = 0 := by
  rw [decodeThreeRegs]
  split <;> simp_all

@[simp] theorem decodeTwoRegs_eq_command (w : Word) (make : Reg → Reg → Instr) (i : Instr) :
    decodeTwoRegs w make = .command i ↔ make (regField w 24) (regField w 21) = i ∧ field w 20 0 = 0 := by
  rw [decodeTwoRegs, field_pb_reserved_eq_zero]
  split_ifs <;> simp_all

theorem widthLegal_iff (d : Nat) : widthLegal d ↔ ¬ (d = 0 ∨ d > 12) := by
  rw [widthLegal]
  omega

@[simp] theorem decodePack_eq_command (w : Word) (make : Reg → Nat → Domain → Nat → Instr) (i : Instr) :
    decodePack w make = .command i ↔
      make (regField w 24) (field w 23 20) (domainField w) (field w 10 0) = i ∧
        field w 18 11 = 0 ∧ widthLegal (field w 23 20) := by
  rw [decodePack, widthLegal_iff]
  split_ifs <;> simp_all

@[simp] theorem decodePackStd_eq_command (w : Word) (make : Reg → Nat → Nat → Instr) (i : Instr) :
    decodePackStd w make = .command i ↔
      make (regField w 24) (field w 23 20) (field w 10 0) = i ∧ field w 19 11 = 0 ∧ widthLegal (field w 23 20) := by
  rw [decodePackStd, widthLegal_iff, field_domain_reserved_eq_zero]
  split_ifs <;> simp_all

@[simp] theorem decodeBinomial_eq_command (w : Word) (make : Reg → Nat → Nat → Nat → Instr) (i : Instr) :
    decodeBinomial w make = .command i ↔
      make (regField w 24) (field w 23 21) (field w 20 12) (field w 10 0) = i ∧
        field w 11 11 = 0 ∧ 1 ≤ field w 23 21 := by
  rw [decodeBinomial, Nat.one_le_iff_ne_zero]
  split_ifs <;> simp_all

@[simp] theorem decodeUniform_eq_command (w : Word) (make : Reg → Nat → Nat → Instr) (i : Instr) :
    decodeUniform w make = .command i ↔
      make (regField w 24) (field w 23 12) (field w 10 0) = i ∧ field w 11 11 = 0 := by
  rw [decodeUniform]
  split <;> simp_all

@[simp] theorem decodeBare_eq_command (w : Word) (c i : Instr) :
    decodeBare w c = .command i ↔ c = i ∧ field w 26 0 = 0 := by
  rw [decodeBare]
  split <;> simp_all

theorem exists_command_iff_legal (w : Word) : (∃ i, decode w = .command i) ↔ Legal w := by
  rw [Legal, reservedField, extraCondition, decode]
  split
  case h_13 => simp_all [assignedOpcodes]
  all_goals
    rename_i hop
    simp [hop, assignedOpcodes, mustBeZero]

theorem opcode_of_decode {w : Word} {i : Instr} (h : decode w = .command i) : i.opcode = field w 31 27 := by
  revert i
  rw [decode]
  split <;> rename_i hop
  all_goals simp [hop, Instr.opcode]

end Sys2Proof
end

section
/-! PROOF SUPPORT. Illegal words (30_encoding.md R99) and what executing one does (60_exceptions.md R271). -/

namespace Sys2Proof

/-- Cases (b), (c), (d) and (g) of R99: a bit that must be 0 is 1. -/
theorem reservedField_ne_zero_iff (w : Word) : reservedField w ≠ 0 ↔
    ((1 ≤ field w 31 27 ∧ field w 31 27 ≤ 5) ∧ field w 17 0 ≠ 0) ∨
    ((8 ≤ field w 31 27 ∧ field w 31 27 ≤ 11) ∧ field w 18 11 ≠ 0) ∨
    ((field w 31 27 = 12 ∨ field w 31 27 = 13) ∧ field w 11 11 ≠ 0) ∨
    ((field w 31 27 = 3 ∨ field w 31 27 = 4) ∧ field w 20 18 ≠ 0) ∨
    ((field w 31 27 = 10 ∨ field w 31 27 = 11) ∧ field w 19 19 = 1) ∨
    (field w 31 27 = 31 ∧ field w 26 0 ≠ 0) := by
  have oneBit : field w 19 19 = 1 ↔ field w 19 19 ≠ 0 := by
    have : field w 19 19 < 2 := Nat.mod_lt _ (by decide)
    omega
  have empty : field w 0 1 = 0 := Nat.mod_one _
  unfold reservedField mustBeZero
  split
  case h_13 => grind
  all_goals
    rename_i hop
    simp [hop, field_pb_reserved_eq_zero, field_domain_reserved_eq_zero, oneBit, imp_iff_not_or]

/-- Cases (e) and (f) of R99: the extra condition fails. -/
theorem extraCondition_eq_false_iff (w : Word) : extraCondition w = false ↔
    ((8 ≤ field w 31 27 ∧ field w 31 27 ≤ 11) ∧ (field w 23 20 = 0 ∨ 12 < field w 23 20)) ∨
    (field w 31 27 = 12 ∧ field w 23 21 = 0) := by
  rw [extraCondition]
  split_ifs <;> simp <;> omega

/-- Case (a) of R99. -/
theorem opcode_unassigned_iff (w : Word) : field w 31 27 ∉ assignedOpcodes ↔
    field w 31 27 = 0 ∨ field w 31 27 = 6 ∨ field w 31 27 = 7 ∨ (14 ≤ field w 31 27 ∧ field w 31 27 ≤ 30) := by
  have bound : field w 31 27 < 32 := Nat.mod_lt _ (by decide)
  simp only [assignedOpcodes, List.mem_cons, List.not_mem_nil, or_false]
  omega

theorem not_legal_iff (w : Word) :
    ¬ Legal w ↔ field w 31 27 ∉ assignedOpcodes ∨ reservedField w ≠ 0 ∨ extraCondition w = false := by
  rw [Legal, not_and_or, not_and_or, Bool.not_eq_true]

namespace Machine

theorem endsFaulted_takeFault (f : CommandFault) (s : State) : endsFaulted f s (takeFault f s) :=
  ⟨rfl, rfl, rfl, rfl, rfl, rfl, rfl, fun _ => ⟨rfl, rfl⟩, fun _ => rfl, rfl, rfl, rfl, rfl, rfl, rfl⟩

end Machine

end Sys2Proof
end

section
/-! PROOFS. The opcode map and the illegal words (30_encoding.md R96, R99). -/

open Sys2Proof Sys2Proof.Machine

/-- Settles O3: a word selects at most the row of its opcode; selecting that row and meeting the extra condition is
being legal, which is what the decoder asks of a word. -/
theorem decodeFollowsOpcodeMap : Obligations.DecodeFollowsOpcodeMap := by
  refine ⟨fun w r₁ r₂ hr₁ hr₂ h₁ h₂ => ?_, fun w r hr => ?_⟩
  · obtain ⟨op₁, -⟩ := (r₁.selects_iff hr₁ w).1 h₁
    obtain ⟨op₂, -⟩ := (r₂.selects_iff hr₂ w).1 h₂
    exact OpcodeRow.opcode_inj r₁ hr₁ r₂ hr₂ (op₁.symm.trans op₂)
  · calc (∃ i, decode w = .command i ∧ i.mnemonic = r.mnemonic)
      _ ↔ ∃ i, decode w = .command i ∧ field w 31 27 = r.opcode :=
        exists_congr fun i => and_congr_right fun h => by rw [mnemonic_eq_iff hr, opcode_of_decode h]
      _ ↔ Legal w ∧ field w 31 27 = r.opcode := by rw [exists_and_right, exists_command_iff_legal]
      _ ↔ (field w 31 27 = r.opcode ∧ reservedField w = 0) ∧ extraCondition w = true := by
        have assigned : field w 31 27 = r.opcode → field w 31 27 ∈ assignedOpcodes := fun h => h ▸ r.opcode_mem hr
        rw [Legal]
        tauto
      _ ↔ r.selects w ∧ extraCondition w = true := by rw [r.selects_iff hr]

/-- Settles O5: the seven cases are the ways in which a word fails to be legal; an illegal word decodes to no command,
and executing it is fault entry. -/
theorem illegalWordsAreTheSevenCases : Obligations.IllegalWordsAreTheSevenCases := by
  unfold Obligations.IllegalWordsAreTheSevenCases
  intro illegal
  have illegal_iff (w : Word) : illegal w ↔ ¬ ∃ i, decode w = .command i := by
    rw [exists_command_iff_legal, not_legal_iff, opcode_unassigned_iff, reservedField_ne_zero_iff,
      extraCondition_eq_false_iff]
    -- The three lemmas list the same cases, in another order.
    simp only [illegal]
    exact Iff.of_eq (by ac_rfl)
  refine ⟨fun w => ?_, fun w => (illegal_iff w).1, fun w s hw hb hp => ?_, ?_, ?_⟩
  · exact (em _).symm.imp_left (illegal_iff w).2
  · obtain ⟨why, hd⟩ := (decode w).not_command_iff.1 ((illegal_iff w).1 hw)
    exact ⟨_, engineStep_illegal hb hp hd, endsFaulted_takeFault _ s⟩
  all_goals exact (illegal_iff _).2 ((Decoded.not_command_iff _).2 ⟨_, rfl⟩)

end

section
/-! PROOF SUPPORT. The scalar functions (40_ringmath_addsub.md R120, R122, R123): the residue as an integer, and the
rounding that Compress and Decompress share. -/

namespace Sys2Proof.Machine

theorem natCast_mod (x : Int) {m : Nat} (hm : 0 < m) : (mod x m : Int) = x % m :=
  Int.toNat_of_nonneg (Int.emod_nonneg x (by omega))

/-- `n / m` rounded to the nearest integer, a tie upward. -/
def nearest (n m : Nat) : Nat := (2 * n + m) / (2 * m)

theorem nearest_bounds (n : Nat) {m : Nat} (hm : 0 < m) :
    2 * (nearest n m * m) ≤ 2 * n + m ∧ 2 * n < 2 * (nearest n m * m) + m := by
  have lower : nearest n m * (2 * m) ≤ 2 * n + m := Nat.div_mul_le_self _ _
  have upper : 2 * n + m < nearest n m * (2 * m) + 2 * m := Nat.lt_div_mul_add (by omega)
  rw [Nat.mul_left_comm] at lower upper
  omega

theorem compress_eq_nearest (x d : Nat) : compress x d = nearest (x * 2 ^ d) 3329 % 2 ^ d := by
  rw [compress, nearest, Nat.mul_assoc]

theorem decompress_eq_nearest (y d : Nat) : decompress y d = nearest (y * 3329) (2 ^ d) := by
  rw [decompress, nearest, Nat.mul_assoc, Nat.pow_succ']

end Sys2Proof.Machine
end

section
/-! PROOF SUPPORT. Sequences of bits and of bytes are equal when their bits are (40_ringmath_addsub.md R126). -/

namespace Sys2Proof.Machine

theorem bits_ext {b c : List Bool} (hlen : b.length = c.length)
    (h : ∀ i, i < b.length → b.getD i false = c.getD i false) : b = c :=
  List.ext_getElem hlen fun i hb hc => by
    rw [← List.getD_eq_getElem b false hb, ← List.getD_eq_getElem c false hc, h i hb]

theorem bytes_ext {B C : List Byte} (hlen : B.length = C.length)
    (h : ∀ i, i < 8 * B.length → (B.getD (i / 8) 0).getLsbD (i % 8) = (C.getD (i / 8) 0).getLsbD (i % 8)) : B = C :=
  List.ext_getElem hlen fun m hB hC => BitVec.eq_of_getLsbD_eq fun k hk => by
    have bits := h (8 * m + k) (by omega)
    rwa [show (8 * m + k) / 8 = m by omega, show (8 * m + k) % 8 = k by omega, List.getD_eq_getElem B 0 hB,
      List.getD_eq_getElem C 0 hC] at bits

end Sys2Proof.Machine
end

section
/-! PROOFS. The scalar functions (40_ringmath_addsub.md R120, R122, R123, R126). -/

open Sys2Proof Sys2Proof.Machine

/-- Settles O32: `mod x m` is the remainder of the integer division, and two numbers below m that are congruent modulo m
are equal. -/
theorem modIsTheUniqueResidue : Obligations.ModIsTheUniqueResidue := by
  intro x m hm
  have residue := natCast_mod x hm
  have bound : x % m < m := Int.emod_lt_of_pos x (by omega)
  refine ⟨by omega, ?_, fun r hr0 hrm hdvd => ?_⟩
  · rw [residue]
    exact Int.dvd_self_sub_emod
  · calc r
      _ = r % m := (Int.emod_eq_of_lt hr0 hrm).symm
      _ = x % m := Int.modEq_iff_dvd.2 hdvd
      _ = mod x m := residue.symm

/-- Settles O33: k is the quotient before its reduction; 2·x·2^d + 3329 is odd, so there is no tie. -/
theorem compressRoundsToNearest : Obligations.CompressRoundsToNearest := by
  intro x d _ _
  obtain ⟨low, high⟩ := nearest_bounds (x * 2 ^ d) (m := 3329) (by decide)
  exact ⟨_, compress_eq_nearest x d, low, high, by omega⟩

/-- Settles O34: were the result 3329 or more, half of 2^d would reach 3329 for some d up to 12. -/
theorem decompressRoundsToNearest : Obligations.DecompressRoundsToNearest := by
  intro y d ⟨_, hd⟩ hy
  obtain ⟨low, high⟩ := nearest_bounds (y * 3329) (Nat.two_pow_pos d)
  rw [← decompress_eq_nearest] at low high
  refine ⟨?_, low, high⟩
  have hpow : 2 ^ d ≤ 2 ^ 12 := Nat.pow_le_pow_right (by decide) hd
  by_contra hbig
  have large : 3329 * 2 ^ d ≤ decompress y d * 2 ^ d := Nat.mul_le_mul_right (2 ^ d) (not_lt.1 hbig)
  omega

/-- Settles O36: both maps keep bit (i mod 8) of byte (i div 8) at place i of the sequence. -/
theorem bitsAndBytesAreInverse : Obligations.BitsAndBytesAreInverse := by
  refine ⟨fun bytes => ?_, fun b hb => ?_, fun bytes i hi => getD_bytesToBits bytes hi⟩
  · have hlen : (bitsToBytes (bytesToBits bytes)).length = bytes.length := by simp
    refine bytes_ext hlen fun i hi => ?_
    rw [hlen] at hi
    rw [getLsbD_bitsToBytes _ (by simpa using hi), getD_bytesToBits bytes hi]
  · have hlen : (bytesToBits (bitsToBytes b)).length = b.length := by
      rw [length_bytesToBits, length_bitsToBytes]
      omega
    refine bits_ext hlen fun i hi => ?_
    rw [length_bytesToBits] at hi
    rw [getD_bytesToBits _ hi, getLsbD_bitsToBytes b (by simpa using hi)]

end

section
/-! PROOF SUPPORT. How a command that raises a fault ends and how one that loads a register ends, in the words of
Safety.lean, and the word of a command in format R (30_encoding.md R92). -/

namespace Sys2Proof.Machine

theorem formatR_encode (i : Instr) {pd pa pb : Reg}
    (h : i.operandBits = pd.val * 2 ^ 24 + pa.val * 2 ^ 21 + pb.val * 2 ^ 18) :
    formatR i.opcode pd.val pa.val pb.val (encode i) := by
  have hop := i.opcode_lt
  simp only [formatR, field_eq, toNat_encode, h]
  omega

theorem raises_of_exec {i : Instr} {f : CommandFault} {s : State} (h : exec i s = raise f s) : raises i f s :=
  ⟨_, h, endsFaulted_takeFault f s⟩

theorem endsCompleted_setReg (result : Word) (s : State) (pd : Reg) (v : Coeffs) (tag : Tag) :
    endsCompleted result s (completed result (s.setReg pd v tag)) :=
  ⟨rfl, rfl, rfl, rfl, rfl, rfl, rfl, rfl, rfl, rfl, rfl, rfl, rfl⟩

theorem sameRegsBut_setReg (s : State) (pd : Reg) (v : Coeffs) (tag : Tag) : sameRegsBut pd s (s.setReg pd v tag) :=
  fun r hr => ⟨by rw [coeffs_setReg, if_neg hr.symm], by rw [tag_setReg, if_neg hr.symm]⟩

/-- A command that writes `v` to `pd` and completes loads `pd` with the values that `v` holds. -/
theorem exists_loadsRegister {i : Instr} {s : State} {pd : Reg} {v : Coeffs} {tag : Tag} {result : Word}
    {value : Fin 256 → Nat} (h : exec i s = complete result (s.setReg pd v tag))
    (hv : ∀ k : Fin 256, v[k].val = value k) :
    ∃ t, exec i s = .next t ∧ loadsRegister pd tag value result s t :=
  ⟨_, h, fun k => by rw [coeffs_completed, coeffs_setReg_same, hv], by rw [tag_completed, tag_setReg_same],
    sameRegsBut_setReg s pd v tag, fun _ => rfl, endsCompleted_setReg result s pd v tag⟩

end Sys2Proof.Machine
end

section
/-! PROOF SUPPORT. The adder/subtractor (40_ringmath_addsub.md R130, R131): the meaning of each command
and the arithmetic on one coefficient. -/

namespace Sys2Proof.Machine

theorem exec_padd (pd pa pb : Reg) (s : State) : exec (.padd pd pa pb) s = execPadd pd pa pb s := rfl

theorem exec_psub (pd pa pb : Reg) (s : State) : exec (.psub pd pa pb) s = execPsub pd pa pb s := rfl

theorem Tag.ne_std_iff {t : Tag} (h : t ≠ .empty) : t ≠ .std ↔ t = .ntt := by
  cases t <;> simp_all

theorem addCoeffs_val (a b : Coeffs) (k : Fin 256) : (addCoeffs a b)[k].val = (a[k].val + b[k].val) % 3329 := by
  rw [addCoeffs, Fin.getElem_fin, Vector.getElem_ofFn, ← Nat.cast_add, modQ_natCast]

theorem subCoeffs_val (a b : Coeffs) (k : Fin 256) :
    (subCoeffs a b)[k].val = (a[k].val + 3329 - b[k].val) % 3329 := by
  simp only [subCoeffs, Fin.getElem_fin, Vector.getElem_ofFn, modQ_val]
  omega

end Sys2Proof.Machine
end

section
/-! PROOFS. PADD and PSUB (40_ringmath_addsub.md R130, R131). -/

open Sys2Proof Sys2Proof.Machine

/-- Settles O17: one clause for each branch of `execPadd`. -/
theorem paddAddsCoefficients : Obligations.PaddAddsCoefficients := by
  intro pd pa pb s
  refine ⟨formatR_encode (.padd pd pa pb) rfl, fun ha => raises_of_exec ?_, fun ha hb => raises_of_exec ?_,
    fun ha hb hab => raises_of_exec ?_, fun ha hab =>
      exists_loadsRegister ?_ (addCoeffs_val (s.coeffs pa) (s.coeffs pb))⟩
  · rw [exec_padd, execPadd, if_pos ha]
  · rw [exec_padd, execPadd, if_neg ha, if_pos hb]
  · rw [exec_padd, execPadd, if_neg ha, if_neg hb, if_pos hab]
  · rw [exec_padd, execPadd, if_neg ha, if_neg (hab ▸ ha), if_neg (not_not_intro hab)]

/-- Settles O18: one clause for each branch of `execPsub`; a tag that is neither `EMPTY` nor STD is NTT. -/
theorem psubSubtractsCoefficients : Obligations.PsubSubtractsCoefficients := by
  intro pd pa pb s
  refine ⟨formatR_encode (.psub pd pa pb) rfl, fun ha => raises_of_exec ?_, fun ha hb => raises_of_exec ?_,
    fun ha hb hntt => raises_of_exec ?_, fun ha hb =>
      exists_loadsRegister ?_ (subCoeffs_val (s.coeffs pa) (s.coeffs pb))⟩
  · rw [exec_psub, execPsub, if_pos ha]
  · rw [exec_psub, execPsub, if_neg ha, if_pos hb]
  · rw [exec_psub, execPsub, if_neg ha, if_neg hb, if_pos]
    rwa [Tag.ne_std_iff ha, Tag.ne_std_iff hb]
  · simp [exec_psub, execPsub, ha, hb]

end

section
/-! PROOF SUPPORT. How a command that stores a packed object ends, in the words of Safety.lean, and the word of a
command in format M (30_encoding.md R93). -/

namespace Sys2Proof.Machine

theorem formatM_encode (i : Instr) {r : Reg} {d n addr : Nat} (hd : widthLegal d) (hn : n ≤ 1) (ha : addrFits addr)
    (h : i.operandBits = r.val * 2 ^ 24 + d * 2 ^ 20 + n * 2 ^ 19 + addr) :
    formatM i.opcode r.val d n addr (encode i) := by
  have hop := i.opcode_lt
  simp only [formatM, field_eq, toNat_encode, h]
  omega

theorem not_inBuffer {addr d : Nat} (h : 2048 < addr + 32 * d) : ¬ inBuffer addr (objectBytes d) := Nat.not_le.2 h

theorem endsCompleted_storeBytes (s : State) (addr : Nat) (v : List Byte) :
    endsCompleted 0 s (completed 0 (s.storeBytes addr v)) :=
  ⟨rfl, rfl, rfl, rfl, rfl, rfl, rfl, rfl, rfl, rfl, rfl, rfl, rfl⟩

/-- The last bit of the 256 values stands in byte 32d - 1. -/
theorem packedPlace_lt {d j : Nat} (i : Fin 256) (hj : j < d) : (i.val * d + j) / 8 < objectBytes d := by
  have last : (i.val + 1) * d ≤ 256 * d := Nat.mul_le_mul_right d i.isLt
  rw [Nat.add_mul, Nat.one_mul] at last
  rw [objectBytes]
  omega

/-- Bit j of value i in the object that `byteEncode` stores (R150). -/
theorem bitAt_writeBytes_byteEncode {m : Memory} (hm : m.wf) {addr d : Nat} (hfit : inBuffer addr (objectBytes d))
    (f : Values) (i : Fin 256) {j : Nat} (hj : j < d) :
    bitAt (m.writeBytes addr (byteEncode f d)) addr (i.val * d + j) = f[i].testBit j := by
  have hplace := packedPlace_lt i hj
  rw [bitAt, Memory.read_writeBytes hm _ (fits_byteEncode f hfit), if_pos (by rw [length_byteEncode]; omega),
    Nat.add_sub_cancel_left, getLsbD_byteEncode f d i hj]

/-- Storing a packed object changes no byte outside its 32d. -/
theorem sameBytesOutside_storeBytes_byteEncode {s : State} (hm : s.bmem.wf) {addr d : Nat}
    (hfit : inBuffer addr (objectBytes d)) (f : Values) :
    sameBytesOutside addr (objectBytes d) s (s.storeBytes addr (byteEncode f d)) := fun a ha => by
  rw [storeBytes_bmem, Memory.read_writeBytes hm _ (fits_byteEncode f hfit),
    if_neg (by rw [length_byteEncode]; omega)]

/-- A command that stores the packed values `f` and completes stores their object. -/
theorem exists_storesObject {i : Instr} {s : State} {addr d : Nat} {f : Values} (hm : s.bmem.wf)
    (hfit : inBuffer addr (objectBytes d)) (h : exec i s = complete 0 (s.storeBytes addr (byteEncode f d))) :
    ∃ t, exec i s = .next t ∧ storesObject addr d (fun k => f[k]) s t :=
  ⟨_, h, fun k _ hj => bitAt_writeBytes_byteEncode hm hfit f k hj, sameBytesOutside_storeBytes_byteEncode hm hfit f,
    fun _ => ⟨rfl, rfl⟩, endsCompleted_storeBytes s addr _⟩

end Sys2Proof.Machine
end

section
/-! PROOF SUPPORT. The bound m(d) of a d-bit field (41_packer.md R150), and the first value that does not fit (R153,
R155). -/

namespace Sys2Proof.Machine

theorem fieldBound_eq_boundOf {d : Nat} (hd : widthLegal d) : fieldBound d = boundOf d := by
  rw [fieldBound, boundOf, q]
  split_ifs <;> omega

theorem boundOf_pos (d : Nat) : 0 < boundOf d := by
  rw [boundOf]
  split_ifs
  · exact Nat.two_pow_pos d
  · decide

theorem boundOf_le_q (d : Nat) : boundOf d ≤ 3329 := by
  rw [boundOf]
  split_ifs with h
  · have := Nat.pow_le_pow_right (n := 2) (by decide) (Nat.le_of_lt_succ h)
    omega
  · exact le_rfl

theorem boundOf_le_two_pow {d : Nat} (hd : widthLegal d) : boundOf d ≤ 2 ^ d := by
  rw [boundOf]
  split_ifs with h
  · exact le_rfl
  · rw [show d = 12 by omega]
    decide

theorem firstUnfit_of_fits {f : Values} {d : Nat} (hd : widthLegal d) (h : ∀ i : Fin 256, f[i] < boundOf d) :
    firstUnfit f d = none := by
  simpa [firstUnfit, fieldBound_eq_boundOf hd] using h

theorem firstUnfit_of_firstTooLarge {f : Values} {d v : Nat} {i : Fin 256} (hd : widthLegal d)
    (h : firstTooLarge (fun k => f[k]) d i v) : firstUnfit f d = some i := by
  obtain ⟨rfl, hi, below⟩ := h
  rw [firstUnfit, List.find?_eq_some_iff_getElem, fieldBound_eq_boundOf hd]
  refine ⟨decide_eq_true hi, i.val, by simp, by simp, fun j hj => ?_⟩
  have fits := below ⟨j, by omega⟩ hj
  simpa using fits

end Sys2Proof.Machine
end

section
/-! PROOF SUPPORT. The checks and the store that ENCODE and SERIALIZE share (41_packer.md R153, R155), branch by
branch. -/

namespace Sys2Proof.Machine

/-- ENCODE and SERIALIZE up to the tag that they require and the values that they pack. -/
def execPack (ps : Reg) (d : Nat) (tag : Tag) (f : Values) (addr : Nat) (s : State) :
    Host.Outcome State Fault Refusal :=
  if ¬ inBuffer addr (objectBytes d) then raise .addressRange s
  else if s.tag ps = .empty then raise (.emptyOperand ps) s
  else if s.tag ps ≠ tag then raise .domainMismatch s
  else
    match firstUnfit f d with
    | some i => raise (.coefficientOutOfRange i.val f[i]) s
    | none => complete 0 (s.storeBytes addr (byteEncode f d))

theorem valuesOf_get (x : Coeffs) (k : Fin 256) : (valuesOf x)[k] = x[k].val := by simp [valuesOf]

theorem compressAll_get (x : Coeffs) (d : Nat) (k : Fin 256) : (compressAll x d)[k] = compress x[k].val d := by
  simp [compressAll]

theorem exec_encode (ps : Reg) (d : Nat) (dom : Domain) (addr : Nat) (s : State) :
    exec (.encode ps d dom addr) s = execPack ps d (domainTag dom) (valuesOf (s.coeffs ps)) addr s := by
  simp only [execPack, valuesOf_get]
  rfl

theorem exec_serialize (ps : Reg) (d addr : Nat) (s : State) :
    exec (.serialize ps d addr) s = execPack ps d .std (compressAll (s.coeffs ps) d) addr s := rfl

theorem domainTag_ne_empty (dom : Domain) : domainTag dom ≠ .empty := by cases dom <;> decide

variable {i : Instr} {ps : Reg} {d addr : Nat} {tag : Tag} {f : Values} {s : State}

theorem raises_addressRange_of_pack (h : exec i s = execPack ps d tag f addr s)
    (hout : ¬ inBuffer addr (objectBytes d)) : raises i .addressRange s :=
  raises_of_exec (by rw [h, execPack, if_pos hout])

theorem raises_emptyOperand_of_pack (h : exec i s = execPack ps d tag f addr s) (hfit : inBuffer addr (objectBytes d))
    (hempty : s.tag ps = .empty) : raises i (.emptyOperand ps) s :=
  raises_of_exec (by rw [h, execPack, if_neg (not_not_intro hfit), if_pos hempty])

theorem raises_domainMismatch_of_pack (h : exec i s = execPack ps d tag f addr s) (hfit : inBuffer addr (objectBytes d))
    (hset : s.tag ps ≠ .empty) (hne : s.tag ps ≠ tag) : raises i .domainMismatch s :=
  raises_of_exec (by rw [h, execPack, if_neg (not_not_intro hfit), if_neg hset, if_pos hne])

/-- Once the range and the tag pass, what is left of the command is the search for a value that does not fit. -/
theorem execPack_of_checked (hfit : inBuffer addr (objectBytes d)) (htag : s.tag ps = tag) (hset : tag ≠ .empty) :
    execPack ps d tag f addr s =
      (firstUnfit f d).elim (complete 0 (s.storeBytes addr (byteEncode f d)))
        fun i => raise (.coefficientOutOfRange i.val f[i]) s := by
  rw [execPack, if_neg (not_not_intro hfit), if_neg (htag ▸ hset), if_neg (not_not_intro htag)]
  cases firstUnfit f d <;> rfl

theorem raises_coefficientOutOfRange_of_pack (hd : widthLegal d) (h : exec i s = execPack ps d tag f addr s)
    (hfit : inBuffer addr (objectBytes d)) (htag : s.tag ps = tag) (hset : tag ≠ .empty) {k : Fin 256} {v : Nat}
    (hk : firstTooLarge (fun k => f[k]) d k v) : raises i (.coefficientOutOfRange k.val v) s := by
  have found := firstUnfit_of_firstTooLarge hd hk
  obtain ⟨rfl, -, -⟩ := hk
  exact raises_of_exec (by rw [h, execPack_of_checked hfit htag hset, found, Option.elim_some])

theorem stores_of_pack (hd : widthLegal d) (hm : s.bmem.wf) (h : exec i s = execPack ps d tag f addr s)
    (hfit : inBuffer addr (objectBytes d)) (htag : s.tag ps = tag) (hset : tag ≠ .empty)
    (hf : ∀ k : Fin 256, f[k] < boundOf d) :
    ∃ t, exec i s = .next t ∧ storesObject addr d (fun k => f[k]) s t :=
  exists_storesObject hm hfit (by
    rw [h, execPack_of_checked hfit htag hset, firstUnfit_of_fits hd hf, Option.elim_none])

end Sys2Proof.Machine
end

section
/-! PROOF SUPPORT. Unpacking (41_packer.md R151, R154, R156): the groups of an object in BMEM as the values of
`packedValue`, and values stored as coefficients. -/

namespace Sys2Proof.Machine

theorem exec_decode (pd : Reg) (d : Nat) (dom : Domain) (addr : Nat) (s : State) :
    exec (.decode pd d dom addr) s = execDecode pd d dom addr s := rfl

theorem exec_deserialize (pd : Reg) (d addr : Nat) (s : State) :
    exec (.deserialize pd d addr) s = execDeserialize pd d addr s := rfl

theorem mod_natCast (n m : Nat) : mod n m = n % m := by rw [mod, ← Int.natCast_mod, Int.toNat_natCast]

/-- Bit k of the bytes read at `addr` is bit k of the object there. -/
theorem getD_bytesToBits_readBytes (m : Memory) (addr : Nat) {n k : Nat} (hk : k / 8 < n) :
    (bytesToBits (m.readBytes addr n)).getD k false = bitAt m addr k := by
  rw [getD_bytesToBits _ (by rw [Memory.length_readBytes]; omega), Memory.getD_readBytes m addr n _ hk, bitAt]

theorem packedValue_eq_sum_map (m : Memory) (addr d i : Nat) :
    packedValue m addr d i = ((List.range d).map fun j => 2 ^ j * bit (bitAt m addr (i * d + j))).sum := rfl

/-- Group i of the bytes read at `addr` is the value packed there, modulo m(d) (R151). -/
theorem byteDecode_readBytes (m : Memory) (addr : Nat) {d : Nat} (hd : widthLegal d) (i : Fin 256) :
    (byteDecode (m.readBytes addr (objectBytes d)) d)[i] = packedValue m addr d i.val % boundOf d := by
  have bits : ∀ j ∈ List.range d,
      2 ^ j * bit ((bytesToBits (m.readBytes addr (objectBytes d))).getD (i.val * d + j) false) =
        2 ^ j * bit (bitAt m addr (i.val * d + j)) := fun j hj => by
    rw [getD_bytesToBits_readBytes m addr (packedPlace_lt i (List.mem_range.1 hj))]
  rw [byteDecode, Fin.getElem_fin, Vector.getElem_ofFn, List.map_congr_left bits, ← packedValue_eq_sum_map,
    fieldBound_eq_boundOf hd, mod_natCast]

theorem coeffsOf_val {v : Values} {k : Fin 256} (h : v[k] < 3329) : (coeffsOf v)[k].val = v[k] := by
  rw [Fin.getElem_fin] at h
  rw [coeffsOf, Fin.getElem_fin, Vector.getElem_map, modQ_natCast, Nat.mod_eq_of_lt h, Fin.getElem_fin]

theorem decompressAll_get (g : Values) (d : Nat) (k : Fin 256) : (decompressAll g d)[k] = decompress g[k] d := by
  simp [decompressAll]

/-- A group modulo m(d) is below 3329, so storing it as a coefficient keeps it. -/
theorem coeffsOf_byteDecode_val (m : Memory) (addr : Nat) {d : Nat} (hd : widthLegal d) (k : Fin 256) :
    (coeffsOf (byteDecode (m.readBytes addr (objectBytes d)) d))[k].val = packedValue m addr d k.val % boundOf d := by
  have group := byteDecode_readBytes m addr hd k
  have small := (Nat.mod_lt (packedValue m addr d k.val) (boundOf_pos d)).trans_le (boundOf_le_q d)
  rw [coeffsOf_val (group ▸ small), group]

/-- A group modulo m(d) is below 2^d, so its decompression is below 3329 (R123) and storing it keeps it. -/
theorem coeffsOf_decompressAll_val (m : Memory) (addr : Nat) {d : Nat} (hd : widthLegal d) (k : Fin 256) :
    (coeffsOf (decompressAll (byteDecode (m.readBytes addr (objectBytes d)) d) d))[k].val =
      decompress (packedValue m addr d k.val % boundOf d) d := by
  have scaled := (decompressAll_get _ d k).trans (congrArg (decompress · d) (byteDecode_readBytes m addr hd k))
  have fits := (Nat.mod_lt (packedValue m addr d k.val) (boundOf_pos d)).trans_le (boundOf_le_two_pow hd)
  obtain ⟨small, -, -⟩ := decompressRoundsToNearest _ d hd fits
  rw [coeffsOf_val (scaled ▸ small), scaled]

end Sys2Proof.Machine
end

section
/-! PROOFS. ENCODE, DECODE, SERIALIZE and DESERIALIZE (41_packer.md R153 to R156). -/

open Sys2Proof Sys2Proof.Machine

/-- Settles O22: the values packed are the coefficients themselves. -/
theorem encodePacksCoefficients : Obligations.EncodePacksCoefficients := by
  intro ps d dom addr s hd hm
  have pack := exec_encode ps d dom addr s
  have hset := domainTag_ne_empty dom
  simp only [← valuesOf_get (s.coeffs ps)]
  exact ⟨fun ha => formatM_encode (.encode ps d dom addr) hd dom.bit_le ha rfl,
    fun hout => raises_addressRange_of_pack pack (not_inBuffer hout), raises_emptyOperand_of_pack pack,
    raises_domainMismatch_of_pack pack, fun hfit htag =>
      ⟨fun _ _ => raises_coefficientOutOfRange_of_pack hd pack hfit htag hset,
        stores_of_pack hd hm pack hfit htag hset⟩⟩

/-- Settles O23: one clause for each branch of `execDecode`. -/
theorem decodeUnpacksCoefficients : Obligations.DecodeUnpacksCoefficients := by
  intro pd d dom addr s hd
  refine ⟨fun ha => formatM_encode (.decode pd d dom addr) hd dom.bit_le ha rfl, fun hout => raises_of_exec ?_,
    fun hfit => exists_loadsRegister ?_ (coeffsOf_byteDecode_val s.bmem addr hd)⟩
  · rw [exec_decode, execDecode, if_pos (not_inBuffer hout)]
  · exact (exec_decode pd d dom addr s).trans (if_neg (not_not_intro hfit))

/-- Settles O24: the values packed are the compressed coefficients. -/
theorem serializeCompressesAndPacks : Obligations.SerializeCompressesAndPacks := by
  intro ps d addr s hd hm value
  have pack := exec_serialize ps d addr s
  have packed : value = fun k : Fin 256 => (compressAll (s.coeffs ps) d)[k] :=
    funext fun k => (compressAll_get (s.coeffs ps) d k).symm
  rw [packed]
  exact ⟨fun ha => formatM_encode (.serialize ps d addr) hd zero_le_one ha (by simp [Instr.operandBits]),
    fun hout => raises_addressRange_of_pack pack (not_inBuffer hout), raises_emptyOperand_of_pack pack,
    fun hfit htag => raises_domainMismatch_of_pack pack hfit (by simp [htag]) (by simp [htag]), fun hfit htag =>
      ⟨fun _ _ => raises_coefficientOutOfRange_of_pack hd pack hfit htag (by decide),
        stores_of_pack hd hm pack hfit htag (by decide)⟩⟩

/-- Settles O25: one clause for each branch of `execDeserialize`. -/
theorem deserializeUnpacksAndDecompresses : Obligations.DeserializeUnpacksAndDecompresses := by
  intro pd d addr s hd
  refine ⟨fun ha => formatM_encode (.deserialize pd d addr) hd zero_le_one ha (by simp [Instr.operandBits]),
    fun hout => raises_of_exec ?_, fun hfit => exists_loadsRegister ?_ (coeffsOf_decompressAll_val s.bmem addr hd)⟩
  · rw [exec_deserialize, execDeserialize, if_pos (not_inBuffer hout)]
  · exact (exec_deserialize pd d addr s).trans (if_neg (not_not_intro hfit))

end

section
/-! PROOF SUPPORT. The binomial sampler (42_cbd_sampler.md R170, R171): the word of a command in format B
(30_encoding.md R95), the meaning of the command, and the bit counts over the seed in BMEM. -/

namespace Sys2Proof.Machine

theorem formatB_encode (i : Instr) {pd : Reg} {n len addr : Nat} (hn : binomialLegal n) (hlen : len < 512)
    (ha : addrFits addr) (h : i.operandBits = pd.val * 2 ^ 24 + n * 2 ^ 21 + len * 2 ^ 12 + addr) :
    formatB i.opcode pd.val n len addr (encode i) := by
  have hop := i.opcode_lt
  simp only [formatB, field_eq, toNat_encode, h]
  omega

theorem exec_samplecbd (pd : Reg) (n len addr : Nat) (s : State) :
    exec (.samplecbd pd n len addr) s = execSamplecbd pd n len addr s := rfl

theorem countBits_eq_sum (b : List Bool) (first n : Nat) :
    countBits b first n = Finset.sum (Finset.range n) fun k => bit (b.getD (first + k) false) := rfl

/-- The ones counted among bits of the bytes read at `addr` are those of the object there. -/
theorem countBits_readBytes (m : Memory) (addr : Nat) {len first n : Nat} (h : first + n ≤ 8 * len) :
    countBits (bytesToBits (m.readBytes addr len)) first n = onesAt m addr first n := by
  rw [countBits_eq_sum, onesAt]
  refine Finset.sum_congr rfl fun k hk => ?_
  have hk := Finset.mem_range.1 hk
  rw [getD_bytesToBits_readBytes m addr (by omega)]

theorem bit_le (b : Bool) : bit b ≤ 1 := by cases b <;> decide

theorem onesAt_le (m : Memory) (addr first n : Nat) : onesAt m addr first n ≤ n := by
  have bound := Finset.sum_le_card_nsmul (Finset.range n) (fun k => bit (bitAt m addr (first + k))) 1
    fun _ _ => bit_le _
  rwa [Finset.card_range, smul_eq_mul, Nat.mul_one] at bound

/-- The 2n bits of coefficient i stand inside the 512n bits of the seed. -/
theorem cbdPlace_le (i : Fin 256) (n : Nat) : 2 * i.val * n + n + n ≤ 8 * seedBytes n := by
  have last : (2 * i.val + 2) * n ≤ 512 * n := Nat.mul_le_mul_right n (by omega)
  rw [Nat.add_mul] at last
  rw [seedBytes]
  omega

/-- Coefficient i of the sample from the seed at `addr`; a count is at most n, so adding 3329 keeps the difference
non-negative. -/
theorem samplePolyCbd_val (m : Memory) (addr : Nat) {n : Nat} (hn : binomialLegal n) (i : Fin 256) :
    (samplePolyCbd (m.readBytes addr (seedBytes n)) n)[i].val =
      (onesAt m addr (2 * i.val * n) n + 3329 - onesAt m addr (2 * i.val * n + n) n) % 3329 := by
  have place := cbdPlace_le i n
  have small := onesAt_le m addr (2 * i.val * n + n) n
  simp only [samplePolyCbd, Fin.getElem_fin, Vector.getElem_ofFn, modQ_val]
  rw [countBits_readBytes m addr (by omega), countBits_readBytes m addr place]
  omega

end Sys2Proof.Machine
end

section
/-! PROOFS. SAMPLECBD (42_cbd_sampler.md R171). -/

open Sys2Proof Sys2Proof.Machine

/-- Settles O26: one clause for each branch of `execSamplecbd`. -/
theorem samplecbdSubtractsBitCounts : Obligations.SamplecbdSubtractsBitCounts := by
  intro pd n len addr s hn
  refine ⟨fun hlen ha => formatB_encode (.samplecbd pd n len addr) hn hlen ha rfl,
    fun (hne : len ≠ seedBytes n) => raises_of_exec ?_, fun (heq : len = seedBytes n) hout => raises_of_exec ?_,
    fun (heq : len = seedBytes n) hfit => exists_loadsRegister ?_ (samplePolyCbd_val s.bmem addr hn)⟩
  · rw [exec_samplecbd, execSamplecbd, if_pos hne]
  · have hrange : ¬ inBuffer addr (seedBytes n) := Nat.not_le.2 hout
    rw [exec_samplecbd, execSamplecbd, if_neg (not_not_intro heq), if_pos hrange]
  · have hrange : inBuffer addr (seedBytes n) := hfit
    rw [exec_samplecbd, execSamplecbd, if_neg (not_not_intro heq), if_neg (not_not_intro hrange)]

end

section
/-! PROOF SUPPORT. The meaning of the transform commands (43_ntt.md R185, R186). -/

namespace Sys2Proof.Machine

theorem exec_ntt (pd pa : Reg) (s : State) : exec (.ntt pd pa) s = execNtt pd pa s := rfl

theorem exec_intt (pd pa : Reg) (s : State) : exec (.intt pd pa) s = execIntt pd pa s := rfl

end Sys2Proof.Machine
end

section
/-! PROOFS. NTT and INTT (43_ntt.md R185, R186). -/

open Sys2Proof Sys2Proof.Machine

/-- Settles O19: one clause for each branch of `execNtt`; a source that is not STD and not `EMPTY` is NTT. -/
theorem nttLoadsForwardTransform : Obligations.NttLoadsForwardTransform := by
  intro pd pa s
  refine ⟨formatR_encode (pb := 0) (.ntt pd pa) (by simp [Instr.operandBits]), fun hempty => raises_of_exec ?_,
    fun hntt => raises_of_exec ?_, fun hstd => exists_loadsRegister ?_ fun _ => rfl⟩
  · rw [exec_ntt, execNtt, if_pos hempty]
  · rw [exec_ntt, execNtt, if_neg (by simp [hntt]), if_pos (by simp [hntt])]
  · rw [exec_ntt, execNtt, if_neg (by simp [hstd]), if_neg (not_not_intro hstd)]

/-- Settles O20: one clause for each branch of `execIntt`; a source that is not NTT and not `EMPTY` is STD. -/
theorem inttLoadsInverseTransform : Obligations.InttLoadsInverseTransform := by
  intro pd pa s
  refine ⟨formatR_encode (pb := 0) (.intt pd pa) (by simp [Instr.operandBits]), fun hempty => raises_of_exec ?_,
    fun hstd => raises_of_exec ?_, fun hntt => exists_loadsRegister ?_ fun _ => rfl⟩
  · rw [exec_intt, execIntt, if_pos hempty]
  · rw [exec_intt, execIntt, if_neg (by simp [hstd]), if_pos (by simp [hstd])]
  · rw [exec_intt, execIntt, if_neg (by simp [hntt]), if_neg (not_not_intro hntt)]

end

section
/-! PROOF SUPPORT. The meaning of PWMUL (44_pwmul.md R204) and the two elements of a pair's product in natural numbers
(R200 to R202). -/

namespace Sys2Proof.Machine

theorem exec_pwmul (pd pa pb : Reg) (s : State) : exec (.pwmul pd pa pb) s = execPwmul pd pa pb s := rfl

/-- The constant of pair `i`, an odd pair's negation written as a difference from 3329 (R202). -/
theorem gammaAt_val (c : Config) (i : Nat) :
    (gammaAt c i).val =
      (if i % 2 = 0 then (zetaAt c (64 + i / 2)).val else 3329 - (zetaAt c (64 + i / 2)).val) % 3329 := by
  have small := (zetaAt c (64 + i / 2)).isLt
  unfold gammaAt
  split_ifs
  · exact (Nat.mod_eq_of_lt small).symm
  · rw [modQ_val]
    omega

/-- The constant term depends on `gamma` modulo 3329 only. -/
theorem baseMul_fst_val (a0 a1 b0 b1 : Coeff) {gamma : Coeff} {g : Nat} (hg : gamma.val = g % 3329) :
    (baseMul a0 a1 b0 b1 gamma).1.val = (a0.val * b0.val + a1.val * b1.val * g) % 3329 := by
  have cast : (baseMul a0 a1 b0 b1 gamma).1 =
      modQ ((a0.val * b0.val + a1.val * b1.val * gamma.val : Nat) : Int) := by
    push_cast
    rfl
  have residue : gamma.val ≡ g [MOD 3329] := hg ▸ Nat.mod_modEq g 3329
  rw [cast, modQ_natCast]
  exact (residue.mul_left _).add_left _

theorem baseMul_snd_val (a0 a1 b0 b1 gamma : Coeff) :
    (baseMul a0 a1 b0 b1 gamma).2.val = (a0.val * b1.val + a1.val * b0.val) % 3329 := by
  have cast : (baseMul a0 a1 b0 b1 gamma).2 = modQ ((a0.val * b1.val + a1.val * b0.val : Nat) : Int) := by
    push_cast
    rfl
  rw [cast, modQ_natCast]

/-- Element `k` belongs to pair `k / 2`: its constant term when `k` is even, its linear term when `k` is odd (R201). -/
theorem multiply_val (c : Config) (a b : Coeffs) (k : Fin 256) {g : Nat} (hg : (gammaAt c (k.val / 2)).val = g % 3329) :
    (multiply c a b)[k].val =
      if k.val % 2 = 0 then
        ((coeffAt a (2 * (k.val / 2))).val * (coeffAt b (2 * (k.val / 2))).val +
          (coeffAt a (2 * (k.val / 2) + 1)).val * (coeffAt b (2 * (k.val / 2) + 1)).val * g) % 3329
      else
        ((coeffAt a (2 * (k.val / 2))).val * (coeffAt b (2 * (k.val / 2) + 1)).val +
          (coeffAt a (2 * (k.val / 2) + 1)).val * (coeffAt b (2 * (k.val / 2))).val) % 3329 := by
  rw [multiply, Fin.getElem_fin, Vector.getElem_ofFn]
  split_ifs
  · exact baseMul_fst_val _ _ _ _ hg
  · exact baseMul_snd_val _ _ _ _ _

end Sys2Proof.Machine
end

section
/-! PROOFS. PWMUL (44_pwmul.md R204). -/

open Sys2Proof Sys2Proof.Machine

/-- Settles O21: one clause for each branch of `execPwmul`; a tag that is STD is not NTT. -/
theorem pwmulMultipliesPairs : Obligations.PwmulMultipliesPairs := by
  intro pd pa pb s
  refine ⟨formatR_encode (.pwmul pd pa pb) rfl, fun ha => raises_of_exec ?_, fun ha hb => raises_of_exec ?_,
    fun ha hb hstd => raises_of_exec ?_, fun ha hb =>
      exists_loadsRegister ?_ fun k =>
        multiply_val engineConfig (s.coeffs pa) (s.coeffs pb) k (gammaAt_val engineConfig (k.val / 2))⟩
  · rw [exec_pwmul, execPwmul, if_pos ha]
  · rw [exec_pwmul, execPwmul, if_neg ha, if_pos hb]
  · have mixed : s.tag pa ≠ .ntt ∨ s.tag pb ≠ .ntt :=
      hstd.imp (fun h => by simp [h]) (fun h => by simp [h])
    rw [exec_pwmul, execPwmul, if_neg ha, if_neg hb, if_pos mixed]
  · simp [exec_pwmul, execPwmul, ha, hb]

end

section
/-! PROOF SUPPORT. The rejection sampler (45_uniform_sampler.md R210, R211): the word of a command in format U
(30_encoding.md R94), the meaning of the command, and the loop of `RejSample` over the groups of the stream in BMEM. -/

namespace Sys2Proof.Machine

theorem formatU_encode (i : Instr) {pd : Reg} {len addr : Nat} (hlen : len < 4096) (ha : addrFits addr)
    (h : i.operandBits = pd.val * 2 ^ 24 + len * 2 ^ 12 + addr) :
    formatU i.opcode pd.val len addr (encode i) := by
  have hop := i.opcode_lt
  simp only [formatU, field_eq, toNat_encode, h]
  omega

theorem exec_sampleu (pd : Reg) (len addr : Nat) (s : State) :
    exec (.sampleu pd len addr) s = execSampleu pd len addr s := rfl

/-! ### The accepted candidates of the first groups -/

theorem accepted_succ (m : Memory) (addr g : Nat) :
    accepted m addr (g + 1) = accepted m addr g ++
      [firstCandidate (m.read (addr + 3 * g)) (m.read (addr + 3 * g + 1)),
        secondCandidate (m.read (addr + 3 * g + 1)) (m.read (addr + 3 * g + 2))].filter (· < 3329) := by
  change ((List.range (g + 1)).flatMap _).filter _ = _
  rw [List.range_succ, List.flatMap_append, List.filter_append]
  rfl

theorem length_accepted_mono (m : Memory) (addr : Nat) : Monotone fun g => (accepted m addr g).length :=
  monotone_nat_of_le_succ fun g => by simp only [accepted_succ, List.length_append]; omega

/-- A group holds two candidates, so `g` groups hold at most `2g` accepted ones (R213 (b)). -/
theorem length_accepted_le (m : Memory) (addr g : Nat) : (accepted m addr g).length ≤ 2 * g := by
  induction g with
  | zero => exact Nat.le_refl 0
  | succ g ih =>
    rw [accepted_succ, List.length_append]
    exact Nat.add_le_add ih (List.length_filter_le _ _)

/-! ### The candidate accepted, dropped or rejected -/

theorem accept_of_room {out : List Coeff} {v : Nat} (hv : v < 3329) (room : out.length < 256) :
    accept out v = out ++ [⟨v, hv⟩] := (dif_pos hv).trans (if_pos room)

theorem accept_of_full {out : List Coeff} (full : ¬ out.length < 256) (v : Nat) : accept out v = out := by
  by_cases hv : v < 3329
  · exact (dif_pos hv).trans (if_neg full)
  · exact dif_neg hv

theorem accept_of_ge {v : Nat} (hv : ¬ v < 3329) (out : List Coeff) : accept out v = out := dif_neg hv

/-- The coefficients `out` are the first 256 of the values `l`, or all of them while they are fewer. -/
def HoldsFirst (out : List Coeff) (l : List Nat) : Prop := out.map Fin.val = l.take 256

theorem HoldsFirst.length_lt_iff {out : List Coeff} {l : List Nat} (h : HoldsFirst out l) :
    out.length < 256 ↔ l.length < 256 := by
  have count := congrArg List.length (show out.map Fin.val = l.take 256 from h)
  rw [List.length_map, List.length_take] at count
  simp [count]

theorem HoldsFirst.map_val_of_lt {out : List Coeff} {l : List Nat} (h : HoldsFirst out l) (short : l.length < 256) :
    out.map Fin.val = l :=
  h.trans (List.take_of_length_le (Nat.le_of_lt short))

/-- One candidate more, on both sides: it is kept if it is below 3329, and dropped when 256 are reached (R213 (f)). -/
theorem HoldsFirst.accept_one {out : List Coeff} {l : List Nat} (h : HoldsFirst out l) (v : Nat) :
    HoldsFirst (accept out v) (l ++ [v].filter (· < 3329)) := by
  by_cases room : out.length < 256
  · have short : l.length < 256 := h.length_lt_iff.1 room
    by_cases hv : v < 3329
    · rw [accept_of_room hv room, List.filter_cons_of_pos (by simpa using hv), List.filter_nil]
      change (out ++ [_]).map Fin.val = (l ++ [v]).take 256
      rw [List.map_append, h.map_val_of_lt short, List.take_of_length_le (by simpa using short)]
      rfl
    · rwa [accept_of_ge hv, List.filter_cons_of_neg (by simpa using hv), List.filter_nil, List.append_nil]
  · have long : 256 ≤ l.length := Nat.not_lt.1 (mt h.length_lt_iff.2 room)
    rw [accept_of_full room]
    exact h.trans (List.take_append_of_le_length long).symm

theorem HoldsFirst.accept_group {out : List Coeff} {l : List Nat} (h : HoldsFirst out l) (v w : Nat) :
    HoldsFirst (accept (accept out v) w) (l ++ [v, w].filter (· < 3329)) := by
  have both := (h.accept_one v).accept_one w
  rwa [List.append_assoc, ← List.filter_append] at both

theorem HoldsFirst.coeffsOfList_val {out : List Coeff} {l : List Nat} (h : HoldsFirst out l) (k : Fin 256) :
    (coeffsOfList out)[k].val = l.getD k.val 0 := by
  have element : (coeffsOfList out)[k] = out.getD k.val 0 := Vector.getElem_ofFn k.isLt
  rw [element, ← List.getD_map (f := Fin.val), show out.map Fin.val = l.take 256 from h,
    List.getD_eq_getElem?_getD, List.getElem?_take_of_lt k.isLt, List.getD_eq_getElem?_getD]
  rfl

/-! ### The loop of `RejSample` -/

theorem readBytes_group (m : Memory) (a n : Nat) :
    m.readBytes a (n + 3) = m.read a :: m.read (a + 1) :: m.read (a + 2) :: m.readBytes (a + 3) n := by
  simp [Memory.readBytes, List.range_succ_eq_map, Function.comp_def, Nat.add_assoc, Nat.add_comm 3]

theorem rejLoop_of_full {out : List Coeff} (h : 256 ≤ out.length) (stream : List Byte) (g : Nat) :
    rejLoop stream out g = .filled out (3 * g) := by
  obtain _ | ⟨_, _ | ⟨_, _ | _⟩⟩ := stream <;> exact if_pos h

theorem rejLoop_group {out : List Coeff} (h : out.length < 256) (b0 b1 b2 : Byte) (rest : List Byte) (g : Nat) :
    rejLoop (b0 :: b1 :: b2 :: rest) out g =
      rejLoop rest (accept (accept out (firstCandidate b0 b1)) (secondCandidate b1 b2)) (g + 1) :=
  if_neg (Nat.not_le.2 h)

/-- Fewer than three bytes are no group (R213 (a)). -/
theorem rejLoop_of_no_group {out : List Coeff} (h : out.length < 256) {stream : List Byte} (hs : stream.length < 3)
    (g : Nat) : rejLoop stream out g = .exhausted out.length := by
  have more : ¬ 256 ≤ out.length := Nat.not_le.2 h
  obtain _ | ⟨_, _ | ⟨_, _ | _⟩⟩ := stream
  · exact if_neg more
  · exact if_neg more
  · exact if_neg more
  · exact absurd hs (by simp)

/-- While 256 are not reached before group `g`, the loop comes to it with the first accepted candidates of the groups
before it, and the rest of the stream unread. -/
theorem rejSample_reaches (m : Memory) (addr : Nat) {n g : Nat} (hg : 3 * g ≤ n)
    (hfew : ∀ g', g' < g → (accepted m addr g').length < 256) :
    ∃ out, HoldsFirst out (accepted m addr g) ∧
      rejSample (m.readBytes addr n) = rejLoop (m.readBytes (addr + 3 * g) (n - 3 * g)) out g := by
  induction g with
  | zero => exact ⟨[], rfl, rfl⟩
  | succ g ih =>
    obtain ⟨out, holds, reaches⟩ := ih (by omega) fun g' h => hfew g' (Nat.lt_succ_of_lt h)
    have room : out.length < 256 := holds.length_lt_iff.2 (hfew g (Nat.lt_succ_self g))
    refine ⟨_, accepted_succ m addr g ▸ holds.accept_group _ _, ?_⟩
    rw [reaches, show n - 3 * g = n - 3 * (g + 1) + 3 by omega, readBytes_group, rejLoop_group room]
    rfl

/-- `RejSample` fails with the number accepted in the whole groups when that is below 256. -/
theorem rejSample_exhausted (m : Memory) (addr : Nat) {n : Nat} (h : (accepted m addr (n / 3)).length < 256) :
    rejSample (m.readBytes addr n) = .exhausted (accepted m addr (n / 3)).length := by
  have few (g' : Nat) (hg' : g' < n / 3) : (accepted m addr g').length < 256 :=
    Nat.lt_of_le_of_lt (length_accepted_mono m addr (Nat.le_of_lt hg')) h
  obtain ⟨out, holds, reaches⟩ := rejSample_reaches m addr (Nat.mul_div_le n 3) few
  have room : out.length < 256 := holds.length_lt_iff.2 h
  have rest : (m.readBytes (addr + 3 * (n / 3)) (n - 3 * (n / 3))).length < 3 := by
    rw [Memory.length_readBytes]
    omega
  rw [reaches, rejLoop_of_no_group room rest, ← holds.map_val_of_lt h, List.length_map]

/-- `RejSample` answers the first 256 accepted, with the bytes of the least number of groups that hold them. -/
theorem rejSample_filled (m : Memory) (addr : Nat) {n g : Nat} (hg : 3 * g ≤ n)
    (hmany : 256 ≤ (accepted m addr g).length) (hfew : ∀ g', g' < g → (accepted m addr g').length < 256) :
    ∃ out, HoldsFirst out (accepted m addr g) ∧ rejSample (m.readBytes addr n) = .filled out (3 * g) := by
  obtain ⟨out, holds, reaches⟩ := rejSample_reaches m addr hg hfew
  have full : 256 ≤ out.length := Nat.not_lt.1 (mt holds.length_lt_iff.1 (Nat.not_lt.2 hmany))
  exact ⟨out, holds, reaches.trans (rejLoop_of_full full _ g)⟩

end Sys2Proof.Machine
end

section
/-! PROOFS. SAMPLEU (45_uniform_sampler.md R211). -/

open Sys2Proof Sys2Proof.Machine

/-- Settles O27: one clause for each branch of `execSampleu`; 256 accepted candidates need 128 groups. -/
theorem sampleuTakesFirstAccepted : Obligations.SampleuTakesFirstAccepted := by
  intro pd len addr s
  refine ⟨fun hlen ha => formatU_encode (.sampleu pd len addr) hlen ha rfl, fun hout => raises_of_exec ?_,
    fun hfit hfew => raises_of_exec ?_, fun hfit g hg hmany hfew => ?_⟩
  · have hrange : ¬ inBuffer addr len := Nat.not_le.2 hout
    rw [exec_sampleu, execSampleu, if_pos hrange]
  · have hrange : inBuffer addr len := hfit
    rw [exec_sampleu, execSampleu, if_neg (not_not_intro hrange), rejSample_exhausted _ _ hfew]
  · have hrange : inBuffer addr len := hfit
    have consumed : 3 * g ≤ len := by omega
    have enough := length_accepted_le s.bmem addr g
    obtain ⟨out, holds, sampled⟩ := rejSample_filled s.bmem addr consumed hmany hfew
    refine ⟨by omega, consumed, exists_loadsRegister ?_ holds.coeffsOfList_val⟩
    rw [exec_sampleu, execSampleu, if_neg (not_not_intro hrange), sampled]

end

section
/-! PROOF SUPPORT. A CMD write that is dropped (46_system.md R222), and the command ZEROIZE: its word in format Z
(30_encoding.md R91), its meaning and the status it leaves (46_system.md R220). -/

namespace Sys2Proof.Machine

theorem writeCmd_drops {s : State} (h : s.busy = true ∨ s.err = true) (w : Word) :
    writeCmd w s = { s with ovr := true } := if_pos h

/-- A CMD write that is dropped (`dropNext`). -/
theorem step_drops_cmd {s : State} {w : Word} (h : s.busy = true ∨ s.err = true)
    (hw : nextIs (.host (.write .word 0x00C w)) s) :
    step s = .next { s with schedule := s.schedule.tail, ovr := true } :=
  (step_of_nextIs_host hw).trans
    (congrArg Host.Outcome.next (writeCmd_drops (s := { s with schedule := s.schedule.tail }) h w))

theorem formatZ_encode (i : Instr) (h : i.operandBits = 0) : formatZ i.opcode (encode i) := by
  have hop := i.opcode_lt
  simp only [formatZ, field_eq, toNat_encode, h]
  omega

theorem exec_zeroize (s : State) : exec .zeroize s = complete 0 s.clearData := rfl

theorem endsCompleted_clearData (result : Word) (s : State) : endsCompleted result s (completed result s.clearData) :=
  ⟨rfl, rfl, rfl, rfl, rfl, rfl, rfl, rfl, rfl, rfl, rfl, rfl, rfl⟩

end Sys2Proof.Machine
end

section
/-! PROOFS. The CMD write and ZEROIZE (46_system.md R222, R220). -/

open Sys2Proof Sys2Proof.Machine

/-- Settles O7: one clause for each branch of `writeCmd`. -/
theorem cmdWriteAcceptsOrDrops : Obligations.CmdWriteAcceptsOrDrops := by
  intro s w rest hs
  have hw : nextIs (.host (.write .word 0x00C w)) s := congrArg List.head? hs
  have htail : s.schedule.tail = rest := congrArg List.tail hs
  subst htail
  exact ⟨fun h => step_drops_cmd h hw, fun ⟨hb, he⟩ => step_accepts hb he hw⟩

/-- Settles O28: the command completes with result 0 from the state whose data is cleared. -/
theorem zeroizeClearsAllData : Obligations.ZeroizeClearsAllData := by
  refine ⟨formatZ_encode .zeroize rfl, fun s => ⟨_, exec_zeroize s, fun r i => ?_, fun r => ?_, Memory.read_nil,
    endsCompleted_clearData 0 s⟩⟩
  · rw [coeffs_completed, coeffs_clearData, Fin.getElem_fin, Vector.getElem_replicate, Fin.val_zero]
  · rw [tag_completed, tag_clearData]

end

section
/-! PROOF SUPPORT. Everything a step can do, said once: what a host access makes of the state by what it reaches
(10_state.md R32 to R40, 20_memory.md R61 to R67, 46_system.md R222, 70_reset_and_hazards.md R308), and what a step makes of
it by the event that is next (00_scope.md R12). -/

namespace Sys2Proof.Machine

/-- What a host access makes of the state. -/
inductive HostEffect (s : State) : Access → State → Prop where
  | read (size : AccessSize) (off : Nat) : HostEffect s (.read size off) (hostRead size off s)
  | ignored (size : AccessSize) (off : Nat) (w : Word) : HostEffect s (.write size off w) s
  | enable (w : Word) : HostEffect s (.write .word 0x004 w) { s with ie := w.getLsbD 0 }
  | clear (w : Word) (clr : w.getLsbD 1 = true) (idle : s.busy = false) :
      HostEffect s (.write .word 0x004 w) (clearStatus { s with ie := w.getLsbD 0 })
  | accept (w : Word) (idle : s.busy = false) (noErr : s.err = false) :
      HostEffect s (.write .word 0x00C w) (acceptCommand w s)
  | dropCmd (w : Word) (refused : s.busy = true ∨ s.err = true) :
      HostEffect s (.write .word 0x00C w) { s with ovr := true }
  | store (off : Nat) (w : Word) (fits : off - 0x800 + 4 ≤ 2048) (idle : s.busy = false) :
      HostEffect s (.write .word off w) (s.storeBytes (off - 0x800) (wordBytes w))
  | dropBmem (off : Nat) (w : Word) (low : 0x800 ≤ off) (high : off < 4096) (aligned : off % 4 = 0)
      (busy : s.busy = true) : HostEffect s (.write .word off w) { s with ovr := true }

theorem writeCtrl_effect (w : Word) (s : State) : HostEffect s (.write .word 0x004 w) (writeCtrl w s) := by
  by_cases act : w.getLsbD 1 = true ∧ s.busy = false
  · rw [writeCtrl_clears act.1 act.2]
    exact .clear w act.1 act.2
  · rw [show writeCtrl w s = { s with ie := w.getLsbD 0 } from if_neg act]
    exact .enable w

theorem writeCmd_effect (w : Word) (s : State) : HostEffect s (.write .word 0x00C w) (writeCmd w s) := by
  by_cases refused : s.busy = true ∨ s.err = true
  · rw [writeCmd_drops refused]
    exact .dropCmd w refused
  · simp only [not_or, Bool.not_eq_true] at refused
    rw [writeCmd_accepts refused.1 refused.2]
    exact .accept w refused.1 refused.2

theorem writeBmem_effect (w : Word) (s : State) {off : Nat} (low : 0x800 ≤ off) (high : off < 4096)
    (aligned : off % 4 = 0) : HostEffect s (.write .word off w) (writeBmem (off - 0x800) w s) := by
  cases hb : s.busy with
  | true =>
    rw [writeBmem_drops hb]
    exact .dropBmem off w low high aligned hb
  | false =>
    rw [writeBmem_stores hb]
    exact .store off w (by omega) hb

theorem hostAccess_effect (a : Access) (s : State) : HostEffect s a (hostAccess a s) := by
  cases a with
  | read size off => exact .read size off
  | write size off w =>
    simp only [hostAccess, hostWrite]
    split_ifs with hreg hctrl hcmd hlow
    · subst hctrl
      obtain ⟨rfl, -⟩ := hreg
      exact writeCtrl_effect w s
    · subst hcmd
      obtain ⟨rfl, -⟩ := hreg
      exact writeCmd_effect w s
    · exact .ignored size off w
    · obtain ⟨rfl, aligned, high⟩ := hreg
      exact writeBmem_effect w s (Nat.not_lt.1 hlow) high aligned
    · exact .ignored size off w

/-- The state with the next event used up. -/
abbrev State.advance (s : State) : State := { s with schedule := s.schedule.tail }

/-- What a step makes of the state. -/
inductive Transition (s : State) : State → Prop where
  | idle (turn : engineTurn s) (idle : s.busy = false) : Transition s s.advance
  | faulted (f : CommandFault) (turn : engineTurn s) (busy : s.busy = true) : Transition s (takeFault f s.advance)
  | completed (result : Word) {u : State} (turn : engineTurn s) (busy : s.busy = true) (write : DataWrite s.advance u) :
      Transition s (completed result u)
  | host {a : Access} {t : State} (next : nextIs (.host a) s) (effect : HostEffect s.advance a t) : Transition s t
  | reset (next : nextIs .reset s) : Transition s (resetEngine s.advance)

/-- With no event left the engine has the turn. -/
theorem event_cases (s : State) : engineTurn s ∨ (∃ a, nextIs (.host a) s) ∨ nextIs .reset s := by
  cases hs : s.schedule with
  | nil => exact .inl (.inl hs)
  | cons e rest =>
    have next : nextIs e s := congrArg List.head? hs
    cases e with
    | host a => exact .inr (.inl ⟨a, next⟩)
    | engine => exact .inl (.inr next)
    | reset => exact .inr (.inr next)

theorem transition_of_step {s t : State} (h : step s = .next t) : Transition s t := by
  rcases event_cases s with turn | ⟨a, next⟩ | next
  · rw [step_of_engineTurn turn] at h
    cases hb : s.busy with
    | false =>
      rw [engineStep_idle (s := s.advance) hb] at h
      cases h
      exact .idle turn hb
    | true =>
      rcases ends_of_engineStep_next (s := s.advance) hb h with ⟨f, hf⟩ | ⟨result, u, write, hc⟩
      · cases hf
        exact .faulted f turn hb
      · cases hc
        exact .completed result turn hb write
  · rw [step_of_nextIs_host next] at h
    cases h
    exact .host next (hostAccess_effect a s.advance)
  · rw [step_of_nextIs_reset next] at h
    cases h
    exact .reset next

/-- A step stops nowhere but at an enabled engine without a pending word. -/
theorem exists_step {s : State} (h : s.busy = true → s.pending ≠ none) : ∃ t, step s = .next t := by
  rcases event_cases s with turn | ⟨a, next⟩ | next
  · rw [step_of_engineTurn turn]
    rcases Bool.eq_false_or_eq_true s.busy with hb | hb
    · obtain ⟨w, hw⟩ := Option.ne_none_iff_exists'.1 (h hb)
      rcases engineStep_ends (s := s.advance) hb hw with ⟨f, hf⟩ | ⟨result, u, -, hc⟩
      · exact ⟨_, hf⟩
      · exact ⟨_, hc⟩
    · exact ⟨_, engineStep_idle (s := s.advance) hb⟩
  · exact ⟨_, step_of_nextIs_host next⟩
  · exact ⟨_, step_of_nextIs_reset next⟩

/-- A command that completes has written registers, tags and BMEM at most. -/
theorem DataWrite.eq_with_data {s u : State} (h : DataWrite s u) : u = { s with p := u.p, t := u.t, bmem := u.bmem } := by
  cases h <;> rfl

end Sys2Proof.Machine
end

section
/-! PROOF SUPPORT. The result of a command (10_state.md R37): 0, or the byte count of SAMPLEU. -/

namespace Sys2Proof.Machine

/-- The RESULT that an outcome leaves. -/
def resultOf : Host.Outcome State Fault Refusal → Word
  | .next t => t.result
  | .fault _ => 0
  | .refused _ => 0

@[simp] theorem resultOf_raise (f : CommandFault) (s : State) : resultOf (raise f s) = 0 := rfl

@[simp] theorem resultOf_complete (result : Word) (s : State) : resultOf (complete result s) = result := rfl

theorem resultOf_execPack (ps : Reg) (d : Nat) (tag : Tag) (f : Values) (addr : Nat) (s : State) :
    resultOf (execPack ps d tag f addr s) = 0 := by
  unfold execPack
  cases firstUnfit f d <;> simp [apply_ite resultOf]

/-- The bytes that `RejSample` consumes when it succeeds (R210): whole groups of the stream, at least 128. -/
theorem rejSample_used {m : Memory} {addr n used : Nat} {out : List Coeff}
    (h : rejSample (m.readBytes addr n) = .filled out used) : 384 ≤ used ∧ used ≤ n ∧ used % 3 = 0 := by
  by_cases enough : 256 ≤ (accepted m addr (n / 3)).length
  · have exists_enough : ∃ g, 256 ≤ (accepted m addr g).length := ⟨n / 3, enough⟩
    obtain ⟨g, hg, first⟩ : ∃ g, 256 ≤ (accepted m addr g).length ∧ ∀ g' < g, (accepted m addr g').length < 256 :=
      ⟨Nat.find exists_enough, Nat.find_spec exists_enough, fun g' hg' => Nat.not_le.1 (Nat.find_min exists_enough hg')⟩
    have small : g ≤ n / 3 := by
      by_contra hbig
      have := first (n / 3) (Nat.not_le.1 hbig)
      omega
    have most := length_accepted_le m addr g
    obtain ⟨_, -, filled⟩ := rejSample_filled m addr (n := n) (by omega) hg first
    rw [filled] at h
    cases h
    omega
  · rw [rejSample_exhausted m addr (Nat.not_le.1 enough)] at h
    cases h

theorem resultInv_execSampleu {pd : Reg} {len addr : Nat} {s t : State} (h : execSampleu pd len addr s = .next t) :
    t.ResultInv := by
  unfold execSampleu at h
  split_ifs at h with fits
  · cases sampled : rejSample (s.bmem.readBytes addr len) with
    | exhausted accepted =>
      rw [sampled] at h
      cases h
      exact .inl rfl
    | filled out used =>
      rw [sampled] at h
      cases h
      obtain ⟨low, high, groups⟩ := rejSample_used sampled
      have value : (BitVec.ofNat 32 used).toNat = used := by
        rw [BitVec.toNat_ofNat, Nat.mod_eq_of_lt]
        simp only [inBuffer, bmemSize] at fits
        omega
      simp only [inBuffer, bmemSize] at fits
      exact .inr (by rw [completed_result, value]; omega)
  · cases h
    exact .inl rfl

theorem resultInv_exec {i : Instr} {s t : State} (h : exec i s = .next t) : t.ResultInv := by
  have ofZero (h0 : resultOf (exec i s) = 0) : t.ResultInv := by
    rw [h] at h0
    exact .inl h0
  cases i with
  | padd | psub | ntt | intt | pwmul =>
    exact ofZero (by simp [exec, execPadd, execPsub, execNtt, execIntt, execPwmul, apply_ite resultOf])
  | decode | deserialize | samplecbd =>
    exact ofZero (by simp [exec, execDecode, execDeserialize, execSamplecbd, apply_ite resultOf])
  | encode ps d dom addr => exact ofZero (by rw [exec_encode, resultOf_execPack])
  | serialize ps d addr => exact ofZero (by rw [exec_serialize, resultOf_execPack])
  | sampleu pd len addr => exact resultInv_execSampleu h
  | zeroize => exact ofZero rfl

theorem resultInv_engineStep {s t : State} (hb : s.busy = true) (h : engineStep s = .next t) : t.ResultInv := by
  cases hp : s.pending with
  | none => simp [engineStep, hb, hp] at h
  | some w =>
    cases hd : decode w with
    | command i =>
      rw [engineStep_command hb hp hd] at h
      exact resultInv_exec h
    | illegal why =>
      rw [engineStep_illegal hb hp hd] at h
      cases h
      exact .inl rfl

end Sys2Proof.Machine
end

section
/-! PROOF SUPPORT. The invariant of the state (10_state.md section 6, R26, R29, R37) under each operation that a step is
made of. -/

namespace Sys2Proof.Machine

variable {s u : State}

theorem code_mem_engineCodes (f : CommandFault) : f.code ∈ engineCodes := by
  cases f <;> simp [engineCodes, CommandFault.code]

theorem inv_reset : State.reset.Inv where
  status := ⟨by decide, by decide, by decide, by decide⟩
  pendingWord := ⟨by decide, by decide⟩
  emptyZero r _ := coeffs_resetEngine State.reset r
  memory := Memory.wf_nil
  resultCount := .inl rfl

/-- `IE`, `OVR` and the model's own fields are not in the invariant. -/
theorem State.Inv.with_controls (h : s.Inv) (ie ovr : Bool) (schedule : List Event) (readData : Word) (freeCount : Nat) :
    State.Inv { s with ie := ie, ovr := ovr, schedule := schedule, readData := readData, freeCount := freeCount } where
  status := ⟨h.status.notDoneAndErr, h.status.busyAlone, h.status.noErrNoCode, h.status.errHasCode⟩
  pendingWord := ⟨h.pendingWord.whileBusy, h.pendingWord.onlyBusy⟩
  emptyZero := h.emptyZero
  memory := h.memory
  resultCount := h.resultCount

theorem State.Inv.advance (h : s.Inv) : s.advance.Inv := h.with_controls _ _ _ _ _

theorem State.Inv.resetEngine (s : State) : (resetEngine s).Inv := inv_reset.with_controls _ _ _ _ _

theorem State.Inv.takeFault (h : s.Inv) (hb : s.busy = true) (f : CommandFault) : (takeFault f s).Inv where
  status := ⟨fun ⟨hd, _⟩ => absurd hd (by simp [(h.status.busyAlone hb).1]), nofun, nofun,
    fun _ => code_mem_engineCodes f⟩
  pendingWord := ⟨nofun, fun _ => rfl⟩
  emptyZero := h.emptyZero
  memory := h.memory
  resultCount := .inl rfl

theorem DataWrite.emptyZero (hw : DataWrite s u) (h : s.EmptyZero) : u.EmptyZero := by
  intro r hr
  cases hw with
  | register pd v tag loaded =>
    by_cases same : pd = r
    · rw [tag_setReg, if_pos same] at hr
      exact absurd hr loaded
    · rw [tag_setReg, if_neg same] at hr
      rw [coeffs_setReg, if_neg same]
      exact h r hr
  | bytes addr v fits => exact h r hr
  | cleared => exact coeffs_clearData s r

theorem DataWrite.memory (hw : DataWrite s u) (h : s.bmem.wf) : u.bmem.wf := by
  cases hw with
  | register pd v tag loaded => exact h
  | bytes addr v fits => exact Memory.wf_writeBytes h v fits
  | cleared => exact Memory.wf_nil

theorem State.Inv.completed (h : s.Inv) (hb : s.busy = true) (hw : DataWrite s u) {result : Word}
    (hr : (completed result u).ResultInv) : (completed result u).Inv := by
  have noErr : u.err = false := by
    rw [hw.eq_with_data]
    exact (h.status.busyAlone hb).2
  have noCode : u.ecode = 0 ∧ u.errInfo = 0 := by
    rw [hw.eq_with_data]
    exact h.status.noErrNoCode (h.status.busyAlone hb).2
  exact
    { status := ⟨fun ⟨_, he⟩ => absurd he (by simp [noErr]), nofun, fun _ => noCode,
        fun he => absurd he (by simp [noErr])⟩
      pendingWord := ⟨nofun, fun _ => rfl⟩
      emptyZero := hw.emptyZero h.emptyZero
      memory := hw.memory h.memory
      resultCount := hr }

theorem State.Inv.clearStatus (h : s.Inv) : (clearStatus s).Inv where
  status := ⟨nofun, fun _ => ⟨rfl, rfl⟩, fun _ => ⟨rfl, rfl⟩, nofun⟩
  pendingWord := ⟨h.pendingWord.whileBusy, h.pendingWord.onlyBusy⟩
  emptyZero := h.emptyZero
  memory := h.memory
  resultCount := h.resultCount

theorem State.Inv.acceptCommand (h : s.Inv) (noErr : s.err = false) (w : Word) : (acceptCommand w s).Inv where
  status := ⟨nofun, fun _ => ⟨rfl, noErr⟩, h.status.noErrNoCode, h.status.errHasCode⟩
  pendingWord := ⟨fun _ => rfl, nofun⟩
  emptyZero := h.emptyZero
  memory := h.memory
  resultCount := h.resultCount

theorem State.Inv.storeBytes (h : s.Inv) {addr : Nat} {v : List Byte} (fits : addr + v.length ≤ 2048) :
    (s.storeBytes addr v).Inv where
  status := ⟨h.status.notDoneAndErr, h.status.busyAlone, h.status.noErrNoCode, h.status.errHasCode⟩
  pendingWord := ⟨h.pendingWord.whileBusy, h.pendingWord.onlyBusy⟩
  emptyZero := h.emptyZero
  memory := Memory.wf_writeBytes h.memory v fits
  resultCount := h.resultCount

theorem HostEffect.inv {a : Access} (he : HostEffect s a u) (h : s.Inv) : u.Inv := by
  cases he with
  | read => exact h.with_controls _ _ _ _ _
  | ignored => exact h
  | enable => exact h.with_controls _ _ _ _ _
  | clear => exact (h.with_controls _ _ _ _ _).clearStatus
  | accept w idle noErr => exact h.acceptCommand noErr w
  | dropCmd => exact h.with_controls _ _ _ _ _
  | store off w fits => exact h.storeBytes fits
  | dropBmem => exact h.with_controls _ _ _ _ _

theorem step_inv {t : State} (h : s.Inv) (hs : step s = .next t) : t.Inv := by
  cases transition_of_step hs with
  | idle => exact h.advance
  | faulted f turn busy => exact h.advance.takeFault busy f
  | completed result turn busy write =>
    rw [step_of_engineTurn turn] at hs
    exact h.advance.completed busy write (resultInv_engineStep (s := s.advance) busy hs)
  | host next effect => exact effect.inv h.advance
  | reset => exact .resetEngine _

theorem State.Inv.exists_step (h : s.Inv) : ∃ t, step s = .next t :=
  Machine.exists_step fun hb => by simp [h.pendingWord.whileBusy hb]

end Sys2Proof.Machine
end

section
/-! PROOF SUPPORT. What a step leaves of ERR, of LASTCMD and of the registers (60_exceptions.md R275, 10_state.md R40,
R22), and which events set and clear the status bits (10_state.md R35). -/

namespace Sys2Proof.Machine

variable {s t u : State} {a : Access}

/-- No host access but a CTRL write whose CLR acts changes the recorded fault. -/
theorem HostEffect.fault_kept (he : HostEffect s.advance a t) (next : nextIs (.host a) s) (noClear : ¬ clearNext s) :
    t.err = s.err ∧ t.ecode = s.ecode ∧ t.errInfo = s.errInfo := by
  cases he with
  | clear w clr idle => exact absurd ⟨idle, w, next, clr⟩ noClear
  | _ => exact ⟨rfl, rfl, rfl⟩

theorem HostEffect.lastCmd_kept (he : HostEffect s.advance a t) (next : nextIs (.host a) s) (noAccept : ¬ acceptNext s) :
    t.lastCmd = s.lastCmd := by
  cases he with
  | accept w idle noErr => exact absurd ⟨idle, noErr, w, next⟩ noAccept
  | _ => rfl

theorem HostEffect.regs_kept (he : HostEffect s a t) : t.p = s.p ∧ t.t = s.t := by
  cases he <;> exact ⟨rfl, rfl⟩

end Sys2Proof.Machine
end

section
/-! PROOFS. The invariant of the state and what changes the status, the registers and LASTCMD (10_state.md section 6,
60_exceptions.md R275). -/

open Sys2Proof Sys2Proof.Machine

/-- Settles O48: one lemma for each operation that a step is made of. -/
theorem stepKeepsInvariant : Obligations.StepKeepsInvariant := fun _ _ => step_inv

/-- Settles O49. -/
theorem resetMeetsInvariant : Obligations.ResetMeetsInvariant := inv_reset

/-- Settles O50: with the invariant a word is pending whenever the engine is enabled. -/
theorem stepAnswersNext : Obligations.StepAnswersNext := fun _ => State.Inv.exists_step

/-- Settles O13: of the transitions with BUSY 0, only the CLR action and the reset touch the recorded fault. -/
theorem errorStateIsSticky : Obligations.ErrorStateIsSticky := by
  intro s he hb
  refine ⟨fun noClear noReset => ?_, fun w hw => step_drops_cmd (.inr he) hw⟩
  obtain ⟨t, ht⟩ := exists_step (s := s) (by simp [hb])
  refine ⟨t, ht, ?_⟩
  cases transition_of_step ht with
  | idle => exact ⟨he, rfl, rfl⟩
  | faulted f turn busy => simp [hb] at busy
  | completed result turn busy => simp [hb] at busy
  | host next effect =>
    obtain ⟨err, code, info⟩ := effect.fault_kept next noClear
    exact ⟨err.trans he, code, info⟩
  | reset next => exact absurd next noReset

/-- Settles O52: LASTCMD is written where the word is accepted and at reset. -/
theorem lastCommandIsTheLastAccepted : Obligations.LastCommandIsTheLastAccepted := by
  intro s t ht
  refine ⟨fun w ⟨hb, he, _⟩ hw => ?_, fun next => ?_, fun noAccept noReset => ?_⟩
  · rw [step_accepts hb he hw] at ht
    cases ht
    exact ⟨rfl, rfl⟩
  · rw [step_of_nextIs_reset next] at ht
    cases ht
    rfl
  · cases transition_of_step ht with
    | idle => rfl
    | faulted => rfl
    | completed result turn busy write => rw [completed_lastCmd, write.eq_with_data]
    | host next effect => exact effect.lastCmd_kept next noAccept
    | reset next => exact absurd next noReset

/-- Settles O53: no host access writes a register, and fault entry writes none. -/
theorem registersChangeOnlyAtCompletion : Obligations.RegistersChangeOnlyAtCompletion := by
  intro s t ht changed
  cases transition_of_step ht with
  | idle => exact absurd changed (by simp)
  | faulted => exact absurd changed (by simp)
  | completed result turn busy write => exact .inr ⟨busy, turn, rfl, rfl⟩
  | host next effect => exact absurd changed (by simp [effect.regs_kept])
  | reset next => exact .inl next

/-- Settles O51: the nine clauses for each transition. -/
theorem statusBitsChangeOnlyAtTheirEvents : Obligations.StatusBitsChangeOnlyAtTheirEvents := by
  intro s t ht
  cases transition_of_step ht with
  | idle turn idle => simp +contextual
  | faulted f turn busy => simp +contextual [busy, turn]
  | completed result turn busy write =>
    rw [write.eq_with_data]
    simp +contextual [busy, turn]
  | host next effect =>
    cases effect with
    | read | ignored | enable | store => simp +contextual
    | clear w clr idle =>
      have clears : clearNext s := ⟨idle, w, next, clr⟩
      simp +contextual [clears]
    | accept w idle noErr =>
      have accepts : acceptNext s := ⟨idle, noErr, w, next⟩
      simp +contextual [accepts]
    | dropCmd w refused =>
      have drops : dropNext s := .inl ⟨refused, w, next⟩
      simp +contextual [drops]
    | dropBmem off w low high aligned busy =>
      have drops : dropNext s := .inr ⟨busy, off, w, low, high, aligned, next⟩
      simp +contextual [drops]
  | reset next => simp +contextual [nextIs, show s.schedule.head? = some .reset from next, State.reset]

end

section
/-! PROOF SUPPORT. The word of a command field by field (30_encoding.md R91 to R97): which word a command has, that it
has one at most, and that the decoder reads a word as the well-formed command whose word it is. -/

namespace Sys2Proof

open Machine

/-- The fields of the word are those of the command, in its format (R92 to R96). -/
def Instr.HasWord (i : Instr) (w : Word) : Prop :=
  match i with
  | .padd pd pa pb | .psub pd pa pb | .pwmul pd pa pb => formatR i.opcode pd.val pa.val pb.val w
  | .ntt pd pa | .intt pd pa => formatR i.opcode pd.val pa.val 0 w
  | .encode r d dom addr | .decode r d dom addr => formatM i.opcode r.val d dom.bit addr w
  | .serialize r d addr | .deserialize r d addr => formatM i.opcode r.val d 0 addr w
  | .samplecbd pd n len addr => formatB i.opcode pd.val n len addr w
  | .sampleu pd len addr => formatU i.opcode pd.val len addr w
  | .zeroize => formatZ i.opcode w

theorem hasWord_encode {i : Instr} (h : i.WellFormed = true) : i.HasWord (encode i) := by
  cases i with
  | padd pd pa pb => exact formatR_encode (.padd pd pa pb) rfl
  | psub pd pa pb => exact formatR_encode (.psub pd pa pb) rfl
  | pwmul pd pa pb => exact formatR_encode (.pwmul pd pa pb) rfl
  | ntt pd pa => exact formatR_encode (pb := 0) (.ntt pd pa) (by simp [Instr.operandBits])
  | intt pd pa => exact formatR_encode (pb := 0) (.intt pd pa) (by simp [Instr.operandBits])
  | encode r d dom addr =>
    obtain ⟨hd, ha⟩ := of_decide_eq_true h
    exact formatM_encode (.encode r d dom addr) hd dom.bit_le ha rfl
  | decode r d dom addr =>
    obtain ⟨hd, ha⟩ := of_decide_eq_true h
    exact formatM_encode (.decode r d dom addr) hd dom.bit_le ha rfl
  | serialize r d addr =>
    obtain ⟨hd, ha⟩ := of_decide_eq_true h
    exact formatM_encode (.serialize r d addr) hd zero_le_one ha (by simp [Instr.operandBits])
  | deserialize r d addr =>
    obtain ⟨hd, ha⟩ := of_decide_eq_true h
    exact formatM_encode (.deserialize r d addr) hd zero_le_one ha (by simp [Instr.operandBits])
  | samplecbd pd n len addr =>
    obtain ⟨hn, hlen, ha⟩ := of_decide_eq_true h
    exact formatB_encode (.samplecbd pd n len addr) hn hlen ha rfl
  | sampleu pd len addr =>
    obtain ⟨hlen, ha⟩ := of_decide_eq_true h
    exact formatU_encode (.sampleu pd len addr) hlen ha rfl
  | zeroize => exact formatZ_encode .zeroize rfl

/-! ### The fields of a format are the whole word -/

/-- The words agree in their bits below `n`. -/
def AgreeBelow (n : Nat) (v w : Word) : Prop := v.toNat % 2 ^ n = w.toNat % 2 ^ n

section
variable {v w : Word}

/-- Words that agree below a field and in it agree up to the field's highest bit. -/
theorem AgreeBelow.append {n hi : Nat} (low : AgreeBelow n v w) (h : field v hi n = field w hi n)
    (hn : n ≤ hi + 1 := by decide) : AgreeBelow (hi + 1) v w := by
  have split : 2 ^ (hi + 1) = 2 ^ n * 2 ^ (hi + 1 - n) := by rw [← Nat.pow_add, Nat.add_sub_cancel' hn]
  rw [field_eq, field_eq] at h
  rw [AgreeBelow, split, Nat.mod_mul, Nat.mod_mul, h, show v.toNat % 2 ^ n = w.toNat % 2 ^ n from low]

theorem agreeBelow_of_field {hi : Nat} (h : field v hi 0 = field w hi 0) : AgreeBelow (hi + 1) v w :=
  AgreeBelow.append (n := 0) (by simp [AgreeBelow, Nat.mod_one]) h (Nat.zero_le _)

theorem AgreeBelow.eq (h : AgreeBelow 32 v w) : v = w :=
  BitVec.eq_of_toNat_eq (by rwa [AgreeBelow, Nat.mod_eq_of_lt v.isLt, Nat.mod_eq_of_lt w.isLt] at h)

theorem formatR_inj {op pd pa pb : Nat} (hv : formatR op pd pa pb v) (hw : formatR op pd pa pb w) : v = w := by
  obtain ⟨hop, hpd, hpa, hpb, hz⟩ := hw
  obtain ⟨rfl, rfl, rfl, rfl, hz'⟩ := hv
  exact (agreeBelow_of_field (hz'.trans hz.symm)).append hpb.symm |>.append hpa.symm |>.append hpd.symm
    |>.append hop.symm |>.eq

theorem formatM_inj {op r d n addr : Nat} (hv : formatM op r d n addr v) (hw : formatM op r d n addr w) : v = w := by
  obtain ⟨hop, hr, hd, hn, hz, haddr⟩ := hw
  obtain ⟨rfl, rfl, rfl, rfl, hz', rfl⟩ := hv
  exact (agreeBelow_of_field haddr.symm).append (hz'.trans hz.symm) |>.append hn.symm |>.append hd.symm
    |>.append hr.symm |>.append hop.symm |>.eq

theorem formatB_inj {op pd n len addr : Nat} (hv : formatB op pd n len addr v) (hw : formatB op pd n len addr w) :
    v = w := by
  obtain ⟨hop, hpd, hn, hlen, hz, haddr⟩ := hw
  obtain ⟨rfl, rfl, rfl, rfl, hz', rfl⟩ := hv
  exact (agreeBelow_of_field haddr.symm).append (hz'.trans hz.symm) |>.append hlen.symm |>.append hn.symm
    |>.append hpd.symm |>.append hop.symm |>.eq

theorem formatU_inj {op pd len addr : Nat} (hv : formatU op pd len addr v) (hw : formatU op pd len addr w) : v = w := by
  obtain ⟨hop, hpd, hlen, hz, haddr⟩ := hw
  obtain ⟨rfl, rfl, rfl, hz', rfl⟩ := hv
  exact (agreeBelow_of_field haddr.symm).append (hz'.trans hz.symm) |>.append hlen.symm |>.append hpd.symm
    |>.append hop.symm |>.eq

theorem formatZ_inj {op : Nat} (hv : formatZ op v) (hw : formatZ op w) : v = w := by
  obtain ⟨hop, hz⟩ := hw
  obtain ⟨rfl, hz'⟩ := hv
  exact (agreeBelow_of_field (hz'.trans hz.symm)).append hop.symm |>.eq

end

theorem Instr.HasWord.unique {i : Instr} {v w : Word} (hv : i.HasWord v) (hw : i.HasWord w) : v = w := by
  cases i with
  | padd | psub | pwmul | ntt | intt => exact formatR_inj hv hw
  | encode | decode | serialize | deserialize => exact formatM_inj hv hw
  | samplecbd => exact formatB_inj hv hw
  | sampleu => exact formatU_inj hv hw
  | zeroize => exact formatZ_inj hv hw

/-! ### What the decoder reads -/

theorem field_lt (w : Word) (hi lo : Nat) : field w hi lo < 2 ^ (hi + 1 - lo) := Nat.mod_lt _ (Nat.two_pow_pos _)

theorem regField_val (w : Word) (lo : Nat) : (regField w lo).val = field w (lo + 2) lo := by
  have small := field_lt w (lo + 2) lo
  rw [show lo + 2 + 1 - lo = 3 by omega] at small
  exact Nat.mod_eq_of_lt small

theorem regField_eq_iff (w : Word) (lo : Nat) (r : Reg) : regField w lo = r ↔ field w (lo + 2) lo = r.val := by
  rw [← Fin.val_inj, regField_val]

theorem domainField_bit (w : Word) : (domainField w).bit = field w 19 19 := by
  have small := field_lt w 19 19
  unfold domainField
  split_ifs with h
  · exact h.symm
  · exact (show 1 = field w 19 19 by omega)

theorem domainField_eq_iff (w : Word) (dom : Domain) : domainField w = dom ↔ field w 19 19 = dom.bit := by
  rw [← domainField_bit]
  cases dom <;> cases domainField w <;> decide

/-! #### Each format of R98: its decoder answers the command whose fields the word has -/

variable {w : Word} {op : Nat} (hop : field w 31 27 = op) (i : Instr)
include hop

theorem decodeThreeRegs_iff_formatR (make : Reg → Reg → Reg → Instr) :
    decodeThreeRegs w make = .command i ↔
      ∃ pd pa pb : Reg, make pd pa pb = i ∧ formatR op pd.val pa.val pb.val w := by
  simp only [decodeThreeRegs_eq_command, formatR, hop, true_and, ← regField_eq_iff w 24, ← regField_eq_iff w 21,
    ← regField_eq_iff w 18]
  constructor
  · rintro ⟨hi, hz⟩
    exact ⟨_, _, _, hi, rfl, rfl, rfl, hz⟩
  · rintro ⟨_, _, _, hi, rfl, rfl, rfl, hz⟩
    exact ⟨hi, hz⟩

theorem decodeTwoRegs_iff_formatR (make : Reg → Reg → Instr) :
    decodeTwoRegs w make = .command i ↔ ∃ pd pa : Reg, make pd pa = i ∧ formatR op pd.val pa.val 0 w := by
  simp only [decodeTwoRegs_eq_command, field_pb_reserved_eq_zero, formatR, hop, true_and, ← regField_eq_iff w 24,
    ← regField_eq_iff w 21]
  constructor
  · rintro ⟨hi, hz, hpb⟩
    exact ⟨_, _, hi, rfl, rfl, hpb, hz⟩
  · rintro ⟨_, _, hi, rfl, rfl, hpb, hz⟩
    exact ⟨hi, hz, hpb⟩

theorem decodePack_iff_formatM (make : Reg → Nat → Domain → Nat → Instr) :
    decodePack w make = .command i ↔ ∃ (r : Reg) (d : Nat) (dom : Domain) (addr : Nat),
      make r d dom addr = i ∧ (widthLegal d ∧ addrFits addr) ∧ formatM op r.val d dom.bit addr w := by
  simp only [decodePack_eq_command, formatM, hop, true_and, ← regField_eq_iff w 24, ← domainField_eq_iff]
  constructor
  · rintro ⟨hi, hz, hd⟩
    exact ⟨_, _, _, _, hi, ⟨hd, field_lt w 10 0⟩, rfl, rfl, rfl, hz, rfl⟩
  · rintro ⟨_, _, _, _, hi, ⟨hd, -⟩, rfl, rfl, rfl, hz, rfl⟩
    exact ⟨hi, hz, hd⟩

theorem decodePackStd_iff_formatM (make : Reg → Nat → Nat → Instr) :
    decodePackStd w make = .command i ↔ ∃ (r : Reg) (d addr : Nat),
      make r d addr = i ∧ (widthLegal d ∧ addrFits addr) ∧ formatM op r.val d 0 addr w := by
  simp only [decodePackStd_eq_command, field_domain_reserved_eq_zero, formatM, hop, true_and, ← regField_eq_iff w 24]
  constructor
  · rintro ⟨hi, ⟨hz, hn⟩, hd⟩
    exact ⟨_, _, _, hi, ⟨hd, field_lt w 10 0⟩, rfl, rfl, hn, hz, rfl⟩
  · rintro ⟨_, _, _, hi, ⟨hd, -⟩, rfl, rfl, hn, hz, rfl⟩
    exact ⟨hi, ⟨hz, hn⟩, hd⟩

theorem decodeBinomial_iff_formatB (make : Reg → Nat → Nat → Nat → Instr) :
    decodeBinomial w make = .command i ↔ ∃ (pd : Reg) (n len addr : Nat),
      make pd n len addr = i ∧ (binomialLegal n ∧ len < 512 ∧ addrFits addr) ∧ formatB op pd.val n len addr w := by
  simp only [decodeBinomial_eq_command, formatB, hop, true_and, ← regField_eq_iff w 24]
  constructor
  · rintro ⟨hi, hz, hn⟩
    exact ⟨_, _, _, _, hi, ⟨⟨hn, Nat.le_of_lt_succ (field_lt w 23 21)⟩, field_lt w 20 12, field_lt w 10 0⟩,
      rfl, rfl, rfl, hz, rfl⟩
  · rintro ⟨_, _, _, _, hi, ⟨⟨hn, -⟩, -⟩, rfl, rfl, rfl, hz, rfl⟩
    exact ⟨hi, hz, hn⟩

theorem decodeUniform_iff_formatU (make : Reg → Nat → Nat → Instr) :
    decodeUniform w make = .command i ↔ ∃ (pd : Reg) (len addr : Nat),
      make pd len addr = i ∧ (len < 4096 ∧ addrFits addr) ∧ formatU op pd.val len addr w := by
  simp only [decodeUniform_eq_command, formatU, hop, true_and, ← regField_eq_iff w 24]
  constructor
  · rintro ⟨hi, hz⟩
    exact ⟨_, _, _, hi, ⟨field_lt w 23 12, field_lt w 10 0⟩, rfl, rfl, hz, rfl⟩
  · rintro ⟨_, _, _, hi, -, rfl, rfl, hz, rfl⟩
    exact ⟨hi, hz⟩

theorem decodeBare_iff_formatZ (c : Instr) : decodeBare w c = .command i ↔ c = i ∧ formatZ op w := by
  simp only [decodeBare_eq_command, formatZ, hop, true_and]

omit hop

/-- The decoder reads a word as `i` exactly when `i` is well-formed and the word is that of `i`. -/
theorem decode_eq_command_iff (w : Word) (i : Instr) :
    decode w = .command i ↔ i.WellFormed = true ∧ i.HasWord w := by
  constructor
  · rw [decode]
    split <;> rename_i hop
    case h_1 | h_2 | h_5 =>
      rw [decodeThreeRegs_iff_formatR hop]
      rintro ⟨_, _, _, rfl, hw⟩
      exact ⟨rfl, hw⟩
    case h_3 | h_4 =>
      rw [decodeTwoRegs_iff_formatR hop]
      rintro ⟨_, _, rfl, hw⟩
      exact ⟨rfl, hw⟩
    case h_6 | h_7 =>
      rw [decodePack_iff_formatM hop]
      rintro ⟨_, _, _, _, rfl, legal, hw⟩
      exact ⟨decide_eq_true legal, hw⟩
    case h_8 | h_9 =>
      rw [decodePackStd_iff_formatM hop]
      rintro ⟨_, _, _, rfl, legal, hw⟩
      exact ⟨decide_eq_true legal, hw⟩
    case h_10 =>
      rw [decodeBinomial_iff_formatB hop]
      rintro ⟨_, _, _, _, rfl, legal, hw⟩
      exact ⟨decide_eq_true legal, hw⟩
    case h_11 =>
      rw [decodeUniform_iff_formatU hop]
      rintro ⟨_, _, _, rfl, legal, hw⟩
      exact ⟨decide_eq_true legal, hw⟩
    case h_12 =>
      rw [decodeBare_iff_formatZ hop]
      rintro ⟨rfl, hw⟩
      exact ⟨rfl, hw⟩
    case h_13 => nofun
  · rintro ⟨legal, hw⟩
    have hop : field w 31 27 = i.opcode := by cases i <;> exact hw.1
    rw [decode, hop]
    cases i with
    | padd | psub | pwmul => exact (decodeThreeRegs_iff_formatR hop _ _).2 ⟨_, _, _, rfl, hw⟩
    | ntt | intt => exact (decodeTwoRegs_iff_formatR hop _ _).2 ⟨_, _, rfl, hw⟩
    | encode | decode => exact (decodePack_iff_formatM hop _ _).2 ⟨_, _, _, _, rfl, of_decide_eq_true legal, hw⟩
    | serialize | deserialize =>
      exact (decodePackStd_iff_formatM hop _ _).2 ⟨_, _, _, rfl, of_decide_eq_true legal, hw⟩
    | samplecbd => exact (decodeBinomial_iff_formatB hop _ _).2 ⟨_, _, _, _, rfl, of_decide_eq_true legal, hw⟩
    | sampleu => exact (decodeUniform_iff_formatU hop _ _).2 ⟨_, _, _, rfl, of_decide_eq_true legal, hw⟩
    | zeroize => exact (decodeBare_iff_formatZ hop _ _).2 ⟨rfl, hw⟩

end Sys2Proof
end

section
/-! PROOFS. The round trips of encoder and decoder (30_encoding.md R91 to R98). -/

open Sys2Proof

/-- Settles O1: the word of a well-formed command has the fields of the command, which is what the decoder reads. -/
theorem decodeOfEncode : Obligations.DecodeOfEncode := fun _ h =>
  (decode_eq_command_iff _ _).2 ⟨h, hasWord_encode h⟩

/-- Settles O2: `w` and the word of the command have the same fields, and the fields of a format are the whole word. -/
theorem encodeOfDecode : Obligations.EncodeOfDecode := fun w i h =>
  have ⟨wellFormed, hasWord⟩ := (decode_eq_command_iff w i).1 h
  ⟨wellFormed, (hasWord_encode wellFormed).unique hasWord⟩

end

section
/-! PROOF SUPPORT. The transforms over the field of the residues modulo 3329: a layer of R181 or R182 is one butterfly
for each pair of places, written in that field without a reduction. -/

namespace Sys2Proof.Machine

/-! ### Coefficients as residues -/

/-- Element `j` of a sequence, as a residue modulo 3329. -/
def residue (x : Coeffs) (j : Nat) : ZMod 3329 := ((coeffAt x j).val : ZMod 3329)

/-- `ZETA[n]` as a residue modulo 3329. -/
def zetaResidue (c : Config) (n : Nat) : ZMod 3329 := ((zetaAt c n).val : ZMod 3329)

theorem coeff_eq_of_residue {a b : Coeff} (h : (a.val : ZMod 3329) = b.val) : a = b := by
  have same := (ZMod.natCast_eq_natCast_iff' a.val b.val 3329).1 h
  rwa [Nat.mod_eq_of_lt a.isLt, Nat.mod_eq_of_lt b.isLt, Fin.val_inj] at same

/-- The value of a coefficient is what its residue leaves modulo 3329. -/
theorem coeff_val_of_residue {a : Coeff} {n : Nat} (h : (a.val : ZMod 3329) = n) : a.val = n % 3329 := by
  rw [← (ZMod.natCast_eq_natCast_iff' a.val n 3329).1 h, Nat.mod_eq_of_lt a.isLt]

theorem eq_of_residue {x y : Coeffs} (h : ∀ j, j < 256 → residue x j = residue y j) : x = y :=
  coeffs_ext fun j hj => coeff_eq_of_residue (h j hj)

/-- `ModQ` keeps the residue. -/
@[simp] theorem modQ_residue (x : Int) : ((modQ x).val : ZMod 3329) = x := by
  have hnonneg : 0 ≤ x % 3329 := Int.emod_nonneg x (by decide)
  rw [modQ_val, ← Int.cast_natCast, Int.toNat_of_nonneg hnonneg, ZMod.intCast_eq_intCast_iff]
  exact Int.mod_modEq x 3329

theorem residue_ofFn (f : Fin 256 → Coeff) {j : Nat} (hj : j < 256) :
    residue (Vector.ofFn f) j = ((f ⟨j, hj⟩).val : ZMod 3329) := by rw [residue, coeffAt_ofFn f hj]

theorem residue_addCoeffs (x y : Coeffs) {j : Nat} (hj : j < 256) :
    residue (addCoeffs x y) j = residue x j + residue y j := by
  simp [addCoeffs, residue, coeffAt_of_lt _ hj]

/-! ### The two places of a butterfly -/

/-- Every place is the first or the second of a pair: block `b` of `2·len` elements, `r` from its start. -/
theorem exists_place {len : Nat} (hl : 0 < len) (hd : 2 * len ∣ 256) {j : Nat} (hj : j < 256) :
    ∃ b r, r < len ∧ 2 * len * b + 2 * len ≤ 256 ∧ (j = 2 * len * b + r ∨ j = 2 * len * b + r + len) := by
  have split := Nat.div_add_mod j (2 * len)
  have small := Nat.mod_lt j (show 0 < 2 * len by omega)
  have fits := block_bound hl hd hj
  by_cases first : j % (2 * len) < len
  · exact ⟨j / (2 * len), j % (2 * len), first, fits, .inl split.symm⟩
  · exact ⟨j / (2 * len), j % (2 * len) - len, by omega, fits, .inr (by omega)⟩

theorem block_of_place {len b j : Nat} (h : 2 * len * b ≤ j) (h' : j < 2 * len * b + 2 * len) :
    j / (2 * len) = b := by
  have hcomm : b * (2 * len) = 2 * len * b := Nat.mul_comm _ _
  rw [Nat.div_eq_iff (by omega)]
  omega

section
variable {c : Config} {first len b r : Nat} {x : Coeffs} (hr : r < len) (hb : 2 * len * b + 2 * len ≤ 256)
include hr hb

theorem residue_forwardLayerAt_fst : residue (forwardLayerAt c first len x) (2 * len * b + r) =
    residue x (2 * len * b + r) + zetaResidue c (first + b) * residue x (2 * len * b + r + len) := by
  rw [forwardLayerAt, residue_ofFn _ (by omega)]
  simp only [block_of_place (len := len) (b := b) (j := 2 * len * b + r) (by omega) (by omega)]
  rw [forwardElement, if_pos (by omega)]
  simp [residue, zetaResidue]

theorem residue_forwardLayerAt_snd : residue (forwardLayerAt c first len x) (2 * len * b + r + len) =
    residue x (2 * len * b + r) - zetaResidue c (first + b) * residue x (2 * len * b + r + len) := by
  rw [forwardLayerAt, residue_ofFn _ (by omega)]
  simp only [block_of_place (len := len) (b := b) (j := 2 * len * b + r + len) (by omega) (by omega)]
  rw [forwardElement, if_neg (by omega), if_pos (by omega), Nat.add_sub_cancel]
  simp [residue, zetaResidue]

theorem residue_inverseLayerAt_fst : residue (inverseLayerAt c first len x) (2 * len * b + r) =
    residue x (2 * len * b + r) + residue x (2 * len * b + r + len) := by
  rw [inverseLayerAt, residue_ofFn _ (by omega)]
  simp only [block_of_place (len := len) (b := b) (j := 2 * len * b + r) (by omega) (by omega)]
  rw [inverseElement, if_pos (by omega)]
  simp [residue]

theorem residue_inverseLayerAt_snd : residue (inverseLayerAt c first len x) (2 * len * b + r + len) =
    zetaResidue c (first - b) * (residue x (2 * len * b + r + len) - residue x (2 * len * b + r)) := by
  rw [inverseLayerAt, residue_ofFn _ (by omega)]
  simp only [block_of_place (len := len) (b := b) (j := 2 * len * b + r + len) (by omega) (by omega)]
  rw [inverseElement, if_neg (by omega), if_pos (by omega), Nat.add_sub_cancel]
  simp [residue, zetaResidue]

end

end Sys2Proof.Machine
end

section
/-! PROOF SUPPORT. The round trip (43_ntt.md section 2): an inverse layer undoes the forward layer of the same length up
to the factor 2, in both orders, by the inverse pairing of the table; 2^7 · 3303 = 1. -/

namespace Sys2Proof.Machine

/-- `y` is `k` times `x`, element by element. -/
def IsMultiple (k : ZMod 3329) (x y : Coeffs) : Prop := ∀ j, j < 256 → residue y j = k * residue x j

theorem IsMultiple.refl (x : Coeffs) : IsMultiple 1 x x := fun _ _ => (one_mul _).symm

theorem IsMultiple.trans {k m : ZMod 3329} {x y z : Coeffs} (h : IsMultiple k x y) (h' : IsMultiple m y z) :
    IsMultiple (m * k) x z := fun j hj => by rw [h' j hj, h j hj, mul_assoc]

theorem IsMultiple.eq {k : ZMod 3329} {x y : Coeffs} (h : IsMultiple k x y) (hk : k = 1) : y = x :=
  eq_of_residue fun j hj => by rw [h j hj, hk, one_mul]

/-- The last factor of `NttInverse`. -/
theorem isMultiple_inv128 (x : Coeffs) : IsMultiple 3303 x (x.map fun v => modQ ((v.val : Int) * inv128)) :=
  fun j hj => by
    simp only [residue, coeffAt_of_lt _ hj, Vector.getElem_map, modQ_residue]
    push_cast [inv128]
    ring

/-- The pairing of R184 (a) for the block `b` of layer `l`, in the field. -/
theorem InversePairing.mul_eq {c : Config} (h : InversePairing c) {l b : Nat} (hl : l < 7) (hb : b < 2 ^ l) :
    zetaResidue c (2 ^ l + b) * zetaResidue c (2 ^ (l + 1) - 1 - b) = -1 := by
  have pair := (ZMod.natCast_eq_natCast_iff' _ 3328 3329).2 (h l hl b hb)
  rw [Nat.cast_mul] at pair
  exact pair.trans (by decide)

variable {c : Config} {k : ZMod 3329} {l len : Nat} {x y : Coeffs}

/-- A sequence is a multiple as soon as it is at both places of every butterfly. -/
theorem isMultiple_of_places (hlen : 2 ^ l * (2 * len) = 256)
    (h : ∀ b r, b < 2 ^ l → r < len → 2 * len * b + 2 * len ≤ 256 →
      residue y (2 * len * b + r) = k * residue x (2 * len * b + r) ∧
        residue y (2 * len * b + r + len) = k * residue x (2 * len * b + r + len)) : IsMultiple k x y := by
  have hpos : 0 < len := by
    rcases Nat.eq_zero_or_pos len with rfl | hpos
    · simp at hlen
    · exact hpos
  intro j hj
  obtain ⟨b, r, hr, fits, place⟩ := exists_place hpos ⟨2 ^ l, by rw [Nat.mul_comm, hlen]⟩ hj
  have hb : b < 2 ^ l := by
    have le : (b + 1) * (2 * len) ≤ 2 ^ l * (2 * len) := by rw [hlen, Nat.add_mul, Nat.mul_comm]; omega
    exact Nat.le_of_mul_le_mul_right le (by omega)
  obtain ⟨fst, snd⟩ := h b r hb hr fits
  rcases place with rfl | rfl
  · exact fst
  · exact snd

/-- An inverse layer undoes a forward layer. -/
theorem IsMultiple.inverse_forward (hc : InversePairing c) (hl : l < 7) (hlen : 2 ^ l * (2 * len) = 256)
    (h : IsMultiple k (forwardLayerAt c (2 ^ l) len x) y) :
    IsMultiple (k * 2) x (inverseLayerAt c (2 ^ (l + 1) - 1) len y) := by
  refine isMultiple_of_places hlen fun b r hb hr fits => ?_
  have pair := hc.mul_eq hl hb
  have fst := h (2 * len * b + r) (by omega)
  have snd := h (2 * len * b + r + len) (by omega)
  rw [residue_forwardLayerAt_fst hr fits] at fst
  rw [residue_forwardLayerAt_snd hr fits] at snd
  rw [residue_inverseLayerAt_fst hr fits, residue_inverseLayerAt_snd hr fits, fst, snd]
  constructor
  · ring
  · linear_combination (-2 * k * residue x (2 * len * b + r + len)) * pair

/-- A forward layer undoes an inverse layer. -/
theorem IsMultiple.forward_inverse (hc : InversePairing c) (hl : l < 7) (hlen : 2 ^ l * (2 * len) = 256)
    (h : IsMultiple k (inverseLayerAt c (2 ^ (l + 1) - 1) len x) y) :
    IsMultiple (k * 2) x (forwardLayerAt c (2 ^ l) len y) := by
  refine isMultiple_of_places hlen fun b r hb hr fits => ?_
  have pair := hc.mul_eq hl hb
  have fst := h (2 * len * b + r) (by omega)
  have snd := h (2 * len * b + r + len) (by omega)
  rw [residue_inverseLayerAt_fst hr fits] at fst
  rw [residue_inverseLayerAt_snd hr fits] at snd
  rw [residue_forwardLayerAt_fst hr fits, residue_forwardLayerAt_snd hr fits, fst, snd]
  constructor
  · linear_combination (k * (residue x (2 * len * b + r + len) - residue x (2 * len * b + r))) * pair
  · linear_combination (-k * (residue x (2 * len * b + r + len) - residue x (2 * len * b + r))) * pair

theorem nttInverse_ntt (hc : InversePairing c) (f : Coeffs) : nttInverse c (ntt c f) = f := by
  have h0 := IsMultiple.refl (ntt c f)
  nth_rw 1 [ntt_eq_layers] at h0
  have h1 := h0.inverse_forward hc (l := 6) (by decide) (by decide)
  have h2 := h1.inverse_forward hc (l := 5) (by decide) (by decide)
  have h3 := h2.inverse_forward hc (l := 4) (by decide) (by decide)
  have h4 := h3.inverse_forward hc (l := 3) (by decide) (by decide)
  have h5 := h4.inverse_forward hc (l := 2) (by decide) (by decide)
  have h6 := h5.inverse_forward hc (l := 1) (by decide) (by decide)
  have h7 := h6.inverse_forward hc (l := 0) (by decide) (by decide)
  rw [nttInverse_eq_layers]
  exact (h7.trans (isMultiple_inv128 _)).eq (by decide)

theorem ntt_nttInverse (hc : InversePairing c) (g : Coeffs) : ntt c (nttInverse c g) = g := by
  have h0 := isMultiple_inv128 (inverseLayerAt c 1 128 (inverseLayerAt c 3 64 (inverseLayerAt c 7 32
    (inverseLayerAt c 15 16 (inverseLayerAt c 31 8 (inverseLayerAt c 63 4 (inverseLayerAt c 127 2 g)))))))
  rw [← nttInverse_eq_layers] at h0
  have h1 := h0.forward_inverse hc (l := 0) (by decide) (by decide)
  have h2 := h1.forward_inverse hc (l := 1) (by decide) (by decide)
  have h3 := h2.forward_inverse hc (l := 2) (by decide) (by decide)
  have h4 := h3.forward_inverse hc (l := 3) (by decide) (by decide)
  have h5 := h4.forward_inverse hc (l := 4) (by decide) (by decide)
  have h6 := h5.forward_inverse hc (l := 5) (by decide) (by decide)
  have h7 := h6.forward_inverse hc (l := 6) (by decide) (by decide)
  rw [ntt_eq_layers]
  exact h7.eq (by decide)

end Sys2Proof.Machine
end

section
/-! PROOF SUPPORT. The closed form (43_ntt.md section 2): after the layers with `n` blocks, each block holds the remainder of
the polynomial modulo `X^B - w`, B = 256/n, where `w` is the root of the block. A layer splits a block by the two square
roots of `w`, which the tower of the table gives. -/

namespace Sys2Proof.Machine

/-- The root of the block that is the `b`-th of `n`, under the one index `n + b`; index 1 is the whole sequence, whose
polynomial is taken modulo `X^256 + 1`. -/
def root (c : Config) (i : Nat) : ZMod 3329 :=
  if i = 1 then -1 else if i % 2 = 0 then zetaResidue c (i / 2) else -zetaResidue c (i / 2)

@[simp] theorem root_one (c : Config) : root c 1 = -1 := if_pos rfl

@[simp] theorem root_even (c : Config) (i : Nat) : root c (2 * i) = zetaResidue c i := by
  rw [root, if_neg (by omega), if_pos (by omega), Nat.mul_div_cancel_left i (by decide)]

theorem root_odd (c : Config) {i : Nat} (hi : 1 ≤ i) : root c (2 * i + 1) = -zetaResidue c i := by
  rw [root, if_neg (by omega), if_neg (by omega), show (2 * i + 1) / 2 = i by omega]

/-- `GAMMA` is the roots of the last layer (R202). -/
theorem gammaAt_residue (c : Config) (i : Nat) : ((gammaAt c i).val : ZMod 3329) = root c (128 + i) := by
  have half := Nat.mod_add_div i 2
  unfold gammaAt
  split_ifs with even
  · rw [show 128 + i = 2 * (64 + i / 2) by omega, root_even, zetaResidue]
  · rw [show 128 + i = 2 * (64 + i / 2) + 1 by omega, root_odd c (by omega), modQ_residue, zetaResidue]
    push_cast
    rfl

/-- The tower of R184 (b) in one equation: `ZETA[i]` is a square root of the root of block `i`. -/
theorem Tower.sq_eq {c : Config} (h : Tower c) {i : Nat} (hpos : 1 ≤ i) (hi : i < 128) :
    zetaResidue c i ^ 2 = root c i := by
  obtain ⟨first, rest⟩ := h
  have toField {a b : Nat} (hab : a % 3329 = b % 3329) : (a : ZMod 3329) = b :=
    (ZMod.natCast_eq_natCast_iff' a b 3329).2 hab
  obtain rfl | ⟨m, hm, rfl | rfl⟩ : i = 1 ∨ ∃ m, 1 ≤ m ∧ (i = 2 * m ∨ i = 2 * m + 1) := by
    rcases Nat.lt_or_ge i 2 with small | large
    · exact .inl (by omega)
    · exact .inr ⟨i / 2, by omega, by omega⟩
  · have square := toField (b := 3328) first
    rw [Nat.cast_pow] at square
    rw [zetaResidue, square, root_one]
    decide
  · have square := toField (((rest m hm (by omega)).1).trans (Nat.mod_eq_of_lt (zetaAt c m).isLt).symm)
    rw [Nat.cast_pow] at square
    rw [zetaResidue, square, root_even, zetaResidue]
  · have square := toField (b := 0) (rest m hm (by omega)).2
    push_cast at square
    rw [root_odd c hm]
    exact eq_neg_of_add_eq_zero_left square

/-- Over blocks of `size` elements, `n` of them: block `b` of `y` is the remainder of `f` modulo `X^size - root (n + b)`. -/
def HoldsRemainders (c : Config) (f : Coeffs) (n size : Nat) (y : Coeffs) : Prop :=
  ∀ b r, b < n → r < size →
    residue y (size * b + r) = ∑ k ∈ Finset.range n, residue f (r + size * k) * root c (n + b) ^ k

/-- A sum over an even number of terms, two at a time. -/
theorem sum_range_two_mul {M : Type*} [AddCommMonoid M] (a : Nat → M) (n : Nat) :
    ∑ k ∈ Finset.range (2 * n), a k = ∑ k ∈ Finset.range n, (a (2 * k) + a (2 * k + 1)) := by
  induction n with
  | zero => rfl
  | succ n ih => rw [Nat.mul_succ, Finset.sum_range_succ, Finset.sum_range_succ, ih, Finset.sum_range_succ, add_assoc]

/-- A polynomial at a root `v` of `w = v²` from its even and its odd part at `w`. -/
theorem sum_mul_pow_of_sq {v w : ZMod 3329} (hw : v ^ 2 = w) (a : Nat → ZMod 3329) (n : Nat) :
    ∑ k ∈ Finset.range (2 * n), a k * v ^ k =
      ∑ k ∈ Finset.range n, a (2 * k) * w ^ k + v * ∑ k ∈ Finset.range n, a (2 * k + 1) * w ^ k := by
  rw [sum_range_two_mul, Finset.sum_add_distrib, Finset.mul_sum]
  refine congrArg₂ (· + ·) (Finset.sum_congr rfl fun k _ => ?_) (Finset.sum_congr rfl fun k _ => ?_)
  · rw [pow_mul, hw]
  · rw [pow_succ, pow_mul, hw]
    ring

theorem holdsRemainders_start (c : Config) (f : Coeffs) : HoldsRemainders c f 1 256 f := by
  intro b r hb _
  obtain rfl : b = 0 := by omega
  simp

/-- A square root `v` of the root of block `m` joins the two halves of the block. -/
theorem HoldsRemainders.join {c : Config} {f y : Coeffs} {n len m r : Nat} (h : HoldsRemainders c f n (2 * len) y)
    (hm : m < n) (hr : r < len) {v : ZMod 3329} (hv : v ^ 2 = root c (n + m)) :
    residue y (2 * len * m + r) + v * residue y (2 * len * m + r + len) =
      ∑ k ∈ Finset.range (2 * n), residue f (r + len * k) * v ^ k := by
  have even (k : Nat) : r + len * (2 * k) = r + 2 * len * k := by ring
  have odd (k : Nat) : r + len * (2 * k + 1) = r + len + 2 * len * k := by ring
  rw [sum_mul_pow_of_sq hv]
  simp only [even, odd]
  rw [h m r hm (by omega), Nat.add_assoc, h m (r + len) hm (by omega)]

/-- A layer splits every block in two. -/
theorem HoldsRemainders.layer {c : Config} (hc : Tower c) {f y : Coeffs} {n len : Nat} (hn : 1 ≤ n) (hn' : 2 * n ≤ 128)
    (hsize : 2 * len * n = 256) (h : HoldsRemainders c f n (2 * len) y) :
    HoldsRemainders c f (2 * n) len (forwardLayerAt c n len y) := by
  intro b r hb hr
  obtain ⟨m, hm, place⟩ : ∃ m, m < n ∧ (b = 2 * m ∨ b = 2 * m + 1) := ⟨b / 2, by omega, by omega⟩
  have fits : 2 * len * m + 2 * len ≤ 256 := by
    rw [← hsize, ← Nat.mul_succ]
    exact Nat.mul_le_mul_left _ hm
  have square := hc.sq_eq (i := n + m) (by omega) (by omega)
  rcases place with rfl | rfl
  · rw [show len * (2 * m) + r = 2 * len * m + r by ring, residue_forwardLayerAt_fst hr fits, h.join hm hr square,
      ← Nat.mul_add, root_even]
  · rw [show len * (2 * m + 1) + r = 2 * len * m + r + len by ring, residue_forwardLayerAt_snd hr fits, sub_eq_add_neg,
      ← neg_mul, h.join hm hr (by rw [neg_sq, square]), ← Nat.add_assoc, ← Nat.mul_add, root_odd c (by omega)]

/-- All seven layers. -/
theorem holdsRemainders_ntt {c : Config} (hc : Tower c) (f : Coeffs) : HoldsRemainders c f 128 2 (ntt c f) := by
  rw [ntt_eq_layers]
  have h1 := (holdsRemainders_start c f).layer hc (len := 128) (by decide) (by decide) (by decide)
  have h2 := h1.layer hc (len := 64) (by decide) (by decide) (by decide)
  have h3 := h2.layer hc (len := 32) (by decide) (by decide) (by decide)
  have h4 := h3.layer hc (len := 16) (by decide) (by decide) (by decide)
  have h5 := h4.layer hc (len := 8) (by decide) (by decide) (by decide)
  have h6 := h5.layer hc (len := 4) (by decide) (by decide) (by decide)
  exact h6.layer hc (len := 2) (by decide) (by decide) (by decide)

theorem residue_ntt_even {c : Config} (hc : Tower c) (f : Coeffs) {i : Nat} (hi : i < 128) :
    residue (ntt c f) (2 * i) = ∑ k ∈ Finset.range 128, residue f (2 * k) * root c (128 + i) ^ k := by
  simpa using holdsRemainders_ntt hc f i 0 hi (by decide)

theorem residue_ntt_odd {c : Config} (hc : Tower c) (f : Coeffs) {i : Nat} (hi : i < 128) :
    residue (ntt c f) (2 * i + 1) = ∑ k ∈ Finset.range 128, residue f (2 * k + 1) * root c (128 + i) ^ k := by
  simpa [Nat.add_comm 1] using holdsRemainders_ntt hc f i 1 hi (by decide)

end Sys2Proof.Machine
end

section
/-! PROOF SUPPORT. The product (44_pwmul.md R200, R201, R205): a pair of the transform is the value of the polynomial at
the root of `X^2 - GAMMA[i]` in the quadratic algebra over the residues, where `X^256 = -1`; the product of two pairs in that
algebra is `BaseMul`. -/

namespace Sys2Proof.Machine

/-! ### Multiply over the residues -/

theorem exists_pair {j : Nat} (hj : j < 256) : ∃ i, i < 128 ∧ (j = 2 * i ∨ j = 2 * i + 1) := ⟨j / 2, by omega, by omega⟩

theorem residue_multiply_even (c : Config) (a b : Coeffs) {i : Nat} (hi : i < 128) :
    residue (multiply c a b) (2 * i) = residue a (2 * i) * residue b (2 * i) +
      residue a (2 * i + 1) * residue b (2 * i + 1) * root c (128 + i) := by
  rw [multiply, residue_ofFn _ (by omega)]
  simp [pairProduct, baseMul, residue, gammaAt_residue]

theorem residue_multiply_odd (c : Config) (a b : Coeffs) {i : Nat} (hi : i < 128) :
    residue (multiply c a b) (2 * i + 1) =
      residue a (2 * i) * residue b (2 * i + 1) + residue a (2 * i + 1) * residue b (2 * i) := by
  rw [multiply, residue_ofFn _ (by omega)]
  simp [pairProduct, baseMul, residue, show (2 * i + 1) / 2 = i by omega]

/-! ### The product in Z_q[X]/(X^256 + 1) at a root of `X^n = -1` -/

/-- The shift of a polynomial by `i` places, where `x^n = -1` brings what leaves at the top back at the bottom, negated. -/
theorem sum_negacyclic_shift {A : Type*} [CommRing A] {x : A} {i m : Nat} (hx : x ^ (i + m) = -1) (b : Nat → A) :
    ∑ k ∈ Finset.range (i + m), (if i ≤ k then b (k - i) else -b (k + (i + m) - i)) * x ^ k =
      x ^ i * ∑ j ∈ Finset.range (i + m), b j * x ^ j := by
  rw [Finset.sum_range_add, Nat.add_comm i m, Finset.sum_range_add, mul_add, add_comm]
  refine congrArg₂ (· + ·) ?_ ?_
  · rw [Finset.mul_sum]
    refine Finset.sum_congr rfl fun k _ => ?_
    rw [if_pos (Nat.le_add_right i k), Nat.add_sub_cancel_left, pow_add]
    ring
  · rw [Finset.mul_sum]
    refine Finset.sum_congr rfl fun k hk => ?_
    have hk := Finset.mem_range.1 hk
    rw [if_neg (by omega), show k + (m + i) - i = m + k by omega, neg_mul, pow_add, mul_left_comm, ← mul_assoc (x ^ i),
      ← pow_add, hx]
    ring

theorem sum_negacyclic {A : Type*} [CommRing A] {x : A} {n : Nat} (hx : x ^ n = -1) (a b : Nat → A) :
    ∑ k ∈ Finset.range n, (∑ i ∈ Finset.range n, if i ≤ k then a i * b (k - i) else -(a i * b (k + n - i))) * x ^ k =
      (∑ i ∈ Finset.range n, a i * x ^ i) * ∑ j ∈ Finset.range n, b j * x ^ j := by
  simp only [Finset.sum_mul]
  rw [Finset.sum_comm]
  refine Finset.sum_congr rfl fun i hi => ?_
  obtain ⟨m, rfl⟩ := Nat.exists_eq_add_of_le (Nat.le_of_lt (Finset.mem_range.1 hi))
  rw [mul_assoc, ← sum_negacyclic_shift hx, Finset.mul_sum]
  refine Finset.sum_congr rfl fun k _ => ?_
  split_ifs <;> ring

theorem residue_ringProduct (f g : Coeffs) {k : Nat} (hk : k < 256) :
    residue (ringProduct f g) k = ∑ i ∈ Finset.range 256,
      if i ≤ k then residue f i * residue g (k - i) else -(residue f i * residue g (k + 256 - i)) := by
  rw [ringProduct, residue_ofFn _ hk, modQ_residue, Int.cast_sum]
  refine Finset.sum_congr rfl fun i _ => ?_
  split_ifs <;> simp [residue]

/-! ### A pair as a value in the quadratic algebra -/

/-- Squaring goes up the tower, from the roots of a layer to those of the layer before. -/
theorem Tower.root_sq {c : Config} (h : Tower c) {i : Nat} (hlow : 2 ≤ i) (hi : i < 256) :
    root c i ^ 2 = root c (i / 2) := by
  have square := h.sq_eq (i := i / 2) (by omega) (by omega)
  rcases Nat.even_or_odd' i with ⟨m, rfl | rfl⟩
  · rwa [root_even, Nat.mul_div_cancel_left m (by decide)] at *
  · rw [root_odd c (by omega), neg_sq]
    rwa [show (2 * m + 1) / 2 = m by omega] at *

/-- A root of the layer with 2^l blocks is a root of `X^(2^l) = -1`. -/
theorem Tower.root_pow {c : Config} (h : Tower c) {l i : Nat} (hlow : 2 ^ l ≤ i) (hhigh : i < 2 ^ (l + 1))
    (hi : i < 256) : root c i ^ 2 ^ l = -1 := by
  induction l generalizing i with
  | zero =>
    obtain rfl : i = 1 := by omega
    rw [pow_zero, pow_one, root_one]
  | succ l ih =>
    have hpos := Nat.two_pow_pos l
    rw [Nat.pow_succ'] at hlow hhigh
    rw [pow_succ', pow_mul, h.root_sq (by omega) hi]
    exact ih (by omega) (by omega) (by omega)

section
open QuadraticAlgebra

variable {γ : ZMod 3329}

/-- The polynomial with the elements of `f` at `X`, where `X^2 = γ`. -/
def valueAt (γ : ZMod 3329) (f : Coeffs) : QuadraticAlgebra (ZMod 3329) γ 0 :=
  ∑ j ∈ Finset.range 256, algebraMap _ _ (residue f j) * omega ^ j

theorem omega_sq : (omega : QuadraticAlgebra (ZMod 3329) γ 0) ^ 2 = algebraMap _ _ γ := by
  rw [pow_two, omega_mul_omega_eq_mk, algebraMap_eq]

theorem omega_pow_256 (hγ : γ ^ 128 = -1) : (omega : QuadraticAlgebra (ZMod 3329) γ 0) ^ 256 = -1 := by
  rw [show 256 = 2 * 128 from rfl, pow_mul, omega_sq, ← map_pow, hγ, map_neg, map_one]

/-- The even places make the constant part and the odd places the linear part. -/
theorem sum_mul_omega_pow (a : Nat → ZMod 3329) (n : Nat) :
    ∑ j ∈ Finset.range (2 * n), algebraMap _ _ (a j) * (omega : QuadraticAlgebra (ZMod 3329) γ 0) ^ j =
      ⟨∑ k ∈ Finset.range n, a (2 * k) * γ ^ k, ∑ k ∈ Finset.range n, a (2 * k + 1) * γ ^ k⟩ := by
  induction n with
  | zero => rfl
  | succ n ih =>
    rw [Nat.mul_succ, Finset.sum_range_succ, Finset.sum_range_succ, ih, pow_succ, pow_mul, omega_sq, ← map_pow]
    ext <;> simp [Finset.sum_range_succ, algebraMap_eq, omega]

/-- A pair of the transform is the value at its root. -/
theorem valueAt_root {c : Config} (hc : Tower c) (f : Coeffs) {i : Nat} (hi : i < 128) :
    valueAt (root c (128 + i)) f = ⟨residue (ntt c f) (2 * i), residue (ntt c f) (2 * i + 1)⟩ := by
  rw [residue_ntt_even hc f hi, residue_ntt_odd hc f hi]
  exact sum_mul_omega_pow (residue f) 128

theorem valueAt_ringProduct (hγ : γ ^ 128 = -1) (f g : Coeffs) :
    valueAt γ (ringProduct f g) = valueAt γ f * valueAt γ g := by
  rw [valueAt, valueAt, valueAt, ← sum_negacyclic (omega_pow_256 hγ)]
  refine Finset.sum_congr rfl fun k hk => ?_
  rw [residue_ringProduct f g (Finset.mem_range.1 hk), map_sum]
  refine congrArg (· * omega ^ k) (Finset.sum_congr rfl fun i _ => ?_)
  split_ifs <;> simp

end

theorem ntt_ringProduct {c : Config} (hc : Tower c) (f g : Coeffs) :
    ntt c (ringProduct f g) = multiply c (ntt c f) (ntt c g) := by
  have pair {i : Nat} (hi : i < 128) : (⟨residue (ntt c (ringProduct f g)) (2 * i),
      residue (ntt c (ringProduct f g)) (2 * i + 1)⟩ : QuadraticAlgebra (ZMod 3329) (root c (128 + i)) 0) =
      ⟨residue (multiply c (ntt c f) (ntt c g)) (2 * i), residue (multiply c (ntt c f) (ntt c g)) (2 * i + 1)⟩ := by
    have hγ := hc.root_pow (l := 7) (i := 128 + i) (by omega) (by omega) (by omega)
    rw [← valueAt_root hc _ hi, valueAt_ringProduct hγ, valueAt_root hc _ hi, valueAt_root hc _ hi,
      residue_multiply_even c _ _ hi, residue_multiply_odd c _ _ hi]
    ext
    · simp
      ring
    · simp
  refine eq_of_residue fun j hj => ?_
  obtain ⟨i, hi, rfl | rfl⟩ := exists_pair hj
  · exact congrArg QuadraticAlgebra.re (pair hi)
  · exact congrArg QuadraticAlgebra.im (pair hi)

/-! ### Laws that need nothing of the table -/

theorem forwardLayerAt_addCoeffs (c : Config) {first len : Nat} (hl : 0 < len) (hd : 2 * len ∣ 256) (x y : Coeffs) :
    forwardLayerAt c first len (addCoeffs x y) = addCoeffs (forwardLayerAt c first len x) (forwardLayerAt c first len y) := by
  refine eq_of_residue fun j hj => ?_
  obtain ⟨b, r, hr, fits, rfl | rfl⟩ := exists_place hl hd hj
  · rw [residue_addCoeffs _ _ hj, residue_forwardLayerAt_fst hr fits, residue_forwardLayerAt_fst hr fits,
      residue_forwardLayerAt_fst hr fits, residue_addCoeffs _ _ (by omega), residue_addCoeffs _ _ (by omega)]
    ring
  · rw [residue_addCoeffs _ _ hj, residue_forwardLayerAt_snd hr fits, residue_forwardLayerAt_snd hr fits,
      residue_forwardLayerAt_snd hr fits, residue_addCoeffs _ _ (by omega), residue_addCoeffs _ _ (by omega)]
    ring

theorem ntt_addCoeffs (c : Config) (f g : Coeffs) : ntt c (addCoeffs f g) = addCoeffs (ntt c f) (ntt c g) := by
  simp only [ntt_eq_layers]
  iterate 7 rw [forwardLayerAt_addCoeffs c (by decide) (by decide)]

/-- The constant polynomial 1 in every block of `size` elements. -/
def onesEvery (size : Nat) : Coeffs := Vector.ofFn fun k => if k.val % size = 0 then 1 else 0

theorem residue_onesEvery (size : Nat) {j : Nat} (hj : j < 256) :
    residue (onesEvery size) j = if j % size = 0 then 1 else 0 := by
  rw [onesEvery, residue_ofFn _ hj]
  split_ifs <;> simp

/-- In a block that holds the constant polynomial 1 the zeta of a layer meets zeros only. -/
theorem forwardLayerAt_onesEvery (c : Config) (first : Nat) {len : Nat} (hl : 0 < len) (hd : 2 * len ∣ 256) :
    forwardLayerAt c first len (onesEvery (2 * len)) = onesEvery len := by
  refine eq_of_residue fun j hj => ?_
  obtain ⟨b, r, hr, fits, place⟩ := exists_place hl hd hj
  have fst : (2 * len * b + r) % (2 * len) = r := by rw [Nat.mul_add_mod, Nat.mod_eq_of_lt (by omega)]
  have snd : (2 * len * b + r + len) % (2 * len) = r + len := by
    rw [Nat.add_assoc, Nat.mul_add_mod, Nat.mod_eq_of_lt (by omega)]
  have fst' : (2 * len * b + r) % len = r := by
    rw [Nat.mul_comm 2, Nat.mul_assoc, Nat.mul_add_mod, Nat.mod_eq_of_lt hr]
  rcases place with rfl | rfl
  · rw [residue_forwardLayerAt_fst hr fits, residue_onesEvery _ hj, residue_onesEvery _ hj,
      residue_onesEvery _ (by omega), fst, snd, fst', if_neg (show r + len ≠ 0 by omega), mul_zero, add_zero]
  · rw [residue_forwardLayerAt_snd hr fits, residue_onesEvery _ hj, residue_onesEvery _ (by omega),
      residue_onesEvery _ hj, fst, snd, Nat.add_mod_right, fst', if_neg (show r + len ≠ 0 by omega), mul_zero, sub_zero]

theorem ntt_one (c : Config) : ntt c (onesEvery 256) = onesEvery 2 := by
  rw [ntt_eq_layers]
  iterate 7 rw [forwardLayerAt_onesEvery c _ (by decide) (by decide)]

theorem multiply_comm (c : Config) (a b : Coeffs) : multiply c a b = multiply c b a := by
  refine eq_of_residue fun j hj => ?_
  obtain ⟨i, hi, rfl | rfl⟩ := exists_pair hj
  · rw [residue_multiply_even c a b hi, residue_multiply_even c b a hi]
    ring
  · rw [residue_multiply_odd c a b hi, residue_multiply_odd c b a hi]
    ring

theorem multiply_onesEvery (c : Config) (a : Coeffs) : multiply c a (onesEvery 2) = a := by
  refine eq_of_residue fun j hj => ?_
  obtain ⟨i, hi, rfl | rfl⟩ := exists_pair hj
  · rw [residue_multiply_even c a _ hi, residue_onesEvery _ hj, residue_onesEvery _ (by omega), if_pos (by omega),
      if_neg (by omega)]
    ring
  · rw [residue_multiply_odd c a _ hi, residue_onesEvery _ hj, residue_onesEvery _ (by omega), if_neg (by omega),
      if_pos (by omega)]
    ring

theorem multiply_addCoeffs (c : Config) (a b b' : Coeffs) :
    multiply c a (addCoeffs b b') = addCoeffs (multiply c a b) (multiply c a b') := by
  refine eq_of_residue fun j hj => ?_
  rw [residue_addCoeffs _ _ hj]
  obtain ⟨i, hi, rfl | rfl⟩ := exists_pair hj
  · rw [residue_multiply_even c a _ hi, residue_multiply_even c a b hi, residue_multiply_even c a b' hi,
      residue_addCoeffs _ _ (by omega), residue_addCoeffs _ _ (by omega)]
    ring
  · rw [residue_multiply_odd c a _ hi, residue_multiply_odd c a b hi, residue_multiply_odd c a b' hi,
      residue_addCoeffs _ _ (by omega), residue_addCoeffs _ _ (by omega)]
    ring

end Sys2Proof.Machine
end

section
/-! PROOFS. The transforms and the multiplier (43_ntt.md section 2, 44_pwmul.md section 2). -/

open Sys2Proof Sys2Proof.Machine

/-- Settles O39: each inverse layer undoes its forward layer up to the factor 2, and 3303 is the inverse of 2^7. -/
theorem transformsAreInverse : Obligations.TransformsAreInverse := fun _ hc => ⟨nttInverse_ntt hc, ntt_nttInverse hc⟩

/-- Settles O40: after the seventh layer the blocks are the pairs, and their roots are `GAMMA`. -/
theorem transformIsEvaluation : Obligations.TransformIsEvaluation := by
  intro c hc f i hi
  refine ⟨coeff_val_of_residue ((residue_ntt_even hc f hi).trans ?_),
    coeff_val_of_residue ((residue_ntt_odd hc f hi).trans ?_)⟩
  all_goals simp only [residue, ← gammaAt_residue, Nat.cast_sum, Nat.cast_mul, Nat.cast_pow]

/-- Settles O41: both sides are, pair by pair, the value of the product at the root of the pair. -/
theorem transformOfProduct : Obligations.TransformOfProduct := fun _ hc => ntt_ringProduct hc

/-- Settles O42: the layers and `BaseMul` are linear, and the constant polynomial 1 stays 1 in every block. -/
theorem transformAndProductLaws : Obligations.TransformAndProductLaws := by
  unfold Obligations.TransformAndProductLaws
  intro one c
  have isOne : one = onesEvery 256 := by
    refine Vector.ext fun k hk => ?_
    simp [one, onesEvery, Nat.mod_eq_of_lt hk]
  rw [isOne, ntt_one]
  exact ⟨ntt_addCoeffs c, multiply_comm c, rfl, multiply_onesEvery c, multiply_addCoeffs c⟩

end

section
/-! PROOF SUPPORT. A command reads and writes the data only (00_scope.md R15): with the same registers, tags and BMEM it ends
alike, whatever else the states hold. -/

namespace Sys2Proof.Machine

/-- The state with the registers, tags and BMEM given. -/
def State.withData (s : State) (p : Vector Coeffs 8) (t : Vector Tag 8) (m : Memory) : State :=
  { s with p := p, t := t, bmem := m }

/-- The state with the registers, tags and BMEM of `d`. -/
abbrev State.withDataOf (s d : State) : State := s.withData d.p d.t d.bmem

@[simp] theorem tag_withDataOf (s d : State) (r : Reg) : (s.withDataOf d).tag r = d.tag r := rfl
@[simp] theorem coeffs_withDataOf (s d : State) (r : Reg) : (s.withDataOf d).coeffs r = d.coeffs r := rfl
@[simp] theorem bmem_withDataOf (s d : State) : (s.withDataOf d).bmem = d.bmem := rfl

theorem sameData.withDataOf_eq {s t : State} (h : sameData s t) : t.withDataOf s = t := by
  obtain ⟨hp, ht, hm⟩ := h
  rw [State.withDataOf, ← hp, ← ht, ← hm]
  rfl

/-- Two outcomes of one command, from `s` and from `s'`: the same fault, or completion with the same result and the same
data. -/
inductive Alike (s s' : State) : Host.Outcome State Fault Refusal → Host.Outcome State Fault Refusal → Prop where
  | fault (f : CommandFault) : Alike s s' (raise f s) (raise f s')
  | complete (result : Word) (p : Vector Coeffs 8) (t : Vector Tag 8) (m : Memory) :
      Alike s s' (complete result (s.withData p t m)) (complete result (s'.withData p t m))

section
variable {s c : State}

theorem Alike.ite {s' : State} {o₁ o₁' o₂ o₂' : Host.Outcome State Fault Refusal} {p : Prop} [Decidable p]
    (h₁ : Alike s s' o₁ o₁') (h₂ : Alike s s' o₂ o₂') :
    Alike s s' (if p then o₁ else o₂) (if p then o₁' else o₂') := by
  split_ifs
  · exact h₁
  · exact h₂

theorem Alike.setReg (result : Word) (pd : Reg) (v : Coeffs) (tag : Tag) :
    Alike s (c.withDataOf s) (Machine.complete result (s.setReg pd v tag))
      (Machine.complete result ((c.withDataOf s).setReg pd v tag)) :=
  .complete result (s.p.set pd v) (s.t.set pd tag) s.bmem

theorem Alike.storeBytes (addr : Nat) (v : List Byte) :
    Alike s (c.withDataOf s) (Machine.complete 0 (s.storeBytes addr v))
      (Machine.complete 0 ((c.withDataOf s).storeBytes addr v)) :=
  .complete 0 s.p s.t (s.bmem.writeBytes addr v)

theorem alike_execPack (ps : Reg) (d : Nat) (tag : Tag) (f : Values) (addr : Nat) :
    Alike s (c.withDataOf s) (execPack ps d tag f addr s) (execPack ps d tag f addr (c.withDataOf s)) := by
  unfold execPack
  refine .ite (.fault _) (.ite (.fault _) (.ite (.fault _) ?_))
  cases firstUnfit f d with
  | some i => exact .fault _
  | none => exact .storeBytes _ _

theorem alike_execSampleu (pd : Reg) (len addr : Nat) :
    Alike s (c.withDataOf s) (execSampleu pd len addr s) (execSampleu pd len addr (c.withDataOf s)) := by
  unfold execSampleu
  refine .ite (.fault _) ?_
  rw [bmem_withDataOf]
  cases rejSample (s.bmem.readBytes addr len) with
  | filled out used => exact .setReg _ _ _ _
  | exhausted accepted => exact .fault _

theorem alike_exec (i : Instr) (s c : State) : Alike s (c.withDataOf s) (exec i s) (exec i (c.withDataOf s)) := by
  cases i with
  | padd | psub | pwmul => exact .ite (.fault _) (.ite (.fault _) (.ite (.fault _) (.setReg _ _ _ _)))
  | ntt | intt => exact .ite (.fault _) (.ite (.fault _) (.setReg _ _ _ _))
  | encode ps d dom addr =>
    rw [exec_encode, exec_encode]
    exact alike_execPack _ _ _ _ _
  | serialize ps d addr =>
    rw [exec_serialize, exec_serialize]
    exact alike_execPack _ _ _ _ _
  | decode | deserialize => exact .ite (.fault _) (.setReg _ _ _ _)
  | samplecbd => exact .ite (.fault _) (.ite (.fault _) (.setReg _ _ _ _))
  | sampleu pd len addr => exact alike_execSampleu _ _ _
  | zeroize => exact .complete 0 _ _ _

end

theorem alike_exec_of_sameData (i : Instr) {s s' : State} (h : sameData s s') :
    Alike s s' (exec i s) (exec i s') := by
  have alike := alike_exec i s s'
  rwa [h.withDataOf_eq] at alike

theorem alike_engineStep {s s' : State} {w : Word} (h : sameData s s') (hb : s.busy = true) (hp : s.pending = some w)
    (hb' : s'.busy = true) (hp' : s'.pending = some w) : Alike s s' (engineStep s) (engineStep s') := by
  cases hd : decode w with
  | command i =>
    rw [engineStep_command hb hp hd, engineStep_command hb' hp' hd]
    exact alike_exec_of_sameData i h
  | illegal why =>
    rw [engineStep_illegal hb hp hd, engineStep_illegal hb' hp' hd]
    exact .fault _

/-- The end of a command that completes, in the words of Safety.lean. -/
theorem endsCompleted_withData (result : Word) (s : State) (p : Vector Coeffs 8) (t : Vector Tag 8) (m : Memory) :
    endsCompleted result s (completed result (s.withData p t m)) :=
  ⟨rfl, rfl, rfl, rfl, rfl, rfl, rfl, rfl, rfl, rfl, rfl, rfl, rfl⟩

end Sys2Proof.Machine
end

section
/-! PROOF SUPPORT. Runs of several steps (Host/Core.lean), and what host accesses do to a pending command
(70_reset_and_hazards.md R308 to R310). -/

namespace Sys2Proof.Machine

/-! ### A run of any machine, then of this one -/

theorem coreRun_succ (M : Host.Core) {s t : M.State} (h : M.step s = .next t) (k : Nat) : M.run (k + 1) s = M.run k t := by
  rw [Host.Core.run, h]

theorem coreRun_one (M : Host.Core) (s : M.State) : M.run 1 s = M.step s := by
  rw [Host.Core.run]
  cases M.step s <;> rfl

variable {s t u : State}

theorem run_zero (s : State) : Host.Core.run core 0 s = .next s := rfl

theorem run_succ (h : step s = .next t) (k : Nat) : Host.Core.run core (k + 1) s = Host.Core.run core k t :=
  coreRun_succ core h k

theorem run_one (s : State) : Host.Core.run core 1 s = step s := coreRun_one core s

/-! ### Accesses while a command is pending -/

/-- `t` is `s` but for IE, OVR and the model's own fields. -/
def ControlsOnly (s t : State) : Prop :=
  ∃ ie ovr schedule readData freeCount,
    t = { s with ie := ie, ovr := ovr, schedule := schedule, readData := readData, freeCount := freeCount }

theorem ControlsOnly.trans (h : ControlsOnly s t) (h' : ControlsOnly t u) : ControlsOnly s u := by
  obtain ⟨_, _, _, _, _, rfl⟩ := h
  obtain ⟨_, _, _, _, _, rfl⟩ := h'
  exact ⟨_, _, _, _, _, rfl⟩

/-- While BUSY is 1 no host access reaches more than IE, OVR and the word read. -/
theorem HostEffect.controlsOnly {a : Access} (he : HostEffect s a t) (hb : s.busy = true) : ControlsOnly s t := by
  cases he with
  | clear w clr idle => simp [hb] at idle
  | accept w idle => simp [hb] at idle
  | store off w fits idle => simp [hb] at idle
  | _ => exact ⟨_, _, _, _, _, rfl⟩

theorem HostEffect.schedule {a : Access} (he : HostEffect s a t) : t.schedule = s.schedule := by
  cases he <;> rfl

/-- A step takes one event. -/
theorem Transition.schedule (h : Transition s t) : t.schedule = s.schedule.tail := by
  cases h with
  | idle => rfl
  | faulted => rfl
  | completed result turn busy write => rw [completed_schedule, write.eq_with_data]
  | host next effect => exact effect.schedule
  | reset => rfl

/-- Accesses made while a command is pending leave it pending, with the data as it was. -/
theorem run_accesses {accesses : List Access} {rest : List Event} (hb : s.busy = true)
    (hs : s.schedule = accesses.map .host ++ rest) :
    ∃ t, (∀ n, Host.Core.run core (accesses.length + n) s = Host.Core.run core n t) ∧ t.schedule = rest ∧
      ControlsOnly s t := by
  induction accesses generalizing s with
  | nil => exact ⟨s, fun n => by rw [List.length_nil, Nat.zero_add], hs, _, _, _, _, _, rfl⟩
  | cons a accesses ih =>
    have next : nextIs (.host a) s := congrArg List.head? hs
    have effect := hostAccess_effect a s.advance
    have only : ControlsOnly s (hostAccess a s.advance) :=
      ControlsOnly.trans ⟨_, _, _, _, _, rfl⟩ (effect.controlsOnly hb)
    have busy : (hostAccess a s.advance).busy = true := by
      obtain ⟨_, _, _, _, _, h⟩ := only
      rw [h]
      exact hb
    have left : (hostAccess a s.advance).schedule = accesses.map .host ++ rest :=
      effect.schedule.trans (congrArg List.tail hs)
    obtain ⟨t, ht, hrest, hsame⟩ := ih busy left
    refine ⟨t, fun n => ?_, hrest, only.trans hsame⟩
    rw [List.length_cons, Nat.add_right_comm, run_succ (step_of_nextIs_host next), ht]

/-- After the engine's step BUSY is 0, whether it was enabled or not. -/
theorem idle_of_engineStep (h : engineStep s = .next t) : t.busy = false := by
  cases hb : s.busy with
  | false =>
    rw [engineStep_idle hb] at h
    cases h
    exact hb
  | true =>
    rcases ends_of_engineStep_next hb h with ⟨f, hf⟩ | ⟨result, u, -, hc⟩
    · cases hf
      rfl
    · cases hc
      rfl

theorem idle_of_engineTurn (turn : engineTurn s) (h : step s = .next t) : t.busy = false :=
  idle_of_engineStep ((step_of_engineTurn turn).symm.trans h)

/-- R313: with the invariant, the command ends when the events are used up, if not before. -/
theorem exists_idle (h : s.Inv) : ∃ k t, k ≤ s.schedule.length + 1 ∧ Host.Core.run core k s = .next t ∧ t.busy = false := by
  induction hs : s.schedule generalizing s with
  | nil =>
    obtain ⟨t, ht⟩ := h.exists_step
    exact ⟨1, t, le_rfl, (run_one s).trans ht, idle_of_engineTurn (.inl hs) ht⟩
  | cons e rest ih =>
    obtain ⟨t, ht⟩ := h.exists_step
    have left : t.schedule = rest := by rw [(transition_of_step ht).schedule, hs, List.tail_cons]
    obtain ⟨k, u, hk, hu, idle⟩ := ih (step_inv h ht) left
    exact ⟨k + 1, u, Nat.succ_le_succ hk, (run_succ ht k).trans hu, idle⟩

end Sys2Proof.Machine
end

section
/-! PROOFS. Commands and pending commands (60_exceptions.md R279, 00_scope.md R15, 70_reset_and_hazards.md R308 to R313). -/

open Sys2Proof Sys2Proof.Machine

/-- Settles O29. -/
theorem commandsAreAllOrNothing : Obligations.CommandsAreAllOrNothing := by
  intro i s
  rcases exec_ends i s with ⟨f, h⟩ | ⟨result, u, write, h⟩
  · exact .inr ⟨f, _, h, endsFaulted_takeFault f s⟩
  · refine .inl ⟨result, _, h, ?_⟩
    rw [write.eq_with_data]
    exact endsCompleted_withData result s _ _ _

/-- Settles O54: the command ends alike in both states. -/
theorem commandDependsOnDataOnly : Obligations.CommandDependsOnDataOnly := by
  intro i s₁ s₂ h
  have alike := alike_exec_of_sameData i h
  generalize exec i s₁ = o₁ at alike ⊢
  generalize exec i s₂ = o₂ at alike ⊢
  cases alike with
  | fault f => exact .inl ⟨f, _, _, rfl, rfl, endsFaulted_takeFault f s₁, endsFaulted_takeFault f s₂⟩
  | complete result p t m =>
    exact .inr ⟨result, _, _, rfl, rfl, endsCompleted_withData result s₁ p t m, endsCompleted_withData result s₂ p t m,
      rfl, rfl, rfl⟩

/-- Settles O55: the accesses leave the command pending and the data as it was, so the engine's step ends alike. -/
theorem pendingCommandIgnoresHostAccesses : Obligations.PendingCommandIgnoresHostAccesses := by
  intro s w accesses rest hb hp
  obtain ⟨u, hrun, hsched, only⟩ := run_accesses (rest := .engine :: rest)
    (s := { s with schedule := accesses.map .host ++ .engine :: rest }) hb rfl
  obtain ⟨ie, ovr, schedule, readData, freeCount, rfl⟩ := only
  obtain rfl : schedule = .engine :: rest := hsched
  rw [hrun, run_one, run_one, step_engine rfl, step_engine rfl]
  have alike := alike_engineStep (s := { s with schedule := rest })
    (s' := { s with ie := ie, ovr := ovr, schedule := rest, readData := readData, freeCount := freeCount })
    ⟨rfl, rfl, rfl⟩ hb hp hb hp
  generalize engineStep { s with schedule := rest } = o₁ at alike ⊢
  generalize engineStep _ = o₂ at alike ⊢
  cases alike with
  | fault f => exact ⟨_, _, rfl, rfl, ⟨rfl, rfl, rfl⟩, rfl, rfl, rfl, rfl, rfl, rfl, rfl, rfl, rfl⟩
  | complete result p t m => exact ⟨_, _, rfl, rfl, ⟨rfl, rfl, rfl⟩, rfl, rfl, rfl, rfl, rfl, rfl, rfl, rfl, rfl⟩

/-- Settles O56. -/
theorem pendingCommandFinishes : Obligations.PendingCommandFinishes := fun _ h _ => exists_idle h

end

section
/-! PROOF SUPPORT. The end of a run (46_system.md R231): the first state at rest, and how a schedule comes to it. -/

namespace Sys2Proof.Machine

variable {s t u : State}

/-- The run that starts in `s` is at rest in `t` after `k` steps and was not at rest before. -/
structure RestsFirst (k : Nat) (s t : State) : Prop where
  reaches : Host.Core.run core k s = .next t
  rests : t.atRest
  first : ∀ j u, j < k → Host.Core.run core j s = .next u → ¬ u.atRest

theorem RestsFirst.zero (h : s.atRest) : RestsFirst 0 s s := ⟨rfl, h, fun j _ hj => absurd hj j.not_lt_zero⟩

theorem RestsFirst.succ (hs : ¬ s.atRest) (h : step s = .next t) {k : Nat} (ht : RestsFirst k t u) :
    RestsFirst (k + 1) s u where
  reaches := (run_succ h k).trans ht.reaches
  rests := ht.rests
  first j v hj hv := by
    cases j with
    | zero =>
      cases hv
      exact hs
    | succ j => exact ht.first j v (Nat.lt_of_succ_lt_succ hj) ((run_succ h j).symm.trans hv)

/-- With no event left the engine's turn brings the run to rest. -/
theorem atRest_of_last_turn (hs : s.schedule = []) (h : step s = .next t) : t.atRest :=
  ⟨by rw [(transition_of_step h).schedule, hs]; rfl, idle_of_engineTurn (.inl hs) h⟩

/-- A step before the run is at rest does not change where it ends. -/
theorem endOfRun_step (hs : ¬ s.atRest) (h : step s = .next t) : endOfRun s = endOfRun t := by
  rw [endOfRun, endWithin_step hs h]
  cases hsched : s.schedule with
  | nil =>
    have rests := atRest_of_last_turn hsched h
    rw [endOfRun_atRest rests, endWithin_atRest rests]
  | cons e rest => rw [endOfRun, (transition_of_step h).schedule, hsched, List.tail_cons, List.length_cons]

/-- With the invariant a run comes to rest within the events left and one step more. -/
theorem exists_restsFirst {s : State} (h : s.Inv) :
    ∃ k t, k ≤ s.schedule.length + 1 ∧ RestsFirst k s t ∧ endOfRun s = .next t := by
  by_cases rest : s.atRest
  · exact ⟨0, s, Nat.zero_le _, .zero rest, endOfRun_atRest rest⟩
  · obtain ⟨t, ht⟩ := h.exists_step
    have left := (transition_of_step ht).schedule
    rw [endOfRun_step rest ht]
    cases hs : s.schedule with
    | nil =>
      have rests := atRest_of_last_turn hs ht
      exact ⟨1, t, le_rfl, .succ rest ht (.zero rests), endOfRun_atRest rests⟩
    | cons e events =>
      obtain ⟨k, u, hk, first, ends⟩ := exists_restsFirst (step_inv h ht)
      rw [left, hs, List.tail_cons] at hk
      exact ⟨k + 1, u, Nat.succ_le_succ hk, .succ rest ht first, ends⟩
termination_by s.schedule.length
decreasing_by simp [left, hs]

end Sys2Proof.Machine
end

section
/-! PROOF SUPPORT. The host's protocol and its schedule (46_system.md R231): one word is a CMD write, the engine's turn and a
read of STATUS, and the model's own fields make no difference to the engine. -/

namespace Sys2Proof.Machine

variable {s s' t : State}

/-- The states differ in the model's own fields at most. -/
theorem sameEngine.eq_with (h : sameEngine s t) :
    t = { s with schedule := t.schedule, readData := t.readData, freeCount := t.freeCount } := by
  obtain ⟨⟨hp, ht, hm⟩, hie, hbusy, hdone, herr, hovr, hcode, hresult, hinfo, hlast, hpend⟩ := h
  cases t
  simp_all

theorem sameEngine_with (s : State) (schedule : List Event) (readData : Word) (freeCount : Nat) :
    sameEngine s { s with schedule := schedule, readData := readData, freeCount := freeCount } :=
  ⟨⟨rfl, rfl, rfl⟩, rfl, rfl, rfl, rfl, rfl, rfl, rfl, rfl, rfl, rfl⟩

theorem sameEngine.trans {u : State} (h : sameEngine s t) (h' : sameEngine t u) : sameEngine s u := by
  rw [h'.eq_with, h.eq_with]
  exact sameEngine_with _ _ _ _

theorem sameEngine.acceptCommand (h : sameEngine s t) (w : Word) : sameEngine (acceptCommand w s) (acceptCommand w t) := by
  rw [h.eq_with]
  exact sameEngine_with _ _ _ _

/-- The engine's step with a word pending, seen from two states of one engine. -/
theorem sameEngine.engineStep {w : Word} (h : sameEngine s s') (hb : s.busy = true) (hp : s.pending = some w)
    (ht : engineStep s = .next t) :
    ∃ t', Machine.engineStep s' = .next t' ∧ sameEngine t t' ∧ t'.schedule = s'.schedule := by
  rw [h.eq_with]
  have alike := alike_engineStep (s := s)
    (s' := { s with schedule := s'.schedule, readData := s'.readData, freeCount := s'.freeCount }) ⟨rfl, rfl, rfl⟩
    hb hp hb hp
  rw [ht] at alike
  generalize Machine.engineStep _ = o at alike ⊢
  cases alike with
  | fault f => exact ⟨_, rfl, sameEngine_with _ _ _ _, rfl⟩
  | complete result p r m => exact ⟨_, rfl, sameEngine_with _ _ _ _, rfl⟩

theorem statusWord_of_sameEngine (h : sameEngine s t) : statusWord t = statusWord s := by
  rw [h.eq_with]
  rfl

/-- What the protocol does with the next word: it is accepted and executed, and without a fault the protocol goes on. -/
theorem runCommands_cons {w : Word} {words : List Word} (hb : s.busy = false) (he : s.err = false)
    (h : runCommands (w :: words) s = .next t) (noErr : t.err = false) :
    ∃ u, engineStep (acceptCommand w s) = .next u ∧ u.err = false ∧ u.busy = false ∧ runCommands words u = .next t := by
  have written : hostWrite .word 0x00C w s = acceptCommand w s := writeCmd_accepts hb he
  rw [runCommands, written] at h
  cases hu : engineStep (acceptCommand w s) with
  | next u =>
    rw [hu] at h
    cases hue : u.err with
    | true =>
      simp only [hue, if_true, Host.Outcome.next.injEq] at h
      rw [← h, hue] at noErr
      cases noErr
    | false => exact ⟨u, rfl, hue, idle_of_engineStep hu, by simpa [hue] using h⟩
  | fault r => simp [hu] at h
  | refused r => simp [hu] at h

/-- The events of one word, taken from a state `s'` of the engine `s`: the state that the protocol reaches, with STATUS
read. -/
theorem run_issue {w : Word} {rest : List Event} {u : State} (hb : s.busy = false) (he : s.err = false)
    (h : sameEngine s s') (hs : s'.schedule = issue w ++ rest) (hu : engineStep (acceptCommand w s) = .next u) :
    ∃ u', (∀ n, Host.Core.run core (n + 3) s' = Host.Core.run core n u') ∧ sameEngine u u' ∧ u'.schedule = rest ∧
      endOfRun s' = endOfRun u' ∧ u'.readData = statusWord u := by
  have hb' : s'.busy = false := by rw [h.eq_with]; exact hb
  have he' : s'.err = false := by rw [h.eq_with]; exact he
  have accepted := step_accepts hb' he' (congrArg List.head? hs)
  have same : sameEngine (acceptCommand w s) (acceptCommand w s'.advance).advance :=
    ((h.trans (sameEngine_with s' _ _ _)).acceptCommand w).trans (sameEngine_with _ _ _ _)
  obtain ⟨v, hv, sameV, schedV⟩ := same.engineStep rfl rfl hu
  have schedA : (acceptCommand w s'.advance).schedule = .engine :: .host (.read .word 0x008) :: rest :=
    congrArg List.tail hs
  have executed : step (acceptCommand w s'.advance) = .next v :=
    (step_of_engineTurn (.inr (congrArg List.head? schedA))).trans hv
  rw [show (acceptCommand w s'.advance).advance.schedule = .host (.read .word 0x008) :: rest from
    congrArg List.tail schedA] at schedV
  have read : step v = .next (hostRead .word 0x008 v.advance) := step_of_nextIs_host (congrArg List.head? schedV)
  refine ⟨hostRead .word 0x008 v.advance, fun n => ?_, ?_, congrArg List.tail schedV, ?_, statusWord_of_sameEngine sameV⟩
  · rw [run_succ accepted, run_succ executed, run_succ read]
  · exact (sameV.trans (sameEngine_with v _ _ _)).trans (sameEngine_hostRead v.advance _ _)
  · calc endOfRun s'
      _ = endOfRun (acceptCommand w s'.advance) := endOfRun_step (by simp [hs, issue, Event.isHost]) accepted
      _ = endOfRun v := endOfRun_step (by simp) executed
      _ = endOfRun (hostRead .word 0x008 v.advance) := endOfRun_step (by simp [schedV, Event.isHost]) read

/-- A fault-free list of words, by the protocol from `s` and by the schedule from a state `s'` of the same engine. -/
theorem run_issued_words {words : List Word} {s s' t : State} (hb : s.busy = false) (he : s.err = false)
    (h : runCommands words s = .next t) (noErr : t.err = false) (same : sameEngine s s')
    (hs : s'.schedule = words.flatMap issue) :
    ∃ t', Host.Core.run core (3 * words.length) s' = .next t' ∧ sameEngine t t' ∧ t'.schedule = [] ∧
      endOfRun s' = .next t' ∧ (words ≠ [] → t'.readData = statusWord t) := by
  induction words generalizing s s' with
  | nil =>
    cases h
    have idle : s'.busy = false := by rw [same.eq_with]; exact hb
    exact ⟨s', rfl, same, hs, endOfRun_atRest ⟨by rw [hs]; rfl, idle⟩, fun hne => absurd rfl hne⟩
  | cons w words ih =>
    obtain ⟨u, hu, uErr, uIdle, rest⟩ := runCommands_cons hb he h noErr
    obtain ⟨u', runs, sameU, schedU, ends, status⟩ := run_issue hb he same hs hu
    obtain ⟨t', ht', sameT, schedT, endT, statusT⟩ := ih uIdle uErr rest sameU schedU
    refine ⟨t', (runs _).trans ht', sameT, schedT, ends.trans endT, fun _ => ?_⟩
    cases words with
    | nil =>
      cases rest
      cases ht'
      exact status
    | cons w' words => exact statusT (List.cons_ne_nil w' words)

end Sys2Proof.Machine
end

section
/-! PROOFS. Runs by the host's protocol and where they end (46_system.md R231). -/

open Sys2Proof Sys2Proof.Machine

/-- Settles O43: word by word, the schedule keeps the engine where the protocol has it. -/
theorem scheduledCommandsRunInOrder : Obligations.ScheduledCommandsRunInOrder := fun _ s _ _ hb he h noErr =>
  run_issued_words hb he h noErr (sameEngine_with s _ _ _) rfl

/-- Settles O44: every step takes an event, and with none left the engine's turn ends the command. -/
theorem runEndsAtFirstMoment : Obligations.RunEndsAtFirstMoment := by
  intro s h
  obtain ⟨k, t, hk, atFirst, ends⟩ := exists_restsFirst h
  exact ⟨k, t, hk, atFirst.reaches, (atRest_iff t).1 atFirst.rests,
    fun j u hj hu hrests => atFirst.first j u hj hu ((atRest_iff u).2 hrests), ends, runEndsWell_of_end ends⟩

end

section
/-! PROOF SUPPORT. `dot` by the host's protocol (48_host_sequences.md R252): what one command of it does, then the loop over
the products after the first. -/

namespace Sys2Proof.Machine

/-- The protocol executes the next word, and goes on when the command completes. -/
theorem runCommands_encode {i : Instr} {s u : State} (hi : i.WellFormed = true) (hb : s.busy = false) (he : s.err = false)
    (hu : exec i (acceptCommand (encode i) s) = .next u) (noErr : u.err = false) (words : List Word) :
    runCommands (encode i :: words) s = runCommands words u := by
  have written : hostWrite .word 0x00C (encode i) s = acceptCommand (encode i) s := writeCmd_accepts hb he
  rw [runCommands, written, engineStep_command rfl rfl (decodeOfEncode i hi), hu]
  simp [noErr]

/-- `u` is the idle state `s` after one command of the protocol that loaded `pd` with `v` in NTT form. -/
structure Loaded (pd : Reg) (v : Coeffs) (s u : State) : Prop where
  done : u.done = true
  err : u.err = s.err
  busy : u.busy = false
  ovr : u.ovr = s.ovr
  result : u.result = 0
  bytes : sameBytes s u
  coeffs : ∀ r, u.coeffs r = if pd = r then v else s.coeffs r
  tag : ∀ r, u.tag r = if pd = r then .ntt else s.tag r

theorem loaded_completed (pd : Reg) (v : Coeffs) (w : Word) (s : State) :
    Loaded pd v s (completed 0 ((acceptCommand w s).setReg pd v .ntt)) :=
  ⟨rfl, rfl, rfl, rfl, rfl, fun _ => rfl, fun r => coeffs_setReg _ pd r v .ntt, fun r => tag_setReg _ pd r v .ntt⟩

section
variable {pd pa pb : Reg} {s : State} (hb : s.busy = false) (he : s.err = false) (ha : s.tag pa = .ntt)
  (hb' : s.tag pb = .ntt)
include hb he ha hb'

theorem runCommands_pwmul (pd : Reg) :
    ∃ u, (∀ words, runCommands (encode (.pwmul pd pa pb) :: words) s = runCommands words u) ∧
      Loaded pd (multiply engineConfig (s.coeffs pa) (s.coeffs pb)) s u := by
  have runs : exec (.pwmul pd pa pb) (acceptCommand (encode (.pwmul pd pa pb)) s) =
      complete 0 ((acceptCommand (encode (.pwmul pd pa pb)) s).setReg pd
        (multiply engineConfig (s.coeffs pa) (s.coeffs pb)) .ntt) := by
    have ha : (acceptCommand (encode (.pwmul pd pa pb)) s).tag pa = .ntt := ha
    have hb' : (acceptCommand (encode (.pwmul pd pa pb)) s).tag pb = .ntt := hb'
    rw [exec_pwmul, execPwmul, if_neg (by simp [ha]), if_neg (by simp [hb']), if_neg (by simp [ha, hb'])]
    rfl
  exact ⟨_, runCommands_encode rfl hb he runs he, loaded_completed _ _ _ _⟩

theorem runCommands_padd (pd : Reg) :
    ∃ u, (∀ words, runCommands (encode (.padd pd pa pb) :: words) s = runCommands words u) ∧
      Loaded pd (addCoeffs (s.coeffs pa) (s.coeffs pb)) s u := by
  have runs : exec (.padd pd pa pb) (acceptCommand (encode (.padd pd pa pb)) s) =
      complete 0 ((acceptCommand (encode (.padd pd pa pb)) s).setReg pd
        (addCoeffs (s.coeffs pa) (s.coeffs pb)) .ntt) := by
    have ha : (acceptCommand (encode (.padd pd pa pb)) s).tag pa = .ntt := ha
    have hb' : (acceptCommand (encode (.padd pd pa pb)) s).tag pb = .ntt := hb'
    rw [exec_padd, execPadd, if_neg (by simp [ha]), if_neg (by simp [hb']), if_neg (by simp [ha, hb']), ha]
    rfl
  exact ⟨_, runCommands_encode rfl hb he runs he, loaded_completed _ _ _ _⟩

end

/-- The product of a pair of registers. -/
def productOf (s : State) (x : Reg × Reg) : Coeffs := multiply engineConfig (s.coeffs x.1) (s.coeffs x.2)

theorem residue_get (x : Coeffs) (i : Fin 256) : residue x i.val = (x[i].val : ZMod 3329) := by
  rw [residue, coeffAt_of_lt x i.isLt, Fin.getElem_fin]

/-- The commands of `dot` for one pair after the first, on resident operands. -/
def addProduct (pd pt : Reg) (x : Reg × Reg) : List Instr := [.pwmul pt x.1 x.2, .padd pd pd pt]

theorem dot_resident (pd pt : Reg) (first : Reg × Reg) (rest : List (Reg × Reg)) :
    dot pd pt ((first :: rest).map fun x => resident x.1) ((first :: rest).map fun x => x.2) =
      .ok (.pwmul pd first.1 first.2 :: rest.flatMap (addProduct pd pt)) := by
  simp [dot, dotRest, resident, List.zip_map', List.flatMap_map]
  rfl

/-- `t` is the idle state `s` after the products of `rest` were added into `pd`. -/
structure Accumulated (pd pt : Reg) (rest : List (Reg × Reg)) (s t : State) : Prop where
  done : t.done = true
  err : t.err = false
  busy : t.busy = false
  ovr : t.ovr = s.ovr
  result : t.result = 0
  bytes : sameBytes s t
  sum : ∀ j, j < 256 →
    residue (t.coeffs pd) j = residue (s.coeffs pd) j + (rest.map fun x => residue (productOf s x) j).sum
  tag : t.tag pd = .ntt
  last : ∀ x ∈ rest.getLast?, t.coeffs pt = productOf s x ∧ t.tag pt = .ntt
  others : ∀ r, r ≠ pd → (r ≠ pt ∨ rest = []) → t.coeffs r = s.coeffs r ∧ t.tag r = s.tag r

theorem runCommands_addProducts {pd pt : Reg} (hne : pt ≠ pd) {rest : List (Reg × Reg)} {s : State}
    (hdone : s.done = true) (he : s.err = false) (hb : s.busy = false) (hresult : s.result = 0) (htag : s.tag pd = .ntt)
    (htags : ∀ x ∈ rest, s.tag x.1 = .ntt ∧ s.tag x.2 = .ntt)
    (hfit : ∀ x ∈ rest, x.1 ≠ pd ∧ x.1 ≠ pt ∧ x.2 ≠ pd ∧ x.2 ≠ pt) :
    ∃ t, runCommands ((rest.flatMap (addProduct pd pt)).map encode) s = .next t ∧ Accumulated pd pt rest s t := by
  induction rest generalizing s with
  | nil =>
    exact ⟨s, rfl, hdone, he, hb, rfl, hresult, fun _ => rfl, fun j _ => by simp, htag, nofun, fun r _ _ => ⟨rfl, rfl⟩⟩
  | cons x rest ih =>
    obtain ⟨htagx, htags⟩ := List.forall_mem_cons.1 htags
    obtain ⟨-, hfit⟩ := List.forall_mem_cons.1 hfit
    obtain ⟨u, runU, loadU⟩ := runCommands_pwmul hb he htagx.1 htagx.2 pt
    have tagU : u.tag pd = .ntt := by rw [loadU.tag, if_neg hne, htag]
    have tagU' : u.tag pt = .ntt := by rw [loadU.tag, if_pos rfl]
    obtain ⟨v, runV, loadV⟩ := runCommands_padd loadU.busy (loadU.err.trans he) tagU tagU' pd
    -- Both commands leave every register alone but `pt` and `pd`.
    have coeffsV {r : Reg} (hd : r ≠ pd) (ht : r ≠ pt) : v.coeffs r = s.coeffs r := by
      rw [loadV.coeffs, if_neg hd.symm, loadU.coeffs, if_neg ht.symm]
    have tagV {r : Reg} (hd : r ≠ pd) (ht : r ≠ pt) : v.tag r = s.tag r := by
      rw [loadV.tag, if_neg hd.symm, loadU.tag, if_neg ht.symm]
    have products {y : Reg × Reg} (hy : y ∈ rest) : productOf v y = productOf s y := by
      obtain ⟨h1, h1', h2, h2'⟩ := hfit y hy
      rw [productOf, coeffsV h1 h1', coeffsV h2 h2', productOf]
    have tagsV : ∀ y ∈ rest, v.tag y.1 = .ntt ∧ v.tag y.2 = .ntt := fun y hy => by
      obtain ⟨h1, h1', h2, h2'⟩ := hfit y hy
      rw [tagV h1 h1', tagV h2 h2']
      exact htags y hy
    have ptV : v.coeffs pt = productOf s x ∧ v.tag pt = .ntt := by
      rw [loadV.coeffs, loadV.tag, if_neg hne.symm, if_neg hne.symm, loadU.coeffs, if_pos rfl]
      exact ⟨rfl, tagU'⟩
    have pdV {j : Nat} (hj : j < 256) :
        residue (v.coeffs pd) j = residue (s.coeffs pd) j + residue (productOf s x) j := by
      rw [loadV.coeffs, if_pos rfl, residue_addCoeffs _ _ hj, loadU.coeffs, loadU.coeffs, if_neg hne, if_pos rfl]
      rfl
    obtain ⟨t, runT, acc⟩ := ih loadV.done (loadV.err.trans (loadU.err.trans he)) loadV.busy loadV.result
      (by rw [loadV.tag, if_pos rfl]) tagsV hfit
    refine ⟨t, ?_, acc.done, acc.err, acc.busy, (acc.ovr.trans loadV.ovr).trans loadU.ovr, acc.result, fun a => ?_,
      fun j hj => ?_, acc.tag, fun y hy => ?_, fun r hd ht => ?_⟩
    · rw [List.flatMap_cons, List.map_append]
      exact ((runU _).trans (runV _)).trans runT
    · rw [acc.bytes, loadV.bytes, loadU.bytes]
    · rw [acc.sum j hj, pdV hj, List.map_cons, List.sum_cons, add_assoc,
        List.map_congr_left fun y hy => by rw [products hy]]
    · cases rest with
      | nil =>
        obtain rfl : x = y := by simpa using hy
        obtain ⟨coeffs, tag⟩ := acc.others pt hne (.inr rfl)
        exact ⟨coeffs.trans ptV.1, tag.trans ptV.2⟩
      | cons z zs =>
        rw [List.getLast?_cons_cons] at hy
        obtain ⟨coeffs, tag⟩ := acc.last y hy
        exact ⟨coeffs.trans (products (List.mem_of_getLast? hy)), tag⟩
    · have ht := ht.resolve_right (List.cons_ne_nil x rest)
      obtain ⟨coeffs, tag⟩ := acc.others r hd (.inl ht)
      exact ⟨coeffs.trans (coeffsV hd ht), tag.trans (tagV hd ht)⟩

end Sys2Proof.Machine
end

section
/-! PROOF SUPPORT. How many commands `dot` and `matvec` expand to, and the columns that `transpose` makes its rows of
(48_host_sequences.md R252 to R254). -/

namespace Sys2Proof.Machine

theorem length_dot_resident (pd pt : Reg) {a b : List Reg} (ha : a ≠ []) (hlen : a.length = b.length) :
    ∃ cmds, dot pd pt (a.map resident) b = .ok cmds ∧ cmds.length = 2 * a.length - 1 := by
  obtain ⟨first, rest, hzip⟩ : ∃ first rest, a.zip b = first :: rest :=
    List.exists_cons_of_ne_nil (by rw [Ne, List.zip_eq_nil_iff]; rintro (rfl | rfl) <;> simp_all)
  have fst : (first :: rest).map Prod.fst = a := by rw [← hzip, List.map_fst_zip hlen.le]
  have snd : (first :: rest).map Prod.snd = b := by rw [← hzip, List.map_snd_zip hlen.ge]
  have expansion := dot_resident pd pt first rest
  rw [show (first :: rest).map (fun x => resident x.1) = a.map resident by rw [← fst, List.map_map]; rfl, snd] at expansion
  refine ⟨_, expansion, ?_⟩
  rw [← fst, List.length_cons, length_flatMap_const rest _ 2 fun _ _ => rfl, List.length_map, List.length_cons]
  omega

/-- Expansions that all succeed, with `n` commands each. -/
theorem length_mapM_flatten {α β ε : Type} {f : α → Except ε (List β)} {l : List α} {n : Nat}
    (h : ∀ x ∈ l, ∃ y, f x = .ok y ∧ y.length = n) : ∃ ys, l.mapM f = .ok ys ∧ ys.flatten.length = l.length * n := by
  induction l with
  | nil => exact ⟨[], rfl, by simp⟩
  | cons x l ih =>
    obtain ⟨hx, hl⟩ := List.forall_mem_cons.1 h
    obtain ⟨y, hy, ylen⟩ := hx
    obtain ⟨ys, hys, yslen⟩ := ih hl
    refine ⟨y :: ys, ?_, ?_⟩
    · rw [List.mapM_cons, hy, hys]
      rfl
    · rw [List.flatten_cons, List.length_append, ylen, yslen, List.length_cons]
      ring

/-- Column `j` of an arrangement whose rows all reach it. -/
theorem map_some_column {α : Type} {matrix : List (List α)} {j : Nat} (h : ∀ row ∈ matrix, j < row.length) :
    (matrix.filterMap fun row => row[j]?).map some = matrix.map fun row => row[j]? := by
  induction matrix with
  | nil => rfl
  | cons row matrix ih =>
    obtain ⟨hrow, hmatrix⟩ := List.forall_mem_cons.1 h
    simp only [List.filterMap_cons, List.map_cons, List.getElem?_eq_getElem hrow, ih hmatrix]

theorem length_column {α : Type} {matrix : List (List α)} {j : Nat} (h : ∀ row ∈ matrix, j < row.length) :
    (matrix.filterMap fun row => row[j]?).length = matrix.length := by
  simpa using congrArg List.length (map_some_column h)

theorem getElem?_column {α : Type} {matrix : List (List α)} {i j : Nat} (h : ∀ row ∈ matrix, j < row.length)
    {row : List α} (hi : matrix[i]? = some row) : (matrix.filterMap fun row => row[j]?)[i]? = row[j]? := by
  have entry := congrArg (·[i]?) (map_some_column h)
  simp only [List.getElem?_map, hi, Option.map_some] at entry
  cases column : (matrix.filterMap fun row => row[j]?)[i]? <;> simp_all

end Sys2Proof.Machine
end

section
/-! PROOFS. The pseudo-instructions (48_host_sequences.md R251 to R256). -/

open Sys2Proof Sys2Proof.Machine

/-- Settles O45: the first product loads `pd`, and every pair after it adds its own; the sum is taken over the residues. -/
theorem dotSumsPointwiseProducts : Obligations.DotSumsPointwiseProducts := by
  intro pd pt first rest s hb he htags hne hfit
  obtain ⟨htag, htags⟩ := List.forall_mem_cons.1 htags
  obtain ⟨u, runU, loadU⟩ := runCommands_pwmul hb he htag.1 htag.2 pd
  have products {x : Reg × Reg} (hx : x ∈ rest) : productOf u x = productOf s x := by
    obtain ⟨h1, -, h2, -⟩ := hfit x hx
    rw [productOf, loadU.coeffs, loadU.coeffs, if_neg h1.symm, if_neg h2.symm, productOf]
  have tagsU : ∀ x ∈ rest, u.tag x.1 = .ntt ∧ u.tag x.2 = .ntt := fun x hx => by
    obtain ⟨h1, -, h2, -⟩ := hfit x hx
    rw [loadU.tag, loadU.tag, if_neg h1.symm, if_neg h2.symm]
    exact htags x hx
  obtain ⟨t, runT, acc⟩ := runCommands_addProducts hne loadU.done (loadU.err.trans he) loadU.busy loadU.result
    (by rw [loadU.tag, if_pos rfl]) tagsU hfit
  refine ⟨_, t, dot_resident pd pt first rest, ?_, (runU _).trans runT, acc.done, acc.err, acc.busy,
    acc.ovr.trans loadU.ovr, acc.result, fun a => (acc.bytes a).trans (loadU.bytes a), fun i => ?_, acc.tag,
    fun x hx => ?_, fun r hd ht => ?_⟩
  · rw [List.length_cons, length_flatMap_const rest _ 2 fun _ _ => rfl, Nat.mul_comm]
  · have sum := acc.sum i.val i.isLt
    rw [loadU.coeffs, if_pos rfl, List.map_congr_left fun x hx => by rw [products hx]] at sum
    refine coeff_val_of_residue ?_
    rw [← residue_get, sum]
    simp only [residue_get, productOf, List.map_cons, List.sum_cons, Nat.cast_add, Nat.cast_list_sum, List.map_map,
      Function.comp_def]
  · obtain ⟨coeffs, tag⟩ := acc.last x hx
    exact ⟨coeffs.trans (products (List.mem_of_getLast? hx)), tag⟩
  · obtain ⟨coeffs, tag⟩ := acc.others r hd ht
    rw [coeffs, tag, loadU.coeffs, loadU.tag, if_neg hd.symm, if_neg hd.symm]
    exact ⟨rfl, rfl⟩

/-- Settles O46. -/
theorem pseudoInstructionLengths : Obligations.PseudoInstructionLengths := by
  refine ⟨fun d a b => ⟨fun hda hab => ⟨_, if_pos ⟨hda, hab⟩, ?_⟩, fun h => if_neg (by tauto)⟩,
    fun pd pt a b => ⟨length_dot_resident pd pt, fun h => if_neg (by rwa [List.length_map])⟩,
    fun pt d v matrix => ⟨fun hdm hdv hrows => ?_, fun h => if_neg ?_⟩,
    fun d a => ⟨fun h => ⟨_, if_pos h, ?_⟩, fun h => if_neg h⟩⟩
  · simp [hda, hab]
  · have fits : matvecLengthsFit d (matrix.map fun row => row.map resident) v := by
      refine ⟨by rwa [List.length_map], hdv, fun row hrow => ?_⟩
      obtain ⟨regs, hregs, rfl⟩ := List.mem_map.1 hrow
      rw [List.length_map, hrows regs hregs]
    have rows : ∀ x ∈ d.zip (matrix.map fun row => row.map resident),
        ∃ cmds, dot x.1 pt x.2 v = .ok cmds ∧ cmds.length = 2 * v.length - 1 := by
      rintro ⟨pd, row⟩ hx
      obtain ⟨hpd, hrow⟩ := List.of_mem_zip hx
      obtain ⟨regs, hregs, rfl⟩ := List.mem_map.1 hrow
      have some : regs ≠ [] := by
        rintro rfl
        have len := List.length_pos_of_mem hpd
        rw [hdv, ← hrows [] hregs] at len
        cases len
      rw [← hrows regs hregs]
      exact length_dot_resident pd pt some (hrows regs hregs)
    obtain ⟨cmds, hcmds, len⟩ := length_mapM_flatten rows
    refine ⟨cmds.flatten, ?_, ?_⟩
    · rw [matvec, if_pos fits, hcmds]
      rfl
    · rw [len, List.length_zip, List.length_map, hdm, Nat.min_self]
  · rintro ⟨hdm, hdv, hrows⟩
    rw [List.length_map] at hdm
    rcases h with h | h | ⟨row, hrow, h⟩
    · exact h hdm
    · exact h hdv
    · exact h (by rw [← hrows _ (List.mem_map_of_mem hrow), List.length_map])
  · simp [h]

/-- Settles O47: row `j` of the result is column `j` of the arrangement. -/
theorem transposeExchangesIndices : Obligations.TransposeExchangesIndices := by
  intro matrix
  refine ⟨fun hsquare => ⟨_, if_pos hsquare, by simp, fun row hrow => ?_, fun i j hi hj => ?_⟩, fun h => if_neg ?_⟩
  · obtain ⟨j, hj, rfl⟩ := List.mem_map.1 hrow
    exact length_column fun row hrow => by rw [hsquare row hrow]; exact List.mem_range.1 hj
  · have reach : ∀ row ∈ matrix, j < row.length := fun row hrow => by rwa [hsquare row hrow]
    have hrow : matrix[i]? = some matrix[i] := List.getElem?_eq_getElem hi
    refine ⟨matrix[i], _, hrow, by rw [List.getElem?_map, List.getElem?_range hj, Option.map_some],
      getElem?_column reach hrow, ?_⟩
    rw [List.getElem?_eq_getElem (reach _ (List.getElem_mem hi))]
    exact Option.some_ne_none _
  · rintro hsquare
    obtain ⟨row, hrow, hne⟩ := h
    exact hne (hsquare row hrow)

end

section
/-! PROOF SUPPORT. Compress and Decompress after each other (40_ringmath_addsub.md section 1): two roundings to the nearest
integer, one of them undone. -/

namespace Sys2Proof.Machine

theorem compress_lt (x d : Nat) : compress x d < 2 ^ d := Nat.mod_lt _ (Nat.two_pow_pos d)

/-- Both roundings together miss y by less than one half of 1 + 2^d / 3329, which is less than 1 for d up to 11. -/
theorem compress_decompress {d y : Nat} (hd : d ≤ 11) (hy : y < 2 ^ d) : compress (decompress y d) d = y := by
  have hpow : 2 ^ d ≤ 2 ^ 11 := Nat.pow_le_pow_right (by decide) hd
  obtain ⟨low, high⟩ := nearest_bounds (y * 3329) (Nat.two_pow_pos d)
  rw [← decompress_eq_nearest] at low high
  obtain ⟨low', high'⟩ := nearest_bounds (decompress y d * 2 ^ d) (m := 3329) (by decide)
  rw [compress_eq_nearest, show nearest (decompress y d * 2 ^ d) 3329 = y by omega, Nat.mod_eq_of_lt hy]

/-- How far Decompress may miss a coefficient that Compress has rounded. -/
def roundingError (d : Nat) : Nat := (3329 + 2 ^ d) / 2 ^ (d + 1)

theorem le_roundingError_iff (a d : Nat) : a ≤ roundingError d ↔ 2 * (a * 2 ^ d) ≤ 3329 + 2 ^ d := by
  rw [roundingError, Nat.le_div_iff_mul_le (Nat.two_pow_pos _), Nat.pow_succ', Nat.mul_left_comm]

theorem roundingError_eq {d : Nat} (hd : widthLegal d) :
    roundingError d = [832, 416, 208, 104, 52, 26, 13, 7, 3, 2, 1, 0].getD (d - 1) 0 := by
  obtain ⟨low, high⟩ := hd
  interval_cases d <;> rfl

/-- The result is near x, or it is 0 and x is near 3329: Compress has rounded up to 2^d and reduced that to 0. -/
theorem decompress_compress_near {d x : Nat} (hx : x < 3329) :
    (decompress (compress x d) d ≤ x + roundingError d ∧ x ≤ decompress (compress x d) d + roundingError d) ∨
      (decompress (compress x d) d = 0 ∧ 3329 ≤ x + roundingError d) := by
  obtain ⟨low, high⟩ := nearest_bounds (x * 2 ^ d) (m := 3329) (by decide)
  rw [compress_eq_nearest]
  generalize nearest (x * 2 ^ d) 3329 = k at low high
  have hpow := Nat.two_pow_pos d
  have hxd : x * 2 ^ d + 2 ^ d ≤ 3329 * 2 ^ d := by rw [← Nat.succ_mul]; exact Nat.mul_le_mul_right _ hx
  rcases Nat.lt_or_ge k (2 ^ d) with below | reached
  · obtain ⟨low', high'⟩ := nearest_bounds (k * 3329) hpow
    rw [← decompress_eq_nearest] at low' high'
    rw [Nat.mod_eq_of_lt below, ← Nat.sub_le_iff_le_add', ← Nat.sub_le_iff_le_add', le_roundingError_iff,
      le_roundingError_iff, Nat.sub_mul, Nat.sub_mul]
    exact .inl ⟨by omega, by omega⟩
  · refine .inr ⟨?_, ?_⟩
    · rw [show k = 2 ^ d by omega, Nat.mod_self, decompress, Nat.mul_zero, Nat.zero_mul, Nat.zero_add]
      exact Nat.div_eq_of_lt (Nat.pow_lt_pow_right (by decide) d.lt_succ_self)
    · rw [← Nat.sub_le_iff_le_add', le_roundingError_iff, Nat.sub_mul]
      omega

end Sys2Proof.Machine
end

section
/-! PROOF SUPPORT. A packed object as its 256 groups of d bits (41_packer.md R150, R151): two objects with equal groups are
equal, and what ByteEncode and ByteDecode make of the groups. -/

namespace Sys2Proof.Machine

theorem sum_range_bits (b : Nat → Bool) (d : Nat) :
    (Finset.sum (Finset.range d) fun j => 2 ^ j * bit (b j)) = Nat.ofBits fun j : Fin d => b j := by
  induction d generalizing b with
  | zero => rfl
  | succ d ih =>
    have head : bit (b 0) = (b 0).toNat := by cases b 0 <;> rfl
    have tail : (Finset.sum (Finset.range d) fun j => 2 ^ (j + 1) * bit (b (j + 1))) =
        2 * Finset.sum (Finset.range d) fun j => 2 ^ j * bit (b (j + 1)) := by
      rw [Finset.mul_sum]
      exact Finset.sum_congr rfl fun j _ => by rw [Nat.pow_succ', Nat.mul_assoc]
    rw [Finset.sum_range_succ', tail, ih fun j => b (j + 1), Nat.ofBits_succ, pow_zero, Nat.one_mul, head]
    rfl

/-- The unsigned integer in the d bits of group i. -/
def groupOf (bytes : List Byte) (d i : Nat) : Nat :=
  Nat.ofBits fun j : Fin d => (bytesToBits bytes).getD (i * d + j) false

theorem groupOf_eq_sum (bytes : List Byte) (d i : Nat) :
    groupOf bytes d i =
      Finset.sum (Finset.range d) fun j => 2 ^ j * bit ((bytesToBits bytes).getD (i * d + j) false) :=
  (sum_range_bits (fun j => (bytesToBits bytes).getD (i * d + j) false) d).symm

theorem groupOf_lt (bytes : List Byte) (d i : Nat) : groupOf bytes d i < 2 ^ d := Nat.ofBits_lt_two_pow _

theorem testBit_groupOf (bytes : List Byte) {d j : Nat} (i : Nat) (hj : j < d) :
    (groupOf bytes d i).testBit j = (bytesToBits bytes).getD (i * d + j) false := Nat.testBit_ofBits_lt _ j hj

theorem byteDecode_get (bytes : List Byte) {d : Nat} (hd : widthLegal d) (i : Fin 256) :
    (byteDecode bytes d)[i] = groupOf bytes d i % boundOf d := by
  rw [byteDecode, Fin.getElem_fin, Vector.getElem_ofFn, mod_natCast, fieldBound_eq_boundOf hd, groupOf_eq_sum]
  rfl

theorem groupOf_byteEncode (f : Values) (d : Nat) (i : Fin 256) : groupOf (byteEncode f d) d i = f[i] % 2 ^ d := by
  have bits : ∀ j : Fin d, (bytesToBits (byteEncode f d)).getD (i * d + j) false = f[i].testBit j := fun j => by
    have place := packedPlace_lt i j.isLt
    rw [getD_bytesToBits _ (by rw [length_byteEncode]; omega), getLsbD_byteEncode f d i j.isLt]
  rw [groupOf, funext bits, Nat.ofBits_testBit]

/-- Bit k of an object is bit (k mod d) of group (k div d). -/
theorem bytes_eq_of_groupOf {B C : List Byte} {d : Nat} (hB : B.length = 32 * d) (hC : C.length = 32 * d)
    (h : ∀ i : Fin 256, groupOf B d i = groupOf C d i) : B = C := by
  have bits : bytesToBits B = bytesToBits C := bits_ext (by simp [hB, hC]) fun k hk => by
    rw [length_bytesToBits] at hk
    have hd : 0 < d := by omega
    have hi : k / d < 256 := Nat.div_lt_of_lt_mul (by rw [Nat.mul_comm]; omega)
    have same := congrArg (Nat.testBit · (k % d)) (h ⟨k / d, hi⟩)
    simpa only [testBit_groupOf _ _ (Nat.mod_lt k hd), Nat.div_add_mod'] using same
  obtain ⟨back, -, -⟩ := bitsAndBytesAreInverse
  rw [← back B, bits, back C]

/-- Encoding undoes decoding exactly when the decoder's reduction modulo m(d) changes no group. -/
theorem byteEncode_byteDecode_iff {bytes : List Byte} {d : Nat} (hd : widthLegal d) (hlen : bytes.length = 32 * d) :
    byteEncode (byteDecode bytes d) d = bytes ↔ ∀ i : Fin 256, groupOf bytes d i < boundOf d := by
  have recoded (i : Fin 256) :
      groupOf (byteEncode (byteDecode bytes d) d) d i = groupOf bytes d i % boundOf d % 2 ^ d := by
    rw [groupOf_byteEncode, byteDecode_get bytes hd]
  constructor
  · intro same i
    rw [same] at recoded
    rw [recoded i]
    exact (Nat.mod_le _ _).trans_lt (Nat.mod_lt _ (boundOf_pos d))
  · intro fits
    refine bytes_eq_of_groupOf (length_byteEncode _ d) hlen fun i => ?_
    rw [recoded i, Nat.mod_eq_of_lt (fits i), Nat.mod_eq_of_lt (groupOf_lt bytes d i)]

theorem boundOf_of_lt {d : Nat} (hd : d < 12) : boundOf d = 2 ^ d := if_pos hd

theorem byteEncode_byteDecode {bytes : List Byte} {d : Nat} (hd : 1 ≤ d) (hd' : d < 12) (hlen : bytes.length = 32 * d) :
    byteEncode (byteDecode bytes d) d = bytes :=
  (byteEncode_byteDecode_iff ⟨hd, by omega⟩ hlen).2 fun i => (boundOf_of_lt hd').symm ▸ groupOf_lt bytes d i

theorem byteDecode_byteEncode {f : Values} {d : Nat} (hd : widthLegal d) (hf : ∀ i : Fin 256, f[i] < boundOf d) :
    byteDecode (byteEncode f d) d = f :=
  Vector.ext fun i hi => by
    have fits := hf ⟨i, hi⟩
    have value := byteDecode_get (byteEncode f d) hd ⟨i, hi⟩
    rwa [groupOf_byteEncode, Nat.mod_eq_of_lt (fits.trans_le (boundOf_le_two_pow hd)), Nat.mod_eq_of_lt fits] at value

theorem compressAll_decompressAll {g : Values} {d : Nat} (hd : 1 ≤ d) (hd' : d ≤ 11) (hg : ∀ i : Fin 256, g[i] < 2 ^ d) :
    compressAll (coeffsOf (decompressAll g d)) d = g :=
  Vector.ext fun i hi => by
    have fits := hg ⟨i, hi⟩
    obtain ⟨small, -, -⟩ := decompressRoundsToNearest _ d ⟨hd, by omega⟩ fits
    rw [← decompressAll_get] at small
    have value := compressAll_get (coeffsOf (decompressAll g d)) d ⟨i, hi⟩
    rwa [coeffsOf_val small, decompressAll_get, compress_decompress hd' fits] at value

end Sys2Proof.Machine
end

section
/-! PROOF SUPPORT. How ENCODE and SERIALIZE end by the values they pack (41_packer.md R153, R155). -/

namespace Sys2Proof.Machine

/-- Compress at d = 12 is still below 3329 for 2705 and reaches it for 2706. -/
theorem compress_twelve_lt_iff {x : Nat} (hx : x < 3329) : compress x 12 < 3329 ↔ x < 2706 := by
  have unreduced : (2 * x * 2 ^ 12 + 3329) / (2 * 3329) < 2 ^ 12 := by omega
  rw [compress, Nat.mod_eq_of_lt unreduced]
  omega

theorem exists_firstUnfit {f : Values} {d : Nat} (hd : widthLegal d) {i : Fin 256} (h : boundOf d ≤ f[i]) :
    ∃ k, firstUnfit f d = some k := by
  rw [← fieldBound_eq_boundOf hd] at h
  exact Option.isSome_iff_exists.1 (List.find?_isSome.2 ⟨i, List.mem_finRange i, decide_eq_true h⟩)

variable {i : Instr} {ps : Reg} {d addr : Nat} {tag : Tag} {f : Values} {s : State}
  (h : exec i s = execPack ps d tag f addr s) (hd : widthLegal d) (hfit : inBuffer addr (objectBytes d))
  (htag : s.tag ps = tag) (hset : tag ≠ .empty)
include h hd hfit htag hset

theorem completes_of_pack (hf : ∀ k : Fin 256, f[k] < boundOf d) : ∃ t, exec i s = .next t ∧ endsCompleted 0 s t :=
  ⟨_, by rw [h, execPack_of_checked hfit htag hset, firstUnfit_of_fits hd hf, Option.elim_none, complete],
    endsCompleted_storeBytes s addr _⟩

theorem raises_of_pack_unfit {k : Fin 256} (hk : boundOf d ≤ f[k]) :
    ∃ n v, raises i (.coefficientOutOfRange n v) s := by
  obtain ⟨n, hn⟩ := exists_firstUnfit hd hk
  exact ⟨_, _, raises_of_exec (by rw [h, execPack_of_checked hfit htag hset, hn, Option.elim_some])⟩

end Sys2Proof.Machine
end

section
/-! PROOFS. The scalar functions and the packer (40_ringmath_addsub.md section 1, 41_packer.md sections 1 and 2). -/

open Sys2Proof Sys2Proof.Machine

/-- Settles O35: the bounds of both roundings, added, and the listed bounds are `roundingError`. -/
theorem compressUndoesDecompress : Obligations.CompressUndoesDecompress := by
  refine ⟨fun d y _ hd hy => compress_decompress hd hy, by decide, fun d x hd hx => ?_⟩
  have near := decompress_compress_near (d := d) hx
  rw [← roundingError_eq hd]
  obtain ⟨small, -, -⟩ := decompressRoundsToNearest _ d hd (compress_lt x d)
  omega

/-- Settles O37: group by group, where ByteEncode reduces modulo 2^d and ByteDecode modulo m(d). -/
theorem packerFunctionsAreInverse : Obligations.PackerFunctionsAreInverse := by
  refine ⟨fun d f hd hf => byteDecode_byteEncode hd hf, fun d bytes hd hd' hlen => byteEncode_byteDecode hd hd' hlen,
    fun bytes hlen => ?_, fun d bytes hd hd' hlen => ?_⟩
  · simp only [← groupOf_eq_sum]
    exact byteEncode_byteDecode_iff ⟨by decide, le_rfl⟩ hlen
  · have fits : ∀ i : Fin 256, (byteDecode bytes d)[i] < 2 ^ d := fun i => by
      rw [byteDecode_get bytes ⟨hd, by omega⟩, boundOf_of_lt (by omega)]
      exact Nat.mod_lt _ (Nat.two_pow_pos d)
    rw [compressAll_decompressAll hd hd' fits, byteEncode_byteDecode hd (by omega) hlen]

/-- Settles O30: at d = 12 a coefficient always fits, and its compression does below 2706; a smaller width compresses to
values that fit. -/
theorem whenPackersHaveDataFaults : Obligations.WhenPackersHaveDataFaults := by
  refine ⟨fun ps dom addr s hfit htag => ?_, fun ps d addr s hd hd' hfit htag => ?_, fun ps addr s hfit htag => ?_⟩
  · refine completes_of_pack (exec_encode ps 12 dom addr s) (by decide) hfit htag (domainTag_ne_empty dom) fun k => ?_
    rw [valuesOf_get]
    exact (s.coeffs ps)[k].isLt
  · refine completes_of_pack (exec_serialize ps d addr s) ⟨hd, by omega⟩ hfit htag (by decide) fun k => ?_
    rw [compressAll_get, boundOf_of_lt (by omega)]
    exact compress_lt _ d
  · have fits (k : Fin 256) : (compressAll (s.coeffs ps) 12)[k] < boundOf 12 ↔ (s.coeffs ps)[k].val < 2706 := by
      rw [compressAll_get]
      exact compress_twelve_lt_iff (s.coeffs ps)[k].isLt
    refine ⟨fun ⟨k, hk⟩ => ?_, fun hall => ?_⟩
    · exact raises_of_pack_unfit (exec_serialize ps 12 addr s) (by decide) hfit htag (by decide)
        (not_lt.1 ((fits k).not.2 (not_lt.2 hk)))
    · exact completes_of_pack (exec_serialize ps 12 addr s) (by decide) hfit htag (by decide) fun k =>
        (fits k).2 (hall k)

end

section
/-! PROOF SUPPORT. The words of the control registers field by field (10_state.md R22, R35, R38, R39). -/

namespace Sys2Proof.Machine

theorem toNat_statusWord (s : State) : (statusWord s).toNat =
    bit s.busy + bit s.done * 2 + bit s.err * 4 + bit s.ovr * 8 + s.ecode.toNat * 2 ^ 8 := by
  have hbusy := bit_le s.busy
  have hdone := bit_le s.done
  have herr := bit_le s.err
  have hovr := bit_le s.ovr
  have hcode := s.ecode.isLt
  exact Nat.mod_eq_of_lt (by omega)

theorem field_statusWord (s : State) :
    field (statusWord s) 0 0 = bit s.busy ∧ field (statusWord s) 1 1 = bit s.done ∧
      field (statusWord s) 2 2 = bit s.err ∧ field (statusWord s) 3 3 = bit s.ovr ∧ field (statusWord s) 7 4 = 0 ∧
      field (statusWord s) 11 8 = s.ecode.toNat ∧ field (statusWord s) 31 12 = 0 := by
  have hbusy := bit_le s.busy
  have hdone := bit_le s.done
  have herr := bit_le s.err
  have hovr := bit_le s.ovr
  have hcode := s.ecode.isLt
  simp only [field_eq, toNat_statusWord]
  omega

theorem Tag.code_lt (t : Tag) : t.code < 4 := by cases t <;> decide

/-- The codes of the eight tags, as the digits to base 4 that TAGS holds. -/
def tagDigits (s : State) : Reg → Fin 4 := fun r => ⟨(s.tag r).code, (s.tag r).code_lt⟩

theorem toNat_tagsWord (s : State) : (tagsWord s).toNat = finFunctionFinEquiv (tagDigits s) := by
  have sum : (tagsWord s).toNat = (∑ r : Reg, (tagDigits s r).val * 4 ^ r.val) % 2 ^ 32 := by
    rw [tagsWord, BitVec.toNat_ofNat, ← List.ofFn_eq_map, List.sum_ofFn]
    rfl
  have small := (finFunctionFinEquiv (tagDigits s)).isLt
  rw [sum, ← finFunctionFinEquiv_apply, Nat.mod_eq_of_lt (small.trans (by decide))]

theorem field_tagsWord (s : State) :
    (∀ r : Reg, field (tagsWord s) (2 * r.val + 1) (2 * r.val) = (s.tag r).code) ∧ field (tagsWord s) 31 16 = 0 := by
  refine ⟨fun r => ?_, ?_⟩
  · have digit := congrFun (finFunctionFinEquiv.symm_apply_apply (tagDigits s)) r
    rw [field_eq, toNat_tagsWord, Nat.pow_mul, show 2 * r.val + 1 + 1 - 2 * r.val = 2 by omega]
    exact congrArg Fin.val digit
  · have small : (finFunctionFinEquiv (tagDigits s)).val < 2 ^ 16 := Fin.isLt _
    rw [field_eq, toNat_tagsWord, Nat.div_eq_of_lt small, Nat.zero_mod]

/-- A detail below 2^(hi+1) fills the bits [hi:0] of its word, and the rest are 0. -/
theorem field_of_toNat {w : Word} {n hi : Nat} (h : w.toNat = n) (hn : n < 2 ^ (hi + 1)) :
    field w hi 0 = n ∧ field w 31 (hi + 1) = 0 := by
  rw [field_eq, field_eq, h, pow_zero, Nat.div_one, Nat.sub_zero, Nat.mod_eq_of_lt hn, Nat.div_eq_of_lt hn, Nat.zero_mod]
  exact ⟨rfl, rfl⟩

theorem toNat_count {n : Nat} (hn : n < 2 ^ 9) : (BitVec.ofNat 32 (n % 2 ^ 9)).toNat = n := by
  rw [BitVec.toNat_ofNat, Nat.mod_eq_of_lt hn, Nat.mod_eq_of_lt (hn.trans (by decide))]

theorem toNat_coefficientOutOfRange {i v : Nat} (hi : i < 2 ^ 8) (hv : v < 2 ^ 12) :
    (CommandFault.coefficientOutOfRange i v).info.toNat = v * 2 ^ 16 + i := by
  rw [CommandFault.info, BitVec.toNat_ofNat, Nat.mod_eq_of_lt hv, Nat.mod_eq_of_lt hi, Nat.mod_eq_of_lt (by omega)]

theorem ctrlWord_eq (s : State) : ctrlWord s = if s.ie then 1 else 0 := by
  rw [ctrlWord, bit]
  split_ifs <;> rfl

end Sys2Proof.Machine
end

section
/-! PROOF SUPPORT. A host access to a control register (10_state.md R32 to R40): a read returns the register's word, and a
write elsewhere than to CTRL and CMD is ignored. -/

namespace Sys2Proof.Machine

variable {off : Nat} (low : off < bmemOffset)
include low

theorem hostRead_register (aligned : off % 4 = 0) (s : State) :
    hostRead .word off s = { s with readData := readRegister s off } := by
  have regular : regularAccess .word off := ⟨rfl, aligned, low.trans (by decide)⟩
  have noFree : ¬ usesFreeValue s .word off := fun h => absurd h.2.1 (not_le.2 low)
  rw [hostRead, if_neg noFree, readValue, if_neg (not_not_intro regular), if_pos low]

theorem step_reads_register {s : State} (aligned : off % 4 = 0) (h : nextIs (.host (.read .word off)) s) :
    step s = .next { s with schedule := s.schedule.tail, readData := readRegister s off } :=
  (step_of_nextIs_host h).trans (congrArg Host.Outcome.next (hostRead_register low aligned s.advance))

theorem hostWrite_ignored (noCtrl : off ≠ 0x004) (noCmd : off ≠ 0x00C) (size : AccessSize) (w : Word) (s : State) :
    hostWrite size off w s = s := by
  rw [hostWrite, if_neg noCtrl, if_neg noCmd, if_pos low, ite_self]

end Sys2Proof.Machine
end

section
/-! PROOFS. The words of the spec's examples, the engine's step, the control registers and the zeta table
(30_encoding.md section 5, 46_system.md R226, 10_state.md R32 to R40, 60_exceptions.md R276, 43_ntt.md R184). -/

open Sys2Proof Sys2Proof.Machine

/-- Settles O4 by running the decoder. -/
theorem specWordsDecode : Obligations.SpecWordsDecode := by
  unfold Obligations.SpecWordsDecode
  decide

/-- Settles O6: the engine's turn, then its step on a word that decodes. -/
theorem stepRunsPendingCommand : Obligations.StepRunsPendingCommand := fun _ _ _ hb hp hi =>
  ⟨fun hnil => (step_nil hnil).trans (engineStep_command hb hp hi),
    fun _ hnext => (step_engine hnext).trans (engineStep_command hb hp hi)⟩

/-- Settles O8: one clause for each branch of `writeCtrl`, and the read of `ctrlWord`. -/
theorem ctrlWriteStoresEnableAndClears : Obligations.CtrlWriteStoresEnableAndClears := by
  refine ⟨fun s w rest hs => ⟨fun ⟨hclr, hb⟩ => ?_, fun hno => ?_⟩, fun s rest hs => ?_, rfl⟩
  · exact (step_host hs).trans (congrArg Host.Outcome.next (writeCtrl_clears hclr hb))
  · have kept : ¬ (w.getLsbD 1 = true ∧ s.busy = false) :=
      not_and_or.2 (by simpa only [Bool.not_eq_true, Bool.not_eq_false] using hno)
    exact (step_host hs).trans (congrArg Host.Outcome.next (if_neg kept))
  · rw [step_host hs, ← ctrlWord_eq]
    exact congrArg Host.Outcome.next (hostRead_register (off := 0x004) (by decide) rfl _)

/-- Settles O9: the word read is the register's, and its fields are those of STATUS and TAGS. -/
theorem registerReadsReturnTheirFields : Obligations.RegisterReadsReturnTheirFields := by
  intro s off hnext aligned low
  refine ⟨_, step_reads_register low aligned hnext, ⟨⟨rfl, rfl, rfl⟩, rfl, rfl, rfl, rfl, rfl, rfl, rfl, rfl, rfl, rfl⟩,
    rfl, ?_, ?_, ?_, ?_, ?_, ?_, ?_, fun unmapped => readRegister_unmapped s unmapped⟩ <;> rintro rfl
  · rfl
  · exact field_statusWord s
  · rfl
  · rfl
  · rfl
  · exact field_tagsWord s
  · rfl

/-- Settles O12: none of the six offsets is that of CTRL, of CMD or of the BMEM window. -/
theorem readOnlyRegistersIgnoreWrites : Obligations.ReadOnlyRegistersIgnoreWrites := by
  intro s off w hoff hnext
  have outside : ∀ off ∈ [0x000, 0x008, 0x010, 0x014, 0x018, 0x01C], off ≠ 0x004 ∧ off ≠ 0x00C ∧ off < bmemOffset := by
    decide
  obtain ⟨noCtrl, noCmd, low⟩ := outside off hoff
  exact (step_of_nextIs_host hnext).trans (congrArg Host.Outcome.next (hostWrite_ignored low noCtrl noCmd .word w s.advance))

/-- Settles O14: the CLR action leaves BUSY and ERR 0, so the next step accepts the word. -/
theorem clearThenCommandIsAccepted : Obligations.ClearThenCommandIsAccepted := by
  intro s w v rest hb hclr hs
  have cleared := step_clears hb hclr (congrArg List.head? hs)
  rw [hs, List.tail_cons] at cleared
  have accepted := step_accepts (w := v)
    (s := clearStatus { s with schedule := .host (.write .word 0x00C v) :: rest, ie := w.getLsbD 0 }) hb rfl rfl
  exact ⟨_, (run_succ cleared 1).trans ((run_one _).trans accepted), ⟨rfl, rfl, rfl⟩, rfl, rfl, rfl, rfl, rfl, rfl, rfl,
    rfl, rfl, rfl, rfl⟩

/-- Settles O31: the detail fits its field, so writing it there loses nothing. -/
theorem errinfoFields : Obligations.ErrinfoFields := by
  refine ⟨fun i v hi hv => ?_, fun n hn => ?_, fun n hn => ?_, fun r => ?_, rfl, rfl, rfl⟩
  · simp only [field_eq, toNat_coefficientOutOfRange hi hv]
    omega
  · exact field_of_toNat (toNat_count hn) hn
  · exact field_of_toNat (toNat_count (by omega)) (by omega)
  · exact field_of_toNat (Nat.mod_eq_of_lt (r.isLt.trans (by decide))) r.isLt

/-- Settles O38 by computing the products of the table. -/
theorem zetaTableHasItsProperties : Obligations.ZetaTableHasItsProperties := by
  unfold Obligations.ZetaTableHasItsProperties InversePairing Tower
  decide +kernel

end
